-- ==== Sys2Proof/Word.lean ====
section
/-! DEFINITION. The word types of R2CORE (spec/00_scope.md R9, R10). Bit 0 is the least significant bit of every one. -/

namespace Sys2Proof

/-- A 32-bit value at the command or response port, or an entry of `V` (R95, R20). -/
abbrev Word := BitVec 32

/-- A 32-bit RawWord container: 2 context bits, 24 data bits as transmitted, 6 parity bits (R80). -/
abbrev RawWord := BitVec 32

/-- A 24-bit data word in true polarity (R22, R82). -/
abbrev DataWord := BitVec 24

/-- The six parity bits `D25 .. D30` of a word, `D25` most significant (R83). -/
abbrev ParityBits := BitVec 6

end Sys2Proof
end

