-- ==== Sys2Proof/Machine/Flags.lean ====
section
/-! DEFINITION. R2CORE has no flags register (spec/10_state.md R38). Its flag-like things: the inverted flag of a word, the
boolean results returned in DOUT, the error kind returned in ERR, and the status DECODE returns in DOUT. -/

namespace Sys2Proof.Machine

/-- The inverted flag of a RawWord: `inv(w) = w[30]` (R81). -/
def inv (w : RawWord) : Bool := w.getLsbD 30

/-- A boolean result in `DOUT[0]`, the other bits zero (R38 b, R141, R151). -/
def boolResult (b : Bool) : Word := if b then 1#32 else 0#32

/-- The error kinds of R220. -/
inductive ErrKind where
  /-- "fewer bits/words available than a field or the declared count requires" (R221). -/
  | truncated
  /-- "value does not fit the target field width during repack" (R222). -/
  | fieldOverflow
  /-- "declared word count inconsistent with message type" (R223). -/
  | badLength
  /-- "unconsumed bits after required fields" (R224). -/
  | trailingBits
  /-- "repack requested for a type without a descriptor and without preserved raw words" (R225). -/
  | unsupportedType
  /-- "synchronization-level, surfaced not fatal" (R226). -/
  | preambleMismatch
  /-- The command word, an operand or the block's state makes the command meaningless (R227). -/
  | badCommand
deriving DecidableEq, Repr

/-- The code of an error kind in `ERR[3:0]` (R220). -/
def errKindCode : ErrKind → BitVec 4
  | .truncated => 1
  | .fieldOverflow => 2
  | .badLength => 3
  | .trailingBits => 4
  | .unsupportedType => 5
  | .preambleMismatch => 6
  | .badCommand => 7

/-- `ERR` of an outcome: 0 OK when no error was met (R220). -/
def errCode : Option ErrKind → BitVec 4
  | none => 0
  | some e => errKindCode e

/-- The status DECODE returns (R201). -/
inductive Status where
  | incomplete
  | message
  | invalid
  | resync
deriving DecidableEq, Repr

/-- The code of a status in `DOUT[1:0]`, the other bits zero (R201). -/
def statusCode : Status → Word
  | .incomplete => 0
  | .message => 1
  | .invalid => 2
  | .resync => 3

end Sys2Proof.Machine
end

