-- ==== Sys2Proof/Config.lean ====
section
/-! DEFINITION. The configuration of one instance, spec/00_scope.md R6 to R8: the descriptor table DESC in the form of
spec/30_encoding.md R86 to R88, the preamble constant, the parity function; and the free values of
spec/93_implementation_defined.md U1 and U2. -/

namespace Sys2Proof

/-- A FieldDescriptor `(w, sgn, mul)` (R86): the width in bits, the signedness (`true` = two's complement) and the
positive integer scale, 1 meaning none. -/
structure FieldDesc where
  width  : Nat
  signed : Bool
  mul    : Nat
deriving DecidableEq, Repr

/-- Where the element count of a repeat-group comes from (R87): a constant, the value of the item at position `q` of the
same descriptor, or what is left of the word budget. -/
inductive CountSource where
  | const (n : Nat)
  | field (q : Nat)
  | remaining
deriving DecidableEq, Repr

/-- A descriptor item (R87): a scalar field `F(fd)`, or a repeat-group `G(src, [fd_1, .., fd_a])`. -/
inductive Item where
  | field (fd : FieldDesc)
  | group (src : CountSource) (fds : List FieldDesc)
deriving DecidableEq, Repr

/-- A MessageDescriptor: an ordered, possibly empty sequence of items (R88). -/
abbrev Descriptor := List Item

/-- Six masks over the 32-bit value `{p29, p30, d, 000000}`, one for each parity bit (R83's second form). -/
structure ParityMasks where
  d25 : Word
  d26 : Word
  d27 : Word
  d28 : Word
  d29 : Word
  d30 : Word
deriving DecidableEq, Repr

/-- The parameter PAR (R8) as plain data: either six parity equations given by masks, or an algorithm the model leaves
uninterpreted, told from others of its kind by a number (Log 4). -/
inductive ParityFn where
  | equations (masks : ParityMasks)
  | external (id : Nat)
deriving DecidableEq, Repr

/-- The configuration of an instance: DESC (the types it lists and their descriptors, the first entry for a type
deciding, every other type `none`), PREAMBLE and PAR (R6 to R8). No command writes it (R251). -/
structure Config where
  desc     : List (BitVec 6 × Descriptor)
  preamble : BitVec 8
  par      : ParityFn
deriving DecidableEq, Repr

/-- The default parity equations of R83, as masks (general knowledge in the spec's own words; Log 4). -/
def ParityMasks.gps : ParityMasks :=
  { d25 := 0xBB1F3480, d26 := 0x5D8F9A40, d27 := 0xAEC7CD00,
    d28 := 0x5763E680, d29 := 0x6BB1F340, d30 := 0x8B7A89C0 }

/-- The configuration the spec names as default, with no known message type: PREAMBLE `0x66` (R7, Log 3), PAR the
equations of R83 (R8, Log 4), DESC empty (R6 gives no contents, Log 5). -/
def Config.default : Config :=
  { desc := [], preamble := 0x66, par := .equations ParityMasks.gps }

/-- The parity algorithm numbered `id`, uninterpreted (R8: "external, shared algorithm"; Log 4). -/
opaque Config.externalParity : (id : Nat) → (p29 p30 : BitVec 1) → (d : DataWord) → ParityBits

/-- The places whose value the spec leaves unspecified after a failed UNPACK (U1) or a failed REPACK (U2). -/
inductive FreeSlot where
  | off | lim
  | mtype | stid | zcnt | seq | len | health
  | v (j : Nat)
  | rw (i : Nat)
  | dw (i : Nat)
deriving DecidableEq, Repr

/-- The free value of a place at a draw: nothing in the model constrains it (R13; Logs 7, 8, 9). -/
opaque Config.freeWord : (draw : Nat) → (slot : FreeSlot) → Word

end Sys2Proof
end

