-- ==== Sys2Proof/Syntax.lean ====
section
/-! DEFINITION. The command set of spec/30_encoding.md R97: one constructor of `Instr` for each row of
spec/opcode_table.json, its operands the fields of the row's format (R96). -/

namespace Sys2Proof

/-- A command as the host gives it: the command word CW and the DATA word that always accompanies it (R95, R99). -/
structure Command where
  cw   : Word
  data : Word
deriving DecidableEq, Repr

/-- The thirteen commands. `sealRaw` is `SEAL` (`seal` is a word of Lean's own). -/
inductive Instr where
  /-- `NOP` (R210). -/
  | nop
  /-- `RD`: read entry `idx` of space `space` (R211). -/
  | rd (space : BitVec 4) (idx : BitVec 10)
  /-- `WR`: write `data` to entry `idx` of space `space` (R212). -/
  | wr (space : BitVec 4) (idx : BitVec 10) (data : Word)
  /-- `CREAD.U` (`sgn = false`), `CREAD.S` (`sgn = true`): read the next field (R122). -/
  | cread (sgn : Bool) (width : BitVec 5)
  /-- `CWRITE.U`, `CWRITE.S`: write `data` as the next field (R123). -/
  | cwrite (sgn : Bool) (width : BitVec 5) (data : Word)
  /-- `PMATCH`: test `RW[widx]` for the preamble (R141). -/
  | pmatch (widx : BitVec 6)
  /-- `LCHECK`: test a declared word count against a message type (R151). -/
  | lcheck (mtype : BitVec 6) (count : BitVec 5)
  /-- `STRIP`: make the data view of the raw sequence (R161). -/
  | strip
  /-- `UNPACK`: decode the raw sequence into the message registers (R168). -/
  | unpack
  /-- `SEAL`: produce the raw sequence from the data view (R181). -/
  | sealRaw
  /-- `REPACK`: encode the message registers into the raw sequence (R186). -/
  | repack
  /-- `DECODE`: classify the accumulated sequence and unpack a complete message (R200). -/
  | decode
  /-- `RESET`: return the block to its reset state (R213). -/
  | reset
deriving DecidableEq, Repr

end Sys2Proof
end

