-- ==== Sys2Proof/Machine/State.lean ====
section
/-! DEFINITION. The state of one R2CORE instance (spec/10_state.md R20), beside it the instance's configuration
(spec/00_scope.md R6 to R8) and the model's own fields for the command and response ports (spec/30_encoding.md R95). -/

namespace Sys2Proof.Machine

/-- An array of `w`-bit entries, as the pairs (index, entry) of the entries that are not 0, indices strictly rising;
an index that is not listed reads as 0, the reset contents of R44 (Log 10). -/
abbrev Memory (w : Nat) := List (Nat × BitVec w)

/-- The DecodedMessage variant in the message registers: codes 0 NONE, 1 TYPED, 2 OPAQUE (R27). -/
inductive Tag where
  | noMessage
  | typed
  | opaqueRaw
deriving DecidableEq, Repr

/-- A response: the 4-bit ERR and the 32-bit DOUT (R95). -/
structure Response where
  err  : BitVec 4
  dout : Word
deriving DecidableEq, Repr

/-- The whole of an instance as the step function sees it. The fields from `nw` to `opq` are the state of R20; `cfg` is
the configuration; `cmds`, `resps` and `draws` are the model's own. -/
structure State where
  /-- `NW`, CTL.0: number of words in the word sequence, legal 0..33 (R23). -/
  nw     : BitVec 6
  /-- `OFF`, CTL.1: Bit Cursor offset in bits, legal 0..792 (R24). -/
  off    : BitVec 10
  /-- `LIM`, CTL.2: Bit Cursor read budget in bits, legal 0..792 (R25). -/
  lim    : BitVec 10
  /-- `CTX0`, CTL.3: context bits for word 0 on SEAL and REPACK (R26). -/
  ctx0   : BitVec 2
  /-- `TAG`, CTL.4: DecodedMessage variant (R27). -/
  tag    : Tag
  /-- `MTYPE`, CTL.5: header, message type (R28). -/
  mtype  : BitVec 6
  /-- `STID`, CTL.6: header, station ID (R29). -/
  stid   : BitVec 10
  /-- `ZCNT`, CTL.7: header, z-count (R30). -/
  zcnt   : BitVec 13
  /-- `SEQ`, CTL.8: header, sequence number (R31). -/
  seq    : BitVec 3
  /-- `LEN`, CTL.9: header, word count (R32). -/
  len    : BitVec 5
  /-- `HEALTH`, CTL.10: header, station health (R33). -/
  health : BitVec 3
  /-- `NV`, CTL.11: number of payload values, legal 0..744 (R34). -/
  nv     : BitVec 10
  /-- `RW[0..32]`: raw word sequence (R21). -/
  rw     : Memory 32
  /-- `DW[0..32]`: data-word sequence, the memory of the Bit Cursor (R22). -/
  dw     : Memory 24
  /-- `V[0..743]`: payload values of the TYPED variant, read as signed (R35). -/
  v      : Memory 32
  /-- `OPQ[0..30]`: preserved raw words of the OPAQUE variant (R36). -/
  opq    : Memory 32
  /-- The configuration of the instance: an argument of the spec's step function (R5), never written (Log 2). -/
  cfg    : Config
  /-- The model's own: commands the host has issued and the block has not run, oldest first (Log 1). -/
  cmds   : List Command
  /-- The model's own: responses returned, oldest first (Log 1). -/
  resps  : List Response
  /-- The model's own: how many times unspecified values have been drawn (Log 9). -/
  draws  : Nat
deriving DecidableEq, Repr

/-- The machine right after reset (R44, R250): every register and array entry zero, TAG NONE; the default
configuration (Logs 3 to 5); nothing at the ports. -/
def State.reset : State :=
  { nw := 0, off := 0, lim := 0, ctx0 := 0, tag := .noMessage, mtype := 0, stid := 0, zcnt := 0, seq := 0, len := 0,
    health := 0, nv := 0, rw := [], dw := [], v := [], opq := [], cfg := Config.default, cmds := [], resps := [],
    draws := 0 }

/-- Reasons the machine stops with a fault. There are none: every command terminates with a response
(spec/70_reset_and_hazards.md R254), and an error of R220 is a response, not a stop (Log 12). -/
inductive Fault where
deriving DecidableEq, Repr

/-- Reasons the model refuses a command. -/
inductive Refusal where
  /-- Raised by an arm of `exec` whose instruction has no meaning in the model. No arm raises it: every instruction is
  modelled. Safe (the model stops where the hardware goes on). -/
  | notModelled (mnemonic : String)
deriving DecidableEq, Repr

end Sys2Proof.Machine
end

