-- ==== Sys2Proof/Machine/Ops.lean ====
section
/-! DEFINITION. The named operations over the arrays (spec/20_memory.md R60, R61, R63, R64), the ports
(spec/30_encoding.md R95) and the reporting of an error (spec/60_exceptions.md R228). -/

namespace Sys2Proof.Machine

/-! ### Whole entries -/

/-- Entry `a` of an array; an index that is not listed reads as 0 (R44). -/
def Memory.read {w : Nat} : Memory w → Nat → BitVec w
  | [], _ => 0#w
  | (k, x) :: rest, a => if k = a then x else Memory.read rest a

/-- Puts the pair `(a, x)` before the first greater index. -/
def Memory.insertCell {w : Nat} (a : Nat) (x : BitVec w) : Memory w → Memory w
  | [] => [(a, x)]
  | (k, y) :: rest => if a < k then (a, x) :: (k, y) :: rest else (k, y) :: Memory.insertCell a x rest

/-- Writes entry `a`; writing 0 removes the pair, so that equal arrays are equal lists. -/
def Memory.write {w : Nat} (m : Memory w) (a : Nat) (x : BitVec w) : Memory w :=
  let others := m.filter (fun c => c.1 != a)
  if x = 0#w then others else Memory.insertCell a x others

/-- Writes 0 to the entries `lo .. hi-1`. -/
def Memory.clear {w : Nat} (m : Memory w) (lo hi : Nat) : Memory w :=
  m.filter (fun c => !(decide (lo ≤ c.1) && decide (c.1 < hi)))

/-- `for i in 0..n-1: m[base + i] <- f i`. -/
def Memory.fill {w : Nat} (m : Memory w) (base : Nat) : (n : Nat) → (f : Nat → BitVec w) → Memory w
  | 0, _ => m
  | n + 1, f => (Memory.fill m base n f).write (base + n) (f n)

/-- The canonical form of an array of `size` entries: indices strictly rising and below `size`, no listed entry 0. -/
abbrev Memory.wf {w : Nat} (size : Nat) (m : Memory w) : Prop :=
  m.Pairwise (fun c d => c.1 < d.1) ∧ ∀ c ∈ m, c.1 < size ∧ c.2 ≠ 0#w

/-! ### The bit space of DW -/

/-- The bit at bit address `o`: bit `23 - (o mod 24)` of `DW[o div 24]` (R61). -/
def bitAt (dw : Memory 24) (o : Nat) : Bool := (dw.read (o / 24)).getLsbD (23 - o % 24)

/-- A data word with bit `i` set to `b`. -/
def setWordBit (d : DataWord) (i : Nat) (b : Bool) : DataWord :=
  if b then d ||| BitVec.twoPow 24 i else d &&& ~~~(BitVec.twoPow 24 i)

/-- Writes the bit at bit address `o` (R61). -/
def setBitAt (dw : Memory 24) (o : Nat) (b : Bool) : Memory 24 :=
  dw.write (o / 24) (setWordBit (dw.read (o / 24)) (23 - o % 24) b)

/-- `MemRead(o, n)`: the `n` bits from bit address `o` on, the first most significant (R63). -/
def memRead (dw : Memory 24) (o : Nat) : (n : Nat) → Nat
  | 0 => 0
  | n + 1 => 2 * memRead dw o n + (bitAt dw (o + n)).toNat

/-- `MemWrite(o, n, u)`: writes the `n`-bit value `u` from bit address `o` on, its most significant bit first (R64). -/
def memWrite (dw : Memory 24) (o : Nat) : (n u : Nat) → Memory 24
  | 0, _ => dw
  | n + 1, u => setBitAt (memWrite dw o n (u / 2)) (o + n) (u % 2 == 1)

/-! ### The ports, and reporting -/

/-- Ends a command with the response `ERR = err`, `DOUT = dout` (R95). -/
def State.respond (s : State) (err : BitVec 4) (dout : Word) : State :=
  { s with resps := s.resps ++ [{ err := err, dout := dout }] }

/-- Ends a command with success: `return (OK, dout)` (R12). -/
def State.succeed (s : State) (dout : Word) : State := s.respond (errCode none) dout

/-- `raise E`, the block's only exception entry (R228): the response carries the code and `DOUT = 0`; nothing is saved, no
mode changes and no control is transferred, so there is nothing to return from either (R230). -/
def State.raiseError (s : State) (e : ErrKind) : State := s.respond (errCode (some e)) 0

/-- Takes the first pending command off the command port. -/
def State.dropCommand (s : State) : State := { s with cmds := s.cmds.tail }

/-- Every register and array entry of R20 at its reset value 0 (R44); the configuration (R251) and the ports stay. -/
def State.clear (s : State) : State :=
  { s with nw := 0, off := 0, lim := 0, ctx0 := 0, tag := .noMessage, mtype := 0, stid := 0, zcnt := 0, seq := 0,
           len := 0, health := 0, nv := 0, rw := [], dw := [], v := [], opq := [] }

end Sys2Proof.Machine
end

