-- ==== Sys2Proof/Machine/Operands.lean ====
section
/-! DEFINITION. The operand forms: an entry of one of the five spaces (spec/20_memory.md R60, spec/10_state.md R20), the
RawWord container (spec/30_encoding.md R80 to R82) and signed field patterns (spec/00_scope.md R11). -/

namespace Sys2Proof.Machine

/-- The twelve CTL registers (R20). -/
inductive CtlReg where
  | nw | off | lim | ctx0 | tag | mtype | stid | zcnt | seq | len | health | nv
deriving DecidableEq, Repr

/-- The CTL register with an index (R20). -/
def ctlRegAt : Nat → Option CtlReg
  | 0 => some .nw
  | 1 => some .off
  | 2 => some .lim
  | 3 => some .ctx0
  | 4 => some .tag
  | 5 => some .mtype
  | 6 => some .stid
  | 7 => some .zcnt
  | 8 => some .seq
  | 9 => some .len
  | 10 => some .health
  | 11 => some .nv
  | _ => none

/-- The largest legal value of a CTL register (R20, R212). -/
def ctlMax : CtlReg → Nat
  | .nw => 33
  | .off => 792
  | .lim => 792
  | .ctx0 => 3
  | .tag => 2
  | .mtype => 63
  | .stid => 1023
  | .zcnt => 8191
  | .seq => 7
  | .len => 31
  | .health => 7
  | .nv => 744

/-- The code of a message variant (R27). -/
def tagCode : Tag → Word
  | .noMessage => 0
  | .typed => 1
  | .opaqueRaw => 2

/-- The message variant with a code; code 3 and above cannot be written (R27, R212). -/
def tagOfCode (x : Word) : Tag :=
  if x = 0#32 then .noMessage else if x = 1#32 then .typed else .opaqueRaw

/-- A CTL register, zero-extended to 32 bits (R211). -/
def readCtl (s : State) : CtlReg → Word
  | .nw => s.nw.setWidth 32
  | .off => s.off.setWidth 32
  | .lim => s.lim.setWidth 32
  | .ctx0 => s.ctx0.setWidth 32
  | .tag => tagCode s.tag
  | .mtype => s.mtype.setWidth 32
  | .stid => s.stid.setWidth 32
  | .zcnt => s.zcnt.setWidth 32
  | .seq => s.seq.setWidth 32
  | .len => s.len.setWidth 32
  | .health => s.health.setWidth 32
  | .nv => s.nv.setWidth 32

/-- Writes the low bits of a value, which are all of a legal one, to a CTL register (R212). -/
def writeCtl (s : State) (r : CtlReg) (x : Word) : State :=
  match r with
  | .nw => { s with nw := x.setWidth 6 }
  | .off => { s with off := x.setWidth 10 }
  | .lim => { s with lim := x.setWidth 10 }
  | .ctx0 => { s with ctx0 := x.setWidth 2 }
  | .tag => { s with tag := tagOfCode x }
  | .mtype => { s with mtype := x.setWidth 6 }
  | .stid => { s with stid := x.setWidth 10 }
  | .zcnt => { s with zcnt := x.setWidth 13 }
  | .seq => { s with seq := x.setWidth 3 }
  | .len => { s with len := x.setWidth 5 }
  | .health => { s with health := x.setWidth 3 }
  | .nv => { s with nv := x.setWidth 10 }

/-- One entry of one space. -/
inductive Entry where
  | ctl (r : CtlReg)
  | rw (i : Nat)
  | dw (i : Nat)
  | v (j : Nat)
  | opq (i : Nat)
deriving DecidableEq, Repr

/-- The entry a space code and an index name; none for `space > 4` and for `idx >= size(space)` (R60, R211). -/
def entryAt (space : BitVec 4) (idx : BitVec 10) : Option Entry :=
  let i := idx.toNat
  match space.toNat with
  | 0 => (ctlRegAt i).map .ctl
  | 1 => if i < 33 then some (.rw i) else none
  | 2 => if i < 33 then some (.dw i) else none
  | 3 => if i < 744 then some (.v i) else none
  | 4 => if i < 31 then some (.opq i) else none
  | _ => none

/-- The value of an entry in the 32-bit DOUT (R62, R211). -/
def readEntry (s : State) : Entry → Word
  | .ctl r => readCtl s r
  | .rw i => s.rw.read i
  | .dw i => (s.dw.read i).setWidth 32
  | .v j => s.v.read j
  | .opq i => s.opq.read i

/-- Whether a value is in the legal range of an entry (R212). -/
def legalValue (x : Word) : Entry → Bool
  | .ctl r => decide (x.toNat ≤ ctlMax r)
  | .dw _ => decide (x.extractLsb' 24 8 = 0#8)
  | .rw _ => true
  | .v _ => true
  | .opq _ => true

/-- Writes an entry, and nothing else (R212). -/
def writeEntry (s : State) (e : Entry) (x : Word) : State :=
  match e with
  | .ctl r => writeCtl s r x
  | .rw i => { s with rw := s.rw.write i x }
  | .dw i => { s with dw := s.dw.write i (x.setWidth 24) }
  | .v j => { s with v := s.v.write j x }
  | .opq i => { s with opq := s.opq.write i x }

/-- The value of a `w`-bit pattern `u`, sign-extended where asked (R11, R120). -/
def patternValue (w : Nat) (sgn : Bool) (u : Nat) : Int :=
  if sgn && u.testBit (w - 1) then (u : Int) - (2 : Int) ^ w else (u : Int)

/-- Whether an integer is in the range of a field of `w` bits (R91, R121). -/
def fitsField (w : Nat) (sgn : Bool) (v : Int) : Bool :=
  if sgn then decide (-((2 : Int) ^ (w - 1)) ≤ v ∧ v ≤ (2 : Int) ^ (w - 1) - 1)
  else decide (0 ≤ v ∧ v ≤ (2 : Int) ^ w - 1)

/-- The 24 data bits of a container as transmitted, `w[29:6]` (R80). -/
def transmittedData (w : RawWord) : DataWord := w.extractLsb' 6 24

/-- The true data word of a container: complemented when the inverted flag is set (R82). -/
def stripWord (w : RawWord) : DataWord :=
  transmittedData w ^^^ (if inv w then 0xFFFFFF#24 else 0x000000#24)

end Sys2Proof.Machine
end

