-- ==== Sys2Proof/Machine/BitCursor.lean ====
section
/-! DEFINITION. The Bit Cursor: spec/40_bit_cursor.md R120 to R125, commands CREAD and CWRITE. -/

namespace Sys2Proof.Machine

/-- `cur_read(w, sgn)` (R120): the value and the state with `OFF` advanced; Truncated past the budget `LIM`. -/
def curRead (s : State) (w : Nat) (sgn : Bool) : Except ErrKind (Int × State) :=
  if s.lim.toNat < s.off.toNat + w then .error .truncated
  else .ok (patternValue w sgn (memRead s.dw s.off.toNat w), { s with off := BitVec.ofNat 10 (s.off.toNat + w) })

/-- How many words a field of `w` bits at bit address `off` reaches into (R121). -/
def wordsNeeded (off w : Nat) : Nat := (off + w + 23) / 24

/-- Allocation (R121): words taken in beyond `NW` start as zero, and `NW` rises. -/
def allocate (s : State) (need : Nat) : State :=
  if s.nw.toNat < need then { s with dw := s.dw.clear s.nw.toNat need, nw := BitVec.ofNat 6 need } else s

/-- `cur_write(v, w, sgn)` (R121): range first (FieldOverflow), then capacity (Truncated), then allocate and write. -/
def curWrite (s : State) (v : Int) (w : Nat) (sgn : Bool) : Except ErrKind State :=
  if !fitsField w sgn v then .error .fieldOverflow
  else if 792 < s.off.toNat + w then .error .truncated
  else
    let a := allocate s (wordsNeeded s.off.toNat w)
    .ok { a with dw := memWrite a.dw s.off.toNat w (v % (2 : Int) ^ w).toNat,
                 off := BitVec.ofNat 10 (s.off.toNat + w) }

/-- Whether a width operand is illegal (R98 d, R122, R123). -/
def illegalWidth (width : BitVec 5) : Bool := decide (width.toNat = 0 ∨ 24 < width.toNat)

/-- `CREAD` (R122). -/
def execCread (sgn : Bool) (width : BitVec 5) (s : State) : Host.Outcome State Fault Refusal :=
  if illegalWidth width then .next (s.raiseError .badCommand)
  else
    match curRead s width.toNat sgn with
    | .ok (x, t) => .next (t.succeed (BitVec.ofInt 32 x))
    | .error e => .next (s.raiseError e)

/-- `CWRITE` (R123): DATA is read as signed for `sgn = 1`, as unsigned for `sgn = 0`. -/
def execCwrite (sgn : Bool) (width : BitVec 5) (data : Word) (s : State) : Host.Outcome State Fault Refusal :=
  if illegalWidth width then .next (s.raiseError .badCommand)
  else
    match curWrite s (if sgn then data.toInt else (data.toNat : Int)) width.toNat sgn with
    | .ok t => .next (t.succeed 0)
    | .error e => .next (s.raiseError e)

end Sys2Proof.Machine
end

