-- ==== Sys2Proof/Machine/Preamble.lean ====
section
/-! DEFINITION. The Preamble Validator: spec/41_preamble_validator.md R140 to R142, command PMATCH. -/

namespace Sys2Proof.Machine

/-- `pmatch(w)`: the leading 8 bits of the true data word are the preamble (R140). -/
def pmatch (cfg : Config) (w : RawWord) : Bool := decide ((stripWord w).extractLsb' 16 8 = cfg.preamble)

/-- `PMATCH`: test one entry of RW, whatever `NW` is (R141). -/
def execPmatch (widx : BitVec 6) (s : State) : Host.Outcome State Fault Refusal :=
  if 32 < widx.toNat then .next (s.raiseError .badCommand)
  else .next (s.succeed (boolResult (pmatch s.cfg (s.rw.read widx.toNat))))

end Sys2Proof.Machine
end

