-- ==== Sys2Proof/Machine/Descriptor.lean ====
section
/-! DEFINITION. The descriptor table (spec/00_scope.md R6, spec/30_encoding.md R86 to R89): lookup, sizes and
well-formedness. -/

namespace Sys2Proof.Machine

/-- The first descriptor a table lists for a type. -/
def findDesc (t : BitVec 6) : List (BitVec 6 × Descriptor) → Option Descriptor
  | [] => none
  | (k, d) :: rest => if k = t then some d else findDesc t rest

/-- `DESC(t)` (R6, R88). -/
def descOf (cfg : Config) (t : BitVec 6) : Option Descriptor := findDesc t cfg.desc

/-- The element size `e` of a group: the bits of one tuple (R87). -/
def elemBits : List FieldDesc → Nat
  | [] => 0
  | fd :: rest => fd.width + elemBits rest

/-- The width `w_q` of the scalar item at position `q` (R150, R182); 0 where there is none, which R89 (4) excludes. -/
def sourceWidth (d : Descriptor) (q : Nat) : Nat :=
  match d[q]? with
  | some (.field fd) => fd.width
  | _ => 0

/-- R89 (1) and (2). -/
def fieldWellFormed (fd : FieldDesc) : Bool :=
  decide (1 ≤ fd.width ∧ fd.width ≤ 24 ∧ 1 ≤ fd.mul) &&
    (if fd.signed then decide (2 ^ (fd.width - 1) * fd.mul ≤ 2 ^ 31)
     else decide ((2 ^ fd.width - 1) * fd.mul ≤ 2 ^ 31 - 1))

/-- R89 (4): the source of a `Field` group at position `p` is an earlier unsigned unscaled scalar. -/
def fieldSourceWellFormed (d : Descriptor) (p q : Nat) : Bool :=
  match d[q]? with
  | some (.field fd) => decide (q < p) && !fd.signed && decide (fd.mul = 1)
  | _ => false

/-- R89 (1) to (4) and (6) for the item at position `p`, and (5): `isLast` says whether it is the last. -/
def itemWellFormed (d : Descriptor) (p : Nat) (isLast : Bool) : Item → Bool
  | .field fd => fieldWellFormed fd
  | .group src fds =>
    !fds.isEmpty && fds.all fieldWellFormed &&
      (match src with
       | .const n => decide (n ≤ 744)
       | .field q => fieldSourceWellFormed d p q
       | .remaining => isLast)

/-- The items from position `p` on are well-formed. -/
def itemsWellFormed (d : Descriptor) : (p : Nat) → List Item → Bool
  | _, [] => true
  | p, it :: rest => itemWellFormed d p rest.isEmpty it && itemsWellFormed d (p + 1) rest

/-- R89 for one descriptor. -/
def descriptorWellFormed (d : Descriptor) : Bool := itemsWellFormed d 0 d

/-- R89 for the table: what the platform must supply (R252). -/
def configWellFormed (cfg : Config) : Bool := cfg.desc.all (fun e => descriptorWellFormed e.2)

end Sys2Proof.Machine
end

