-- ==== Sys2Proof/Machine/Length.lean ====
section
/-! DEFINITION. The Length Validator: spec/42_length_validator.md R150 to R153, command LCHECK. -/

namespace Sys2Proof.Machine

/-- `fixed`: the bits of the scalar items and of the groups of constant count (R150). -/
def fixedBits : List Item → Nat
  | [] => 0
  | .field fd :: rest => fd.width + fixedBits rest
  | .group (.const n) fds :: rest => n * elemBits fds + fixedBits rest
  | .group (.field _) _ :: rest => fixedBits rest
  | .group .remaining _ :: rest => fixedBits rest

/-- `vars`: element size and largest count (none = unbounded) of every other group, in descriptor order (R150). -/
def varGroups (d : Descriptor) : List Item → List (Nat × Option Nat)
  | [] => []
  | .field _ :: rest => varGroups d rest
  | .group (.const _) _ :: rest => varGroups d rest
  | .group (.field q) fds :: rest => (elemBits fds, some (2 ^ sourceWidth d q - 1)) :: varGroups d rest
  | .group .remaining fds :: rest => (elemBits fds, none) :: varGroups d rest

/-- The largest count worth trying: `max_g`, and never more than the bits left allow (R150, last sentence). -/
def countBound (e : Nat) (most : Option Nat) (bits : Nat) : Nat :=
  match most with
  | some m => min m (bits / e)
  | none => bits / e

/-- Whether counts within their bounds make the variable groups fill exactly `bits` bits (R150). -/
def countsFill : List (Nat × Option Nat) → (bits : Nat) → Bool
  | [], bits => bits == 0
  | (e, most) :: rest, bits =>
    (List.range (countBound e most bits + 1)).any (fun k => decide (k * e ≤ bits) && countsFill rest (bits - k * e))

/-- `lcheck(c, t)` (R150). -/
def lcheck (cfg : Config) (c : BitVec 5) (t : BitVec 6) : Bool :=
  match descOf cfg t with
  | none => true
  | some d => decide (fixedBits d ≤ 24 * c.toNat) && countsFill (varGroups d d) (24 * c.toNat - fixedBits d)

/-- `LCHECK` (R151). -/
def execLcheck (mtype : BitVec 6) (count : BitVec 5) (s : State) : Host.Outcome State Fault Refusal :=
  .next (s.succeed (boolResult (lcheck s.cfg count mtype)))

end Sys2Proof.Machine
end

