-- ==== Sys2Proof/Machine/Unpacker.lean ====
section
/-! DEFINITION. The Unpacker: spec/43_unpacker.md R160 to R170, commands STRIP and UNPACK. -/

namespace Sys2Proof.Machine

/-- `strip()`: `DW[i] <- strip_word(RW[i])` for `i < NW` (R160). -/
def stripWords (s : State) : State :=
  { s with dw := s.dw.fill 0 s.nw.toNat (fun i => stripWord (s.rw.read i)) }

/-- `STRIP` (R161). -/
def execStrip (s : State) : Host.Outcome State Fault Refusal := .next ((stripWords s).succeed 0)

/-- Step 1 of UNPACK, the header (R162); the preamble field is read and ignored. -/
def unpackHeader (s : State) : Except ErrKind State :=
  if s.nw.toNat < 2 then .error .truncated
  else do
    let s := { stripWords s with off := 0, lim := 48 }
    let (_, s) ← curRead s 8 false
    let (x, s) ← curRead s 6 false
    let s := { s with mtype := BitVec.ofInt 6 x }
    let (x, s) ← curRead s 10 false
    let s := { s with stid := BitVec.ofInt 10 x }
    let (x, s) ← curRead s 13 false
    let s := { s with zcnt := BitVec.ofInt 13 x }
    let (x, s) ← curRead s 3 false
    let s := { s with seq := BitVec.ofInt 3 x }
    let (x, s) ← curRead s 5 false
    let s := { s with len := BitVec.ofInt 5 x }
    let (x, s) ← curRead s 3 false
    .ok { s with health := BitVec.ofInt 3 x }

/-- Step 1a, the sequence against the declared count (R163). -/
def unpackCount (s : State) : Except ErrKind State :=
  if s.nw.toNat < 2 + s.len.toNat then .error .truncated
  else if 2 + s.len.toNat < s.nw.toNat then .error .trailingBits
  else .ok { s with lim := BitVec.ofNat 10 (24 * (2 + s.len.toNat)) }

/-- The opaque path (R165): the words after the header, verbatim. -/
def unpackOpaque (s : State) : State :=
  { s with opq := s.opq.fill 0 s.len.toNat (fun i => s.rw.read (2 + i)), nv := 0, off := s.lim, tag := .opaqueRaw }

/-- `read_field(fd)` (R166, R90). -/
def readField (s : State) (fd : FieldDesc) : Except ErrKind (Int × State) := do
  let (x, s) ← curRead s fd.width fd.signed
  .ok (x * (fd.mul : Int), s)

/-- Reads a field into `V[j]`, giving its value. -/
def readFieldTo (s : State) (fd : FieldDesc) (j : Nat) : Except ErrKind (Int × State) := do
  let (x, s) ← readField s fd
  .ok (x, { s with v := s.v.write j (BitVec.ofInt 32 x) })

/-- Reads the fields of one tuple into `V[j], V[j+1], ..`; gives the next index (R166). -/
def readTuple (s : State) : (fds : List FieldDesc) → (j : Nat) → Except ErrKind (Nat × State)
  | [], j => .ok (j, s)
  | fd :: rest, j => do
    let (_, s) ← readFieldTo s fd j
    readTuple s rest (j + 1)

/-- Reads `k` tuples (R166). -/
def readTuples (s : State) (fds : List FieldDesc) : (k j : Nat) → Except ErrKind (Nat × State)
  | 0, j => .ok (j, s)
  | k + 1, j => do
    let (j, s) ← readTuple s fds j
    readTuples s fds k j

/-- The element count of a group on unpack (R166); `vals` holds the values of the items before it. -/
def unpackGroupCount (s : State) (vals : List Int) (fds : List FieldDesc) : CountSource → Nat
  | .const n => n
  | .field q => (vals.getD q 0).toNat
  | .remaining => (s.lim.toNat - s.off.toNat) / elemBits fds

/-- The walk over the items from the one at position `vals.length` on (R166). `vals` is the scratch `val[0..p-1]`, a group
taking the place 0, which R89 (4) keeps from being a source. -/
def walkItems (s : State) : (items : List Item) → (vals : List Int) → (j : Nat) → Except ErrKind (Nat × State)
  | [], _, j => .ok (j, s)
  | .field fd :: rest, vals, j => do
    let (x, s) ← readFieldTo s fd j
    walkItems s rest (vals ++ [x]) (j + 1)
  | .group src fds :: rest, vals, j => do
    let (j, s) ← readTuples s fds (unpackGroupCount s vals fds src) j
    walkItems s rest (vals ++ [0]) j

/-- Steps 3 and 4: the length check and the walk (R166). -/
def unpackTyped (s : State) (d : Descriptor) : Except ErrKind (Nat × State) :=
  if lcheck s.cfg s.len s.mtype then walkItems s d [] 0 else .error .badLength

/-- Step 5, the exact-fit check, with zero padding tolerance (R167). -/
def unpackFinish (s : State) (j : Nat) : Except ErrKind State :=
  if s.off = s.lim then .ok { s with nv := BitVec.ofNat 10 j, tag := .typed } else .error .trailingBits

/-- The `try` part of UNPACK (R168); dispatch on the message type alone (R164). -/
def unpackRun (s : State) : Except ErrKind State := do
  let s ← unpackHeader s
  let s ← unpackCount s
  match descOf s.cfg s.mtype with
  | none => .ok (unpackOpaque s)
  | some d => do
    let (j, s) ← unpackTyped s d
    unpackFinish s j

/-- What a failed UNPACK leaves (R168, U1): no message, the data view made if `NW >= 2`; `OFF`, `LIM`, the header registers
and all of `V` are free values of their legal ranges (Log 7); everything else is kept. -/
def discardMessage (s : State) : State :=
  let free := Config.freeWord s.draws
  { s with
    tag := .noMessage, nv := 0,
    dw := if s.nw.toNat < 2 then s.dw else (stripWords s).dw,
    off := BitVec.ofNat 10 ((free .off).toNat % 793), lim := BitVec.ofNat 10 ((free .lim).toNat % 793),
    mtype := (free .mtype).setWidth 6, stid := (free .stid).setWidth 10, zcnt := (free .zcnt).setWidth 13,
    seq := (free .seq).setWidth 3, len := (free .len).setWidth 5, health := (free .health).setWidth 3,
    v := Memory.fill [] 0 744 (fun j => free (.v j)),
    draws := s.draws + 1 }

/-- UNPACK up to its response: the state it leaves, and the error it met if any (R168). -/
def unpackMessage (s : State) : State × Option ErrKind :=
  match unpackRun s with
  | .ok t => (t, none)
  | .error e => (discardMessage s, some e)

/-- `UNPACK` (R168). -/
def execUnpack (s : State) : Host.Outcome State Fault Refusal :=
  .next ((unpackMessage s).1.respond (errCode (unpackMessage s).2) 0)

end Sys2Proof.Machine
end

