-- ==== Sys2Proof/Machine/DecodeAdapter.lean ====
section
/-! DEFINITION. The Decode Adapter: spec/45_decode_adapter.md R200 to R202, command DECODE. -/

namespace Sys2Proof.Machine

/-- The message discarded by an early exit of DECODE: `TAG <- NONE ; NV <- 0` and nothing else (R200). -/
def noMessage (s : State) : State := { s with tag := .noMessage, nv := 0 }

/-- The message type in the true data of header word 0, `[15:10]` (R200, R84). -/
def headerType (w : RawWord) : BitVec 6 := (stripWord w).extractLsb' 10 6

/-- The declared word count in the true data of header word 1, `[7:3]` (R200, R84). -/
def headerCount (w : RawWord) : BitVec 5 := (stripWord w).extractLsb' 3 5

/-- `DECODE` up to its response: the state, the error if any, the status (R200, R201). -/
def decodeSequence (s : State) : State × Option ErrKind × Status :=
  if s.nw.toNat = 0 then (s, none, .incomplete)
  else if !pmatch s.cfg (s.rw.read 0) then (noMessage s, some .preambleMismatch, .resync)
  else if s.nw.toNat < 2 then (s, none, .incomplete)
  else
    let t := headerType (s.rw.read 0)
    let c := headerCount (s.rw.read 1)
    if (descOf s.cfg t).isSome && !lcheck s.cfg c t then (noMessage s, some .badLength, .invalid)
    else if s.nw.toNat < 2 + c.toNat then (s, none, .incomplete)
    else
      match unpackMessage s with
      | (u, none) => (u, none, .message)
      | (u, some e) => (u, some e, .invalid)

/-- `DECODE` (R200): DOUT carries the status on every outcome, ERR the reason. -/
def execDecode (s : State) : Host.Outcome State Fault Refusal :=
  .next ((decodeSequence s).1.respond (errCode (decodeSequence s).2.1) (statusCode (decodeSequence s).2.2))

end Sys2Proof.Machine
end

