-- ==== Sys2Proof/Machine/HostAccess.lean ====
section
/-! DEFINITION. Host access to the entries: spec/46_host_access.md R211 (RD) and R212 (WR). -/

namespace Sys2Proof.Machine

/-- `RD`: read one entry of one space (R211). -/
def execRd (space : BitVec 4) (idx : BitVec 10) (s : State) : Host.Outcome State Fault Refusal :=
  match entryAt space idx with
  | none => .next (s.raiseError .badCommand)
  | some e => .next (s.succeed (readEntry s e))

/-- `WR`: write one entry of one space; a value outside the legal range of the entry is refused whole (R212, R41). -/
def execWr (space : BitVec 4) (idx : BitVec 10) (data : Word) (s : State) : Host.Outcome State Fault Refusal :=
  match entryAt space idx with
  | none => .next (s.raiseError .badCommand)
  | some e =>
    if legalValue data e then .next ((writeEntry s e data).succeed 0)
    else .next (s.raiseError .badCommand)

end Sys2Proof.Machine
end

