-- ==== Sys2Proof/Machine/Parity.lean ====
section
/-! DEFINITION. The parity function PAR (spec/00_scope.md R8, spec/30_encoding.md R83). -/

namespace Sys2Proof.Machine

/-- `popcount(x) mod 2 = 1`, over the low `n` bits. -/
def oddBits (x : Word) : (n : Nat) → Bool
  | 0 => false
  | n + 1 => Bool.xor (oddBits x n) (x.getLsbD n)

/-- One parity bit: `popcount(x & mask) mod 2` (R83). -/
def parityBit (x mask : Word) : BitVec 1 := BitVec.ofBool (oddBits (x &&& mask) 32)

/-- The six bits `D25 D26 D27 D28 D29 D30`, most significant first, of `x = {p29, p30, d, 000000}` (R83). -/
def parityEquations (m : ParityMasks) (p29 p30 : BitVec 1) (d : DataWord) : ParityBits :=
  let x : Word := p29 ++ p30 ++ d ++ 0#6
  parityBit x m.d25 ++ parityBit x m.d26 ++ parityBit x m.d27 ++ parityBit x m.d28 ++ parityBit x m.d29 ++
    parityBit x m.d30

/-- `PAR(p29, p30, d)` (R8). -/
def parity (cfg : Config) (p29 p30 : BitVec 1) (d : DataWord) : ParityBits :=
  match cfg.par with
  | .equations m => parityEquations m p29 p30 d
  | .external id => Config.externalParity id p29 p30 d

end Sys2Proof.Machine
end

