-- ==== Sys2Proof/Machine/Repacker.lean ====
section
/-! DEFINITION. The Repacker: spec/44_repacker.md R180 to R188, commands SEAL and REPACK. -/

namespace Sys2Proof.Machine

/-- The container of a data word under two context bits `ctx = {p29, p30}` (R180, R80): the data complemented when
`p30 = 1`, the parity that of the true data. -/
def sealWord (cfg : Config) (ctx : BitVec 2) (d : DataWord) : RawWord :=
  let p29 : BitVec 1 := ctx.extractLsb' 1 1
  let p30 : BitVec 1 := ctx.extractLsb' 0 1
  let sent : DataWord := d ^^^ (if p30 = 1#1 then 0xFFFFFF#24 else 0x000000#24)
  p29 ++ p30 ++ sent ++ parity cfg p29 p30 d

/-- The two trailing bits `D29, D30` of a word: the context of the next one (R180). -/
def trailingBits (w : RawWord) : BitVec 2 := w.extractLsb' 0 2

/-- `seal(n)` on the arrays: word `i` under the context of word `i-1` as just produced, word 0 under `CTX0` (R180). -/
def sealedRw (cfg : Config) (ctx0 : BitVec 2) (dw : Memory 24) (rw : Memory 32) : (n : Nat) → Memory 32
  | 0 => rw
  | n + 1 =>
    let done := sealedRw cfg ctx0 dw rw n
    let ctx := if n = 0 then ctx0 else trailingBits (done.read (n - 1))
    done.write n (sealWord cfg ctx (dw.read n))

/-- `seal(n)` (R180). -/
def sealWords (s : State) (n : Nat) : State := { s with rw := sealedRw s.cfg s.ctx0 s.dw s.rw n }

/-- `SEAL` (R181). -/
def execSealRaw (s : State) : Host.Outcome State Fault Refusal := .next ((sealWords s s.nw.toNat).succeed 0)

/-- The signed value of `V[j]` (R35). -/
def payloadValue (s : State) (j : Nat) : Int := (s.v.read j).toInt

/-- The element count of a group in the layout pass (R182); `vals` holds the values of the items before it and `j` the
number of entries of `V` accounted for. -/
def layoutGroupCount (s : State) (d : Descriptor) (vals : List Int) (fds : List FieldDesc) (j : Nat) :
    CountSource → Except ErrKind Nat
  | .const n => .ok n
  | .field q =>
    let x := vals.getD q 0
    if x < 0 ∨ (2 : Int) ^ sourceWidth d q - 1 < x then .error .fieldOverflow else .ok x.toNat
  | .remaining =>
    if (s.nv.toNat - j) % fds.length ≠ 0 then .error .badLength else .ok ((s.nv.toNat - j) / fds.length)

/-- The layout pass over the items from position `vals.length` on: the payload bits the message needs (R182). -/
def layoutItems (s : State) (d : Descriptor) :
    (items : List Item) → (vals : List Int) → (j bits : Nat) → Except ErrKind Nat
  | [], _, j, bits => if j ≠ s.nv.toNat then .error .badLength else .ok bits
  | .field fd :: rest, vals, j, bits =>
    if s.nv.toNat ≤ j then .error .badLength
    else layoutItems s d rest (vals ++ [payloadValue s j]) (j + 1) (bits + fd.width)
  | .group src fds :: rest, vals, j, bits => do
    let k ← layoutGroupCount s d vals fds j src
    if s.nv.toNat < j + k * fds.length then .error .badLength
    else layoutItems s d rest (vals ++ [0]) (j + k * fds.length) (bits + k * elemBits fds)

/-- `layout(items)` (R182). -/
def layout (s : State) (d : Descriptor) : Except ErrKind Nat := layoutItems s d d [] 0 0

/-- `check_len(bits)` (R183). -/
def checkLen (s : State) (bits : Nat) : Except ErrKind Unit :=
  if bits ≠ 24 * s.len.toNat then .error .badLength else .ok ()

/-- Step 2, the header, built in a fresh sequence (R184). -/
def writeHeader (s : State) : Except ErrKind State := do
  let s := { s with nw := 0, off := 0 }
  let s ← curWrite s s.cfg.preamble.toNat 8 false
  let s ← curWrite s s.mtype.toNat 6 false
  let s ← curWrite s s.stid.toNat 10 false
  let s ← curWrite s s.zcnt.toNat 13 false
  let s ← curWrite s s.seq.toNat 3 false
  let s ← curWrite s s.len.toNat 5 false
  curWrite s s.health.toNat 3 false

/-- `write_field(fd, v)` (R185, R91): FieldOverflow for a value that is no multiple of the scale. -/
def writeField (s : State) (fd : FieldDesc) (x : Int) : Except ErrKind State :=
  if x % (fd.mul : Int) ≠ 0 then .error .fieldOverflow else curWrite s (x / (fd.mul : Int)) fd.width fd.signed

/-- Writes the fields of one tuple from `V[j], V[j+1], ..` (R185). -/
def writeTuple (s : State) : (fds : List FieldDesc) → (j : Nat) → Except ErrKind State
  | [], _ => .ok s
  | fd :: rest, j => do
    let s ← writeField s fd (payloadValue s j)
    writeTuple s rest (j + 1)

/-- Writes `k` tuples (R185). -/
def writeTuples (s : State) (fds : List FieldDesc) : (k j : Nat) → Except ErrKind State
  | 0, _ => .ok s
  | k + 1, j => do
    let s ← writeTuple s fds j
    writeTuples s fds k (j + fds.length)

/-- The element count of a group in the write pass (R185). -/
def writeGroupCount (s : State) (vals : List Int) (fds : List FieldDesc) (j : Nat) : CountSource → Nat
  | .const n => n
  | .field q => (vals.getD q 0).toNat
  | .remaining => (s.nv.toNat - j) / fds.length

/-- Step 3, the payload, from the item at position `vals.length` on (R185). -/
def writeItems (s : State) : (items : List Item) → (vals : List Int) → (j : Nat) → Except ErrKind State
  | [], _, _ => .ok s
  | .field fd :: rest, vals, j => do
    let x := payloadValue s j
    let s ← writeField s fd x
    writeItems s rest (vals ++ [x]) (j + 1)
  | .group src fds :: rest, vals, j => do
    let k := writeGroupCount s vals fds j src
    let s ← writeTuples s fds k j
    writeItems s rest (vals ++ [0]) (j + k * fds.length)

/-- The TYPED path of REPACK (R186). -/
def repackTyped (s : State) : Except ErrKind State :=
  match descOf s.cfg s.mtype with
  | none => .error .unsupportedType
  | some d => do
    let bits ← layout s d
    checkLen s bits
    let s ← writeHeader s
    let s ← writeItems s d [] 0
    .ok (sealWords s s.nw.toNat)

/-- The OPAQUE path of REPACK (R186): a fresh sealed header, then the preserved containers untouched. -/
def repackOpaque (s : State) : Except ErrKind State := do
  let s ← writeHeader s
  let s := sealWords s 2
  .ok { s with
    rw := s.rw.fill 2 s.len.toNat (fun i => s.opq.read i),
    dw := s.dw.fill 2 s.len.toNat (fun i => stripWord (s.opq.read i)),
    nw := BitVec.ofNat 6 (2 + s.len.toNat) }

/-- `OFF <- 24 * NW ; LIM <- 24 * NW` (R186). -/
def seekEnd (s : State) : State :=
  { s with off := BitVec.ofNat 10 (24 * s.nw.toNat), lim := BitVec.ofNat 10 (24 * s.nw.toNat) }

/-- The `try` part of REPACK, for `TAG` TYPED or OPAQUE (R186). -/
def repackRun (s : State) : Except ErrKind State := do
  let t ← (if s.tag = .typed then repackTyped s else repackOpaque s)
  .ok (seekEnd t)

/-- What a failed REPACK leaves (R186, U2): no output; every entry of `RW` and `DW`, `OFF` and `LIM` are free values of
their legal ranges (Log 8); everything else is kept. -/
def dropOutput (s : State) : State :=
  let free := Config.freeWord s.draws
  { s with
    nw := 0,
    off := BitVec.ofNat 10 ((free .off).toNat % 793), lim := BitVec.ofNat 10 ((free .lim).toNat % 793),
    rw := Memory.fill [] 0 33 (fun i => free (.rw i)),
    dw := Memory.fill [] 0 33 (fun i => (free (.dw i)).setWidth 24),
    draws := s.draws + 1 }

/-- `REPACK` (R186): with no message in the registers it is BadCommand and changes nothing. -/
def execRepack (s : State) : Host.Outcome State Fault Refusal :=
  match s.tag with
  | .noMessage => .next (s.raiseError .badCommand)
  | .typed | .opaqueRaw =>
    match repackRun s with
    | .ok t => .next (t.succeed 0)
    | .error e => .next ((dropOutput s).raiseError e)

end Sys2Proof.Machine
end

