-- ==== Sys2Proof/Machine/System.lean ====
section
/-! DEFINITION. The system commands: spec/46_host_access.md R210 (NOP) and R213 (RESET). -/

namespace Sys2Proof.Machine

/-- `NOP`: no effect (R210). -/
def execNop (s : State) : Host.Outcome State Fault Refusal := .next (s.succeed 0)

/-- `RESET`: every register and array entry to its reset value (R213, R44). -/
def execReset (s : State) : Host.Outcome State Fault Refusal := .next (s.clear.succeed 0)

end Sys2Proof.Machine
end

