-- ==== Sys2Proof/Machine/Dispatch.lean ====
section
/-! DEFINITION. One arm for each command of spec/30_encoding.md R97, calling its meaning. -/

namespace Sys2Proof.Machine

def exec (i : Instr) (s : State) : Host.Outcome State Fault Refusal :=
  match i with
  | .nop => Sys2Proof.Machine.execNop s
  | .rd space idx => Sys2Proof.Machine.execRd space idx s
  | .wr space idx data => Sys2Proof.Machine.execWr space idx data s
  | .cread sgn width => Sys2Proof.Machine.execCread sgn width s
  | .cwrite sgn width data => Sys2Proof.Machine.execCwrite sgn width data s
  | .pmatch widx => Sys2Proof.Machine.execPmatch widx s
  | .lcheck mtype count => Sys2Proof.Machine.execLcheck mtype count s
  | .strip => Sys2Proof.Machine.execStrip s
  | .unpack => Sys2Proof.Machine.execUnpack s
  | .sealRaw => Sys2Proof.Machine.execSealRaw s
  | .repack => Sys2Proof.Machine.execRepack s
  | .decode => Sys2Proof.Machine.execDecode s
  | .reset => Sys2Proof.Machine.execReset s

end Sys2Proof.Machine
end

