-- ==== Sys2Proof/WellFormed.lean ====
section
/-! DEFINITION. Which operands of a command are legal: parts (c), (d) and (e) of spec/30_encoding.md R98. Parts (a) and
(b), the opcode and the must-be-zero bits, are the decoder's. -/

namespace Sys2Proof

/-- Why the operands of a command are illegal. -/
inductive OperandFault where
  /-- Format A with `space > 4` (R98 c). -/
  | reservedSpace
  /-- Format A with `idx` past the end of the space (R98 c). -/
  | indexPastEnd
  /-- Format C with `width = 0` or `width > 24` (R98 d). -/
  | badWidth
  /-- Format W with `widx > 32` (R98 e). -/
  | badWordIndex
deriving DecidableEq, Repr

/-- How many entries the space with this code has (R60); none for the reserved codes 5 to 15. -/
def spaceEntries (space : BitVec 4) : Option Nat :=
  match space.toNat with
  | 0 => some 12
  | 1 => some 33
  | 2 => some 33
  | 3 => some 744
  | 4 => some 31
  | _ => none

/-- R98 (c). -/
def spaceFault (space : BitVec 4) (idx : BitVec 10) : Option OperandFault :=
  match spaceEntries space with
  | none => some .reservedSpace
  | some n => if idx.toNat < n then none else some .indexPastEnd

/-- R98 (d). -/
def widthFault (width : BitVec 5) : Option OperandFault :=
  if width.toNat = 0 ∨ 24 < width.toNat then some .badWidth else none

/-- The first illegal operand of a command, if any. -/
def Instr.operandFault : Instr → Option OperandFault
  | .nop => none
  | .rd space idx => spaceFault space idx
  | .wr space idx _ => spaceFault space idx
  | .cread _ width => widthFault width
  | .cwrite _ width _ => widthFault width
  | .pmatch widx => if 32 < widx.toNat then some .badWordIndex else none
  | .lcheck _ _ => none
  | .strip => none
  | .unpack => none
  | .sealRaw => none
  | .repack => none
  | .decode => none
  | .reset => none

/-- Every operand is in the range its format allows (R98 c, d, e). -/
def Instr.wellFormed (i : Instr) : Bool := i.operandFault.isNone

end Sys2Proof
end

