-- ==== Sys2Proof/Decode.lean ====
section
/-! DEFINITION. The decoder of spec/30_encoding.md R96 to R98 (a, b), total on every command word and rejecting by name,
and the encoder written from the same tables. The operand ranges of R98 (c, d, e) are `Instr.wellFormed`; the meanings
test them first, as the pseudocode of each command does. -/

namespace Sys2Proof

/-- Why a command word is no command in its format. -/
inductive DecodeError where
  /-- R98 (a): `CW[31:24]` is none of the thirteen opcodes. -/
  | unassignedOpcode
  /-- R98 (b): a must-be-zero bit is set. -/
  | mustBeZeroBitSet
deriving DecidableEq, Repr

/-- The field `x[lo+n-1 : lo]` of a command word (R10). -/
def cwField (cw : Word) (lo n : Nat) : BitVec n := cw.extractLsb' lo n

/-- Format N: `CW[23:0]` must be zero (R96). -/
def decodeN (cw : Word) (i : Instr) : Except DecodeError Instr :=
  if cwField cw 0 24 = 0#24 then .ok i else .error .mustBeZeroBitSet

/-- Format A: `CW[23:20]` space, `CW[19:10]` must be zero, `CW[9:0]` idx (R96). -/
def decodeA (cw : Word) (mk : BitVec 4 → BitVec 10 → Instr) : Except DecodeError Instr :=
  if cwField cw 10 10 = 0#10 then .ok (mk (cwField cw 20 4) (cwField cw 0 10))
  else .error .mustBeZeroBitSet

/-- Format C: `CW[23:9]` must be zero, `CW[8]` sgn, `CW[7:5]` must be zero, `CW[4:0]` width (R96). -/
def decodeC (cw : Word) (mk : Bool → BitVec 5 → Instr) : Except DecodeError Instr :=
  if cwField cw 9 15 = 0#15 ∧ cwField cw 5 3 = 0#3 then .ok (mk (cw.getLsbD 8) (cwField cw 0 5))
  else .error .mustBeZeroBitSet

/-- Format W: `CW[23:6]` must be zero, `CW[5:0]` widx (R96). -/
def decodeW (cw : Word) (mk : BitVec 6 → Instr) : Except DecodeError Instr :=
  if cwField cw 6 18 = 0#18 then .ok (mk (cwField cw 0 6)) else .error .mustBeZeroBitSet

/-- Format L: `CW[23:14]` must be zero, `CW[13:8]` mtype, `CW[7:5]` must be zero, `CW[4:0]` count (R96). -/
def decodeL (cw : Word) (mk : BitVec 6 → BitVec 5 → Instr) : Except DecodeError Instr :=
  if cwField cw 14 10 = 0#10 ∧ cwField cw 5 3 = 0#3 then .ok (mk (cwField cw 8 6) (cwField cw 0 5))
  else .error .mustBeZeroBitSet

/-- The command a pair of words stands for (R97); DATA is used by WR and CWRITE only (R95). -/
def decode (c : Command) : Except DecodeError Instr :=
  match (cwField c.cw 24 8).toNat with
  | 0x00 => decodeN c.cw .nop
  | 0x01 => decodeA c.cw .rd
  | 0x02 => decodeA c.cw (fun space idx => .wr space idx c.data)
  | 0x10 => decodeC c.cw .cread
  | 0x11 => decodeC c.cw (fun sgn width => .cwrite sgn width c.data)
  | 0x20 => decodeW c.cw .pmatch
  | 0x21 => decodeL c.cw .lcheck
  | 0x30 => decodeN c.cw .strip
  | 0x31 => decodeN c.cw .unpack
  | 0x38 => decodeN c.cw .sealRaw
  | 0x39 => decodeN c.cw .repack
  | 0x40 => decodeN c.cw .decode
  | 0xFF => decodeN c.cw .reset
  | _ => .error .unassignedOpcode

/-- Format N, laid out (R96). -/
def encodeN (op : BitVec 8) : Word := op ++ 0#24

/-- Format A, laid out (R96). -/
def encodeA (op : BitVec 8) (space : BitVec 4) (idx : BitVec 10) : Word := op ++ space ++ 0#10 ++ idx

/-- Format C, laid out (R96). -/
def encodeC (op : BitVec 8) (sgn : Bool) (width : BitVec 5) : Word :=
  op ++ 0#15 ++ BitVec.ofBool sgn ++ 0#3 ++ width

/-- Format W, laid out (R96). -/
def encodeW (op : BitVec 8) (widx : BitVec 6) : Word := op ++ 0#18 ++ widx

/-- Format L, laid out (R96). -/
def encodeL (op : BitVec 8) (mtype : BitVec 6) (count : BitVec 5) : Word :=
  op ++ 0#10 ++ mtype ++ 0#3 ++ count

/-- The two words of a command (R96, R97, R100); DATA is zero where the command does not use it. -/
def encode : Instr → Command
  | .nop => ⟨encodeN 0x00, 0⟩
  | .rd space idx => ⟨encodeA 0x01 space idx, 0⟩
  | .wr space idx data => ⟨encodeA 0x02 space idx, data⟩
  | .cread sgn width => ⟨encodeC 0x10 sgn width, 0⟩
  | .cwrite sgn width data => ⟨encodeC 0x11 sgn width, data⟩
  | .pmatch widx => ⟨encodeW 0x20 widx, 0⟩
  | .lcheck mtype count => ⟨encodeL 0x21 mtype count, 0⟩
  | .strip => ⟨encodeN 0x30, 0⟩
  | .unpack => ⟨encodeN 0x31, 0⟩
  | .sealRaw => ⟨encodeN 0x38, 0⟩
  | .repack => ⟨encodeN 0x39, 0⟩
  | .decode => ⟨encodeN 0x40, 0⟩
  | .reset => ⟨encodeN 0xFF, 0⟩

/-- The command whose bits are the low `nbits` bits of `w`: CW is bits 31..0, DATA bits 63..32, and every bit from
`nbits` on is zero. -/
def commandOfBits (nbits w : Nat) : Command :=
  { cw := BitVec.ofNat 32 (w % 2 ^ nbits), data := BitVec.ofNat 32 (w % 2 ^ nbits / 2 ^ 32) }

/-- What the decoder reads from an instruction whose bits are `w`, numbered as spec/opcode_table.json numbers them. -/
def decodeTableWord (nbits w : Nat) : Option Instr :=
  match decode (commandOfBits nbits w) with
  | .ok i => some i
  | .error _ => none

end Sys2Proof
end

