-- ==== Sys2Proof/Machine/Port.lean ====
section
/-! DEFINITION. The command port (spec/30_encoding.md R95): taking the next command, and refusing an illegal command
word (R98). -/

namespace Sys2Proof.Machine

/-- The next pending command, decoded; none when the host has issued nothing. -/
def nextCommand (s : State) : Option (Except DecodeError Instr) :=
  match s.cmds with
  | [] => none
  | c :: _ => some (decode c)

/-- What an illegal command word does (R98, R227): no state change, response `(BadCommand, 0)`. -/
def refuseCommand (s : State) : State := s.raiseError .badCommand

/-- The port with one more command in front of those the host has issued: the very next one to run. -/
def issueFirst (s : State) (c : Command) : State := { s with cmds := c :: s.cmds }

end Sys2Proof.Machine
end

