-- ==== Sys2Proof/Machine/Step.lean ====
section
/-! DEFINITION. The step (spec/00_scope.md R5): one command taken from the port, run to completion, one response. -/

namespace Sys2Proof.Machine

/-- One step. With no command pending the block is idle and keeps all state (spec/60_exceptions.md R234). -/
def step (s : State) : Host.Outcome State Fault Refusal :=
  match nextCommand s with
  | none => .next s
  | some (.ok i) => exec i s.dropCommand
  | some (.error _) => .next (refuseCommand s.dropCommand)

/-- `s` with the command whose bits are the low `nbits` bits of `w` issued at the port, before any other (Log 1). -/
def State.withFetchWord (s : State) (nbits w : Nat) : State := issueFirst s (commandOfBits nbits w)

end Sys2Proof.Machine
end

