-- ==== Sys2Proof/Machine/Payload.lean ====
section
/-! DEFINITION. The payload of a message laid out flat, as spec/30_encoding.md R90 to R92 and spec/10_state.md R42, R43 say
it. No meaning uses these: claims say with them what UNPACK and REPACK must do, apart from how their walks do it. -/

namespace Sys2Proof.Machine

/-- The fields of a payload in order, given the element count of each group in descriptor order (R92). -/
def expandItems : List Item → (counts : List Nat) → List FieldDesc
  | [], _ => []
  | .field fd :: rest, ks => fd :: expandItems rest ks
  | .group _ fds :: rest, k :: ks => (List.replicate k fds).flatten ++ expandItems rest ks
  | .group _ _ :: rest, [] => expandItems rest []

/-- Which entry of `V` the scalar item at position `q` is (R92). -/
def entryOfItem (d : Descriptor) (counts : List Nat) (q : Nat) : Nat := (expandItems (d.take q) counts).length

/-- One count for each group, and each the one its source says, where entry `j` of the payload has the value `val j`
(R92): the constant, the value of the source field, or any count for a `Remaining` group. -/
def countsAgree (d : Descriptor) (counts : List Nat) (val : Nat → Int) : List Item → List Nat → Bool
  | [], ks => ks.isEmpty
  | .field _ :: rest, ks => countsAgree d counts val rest ks
  | .group _ _ :: _, [] => false
  | .group src _ :: rest, k :: ks =>
    (match src with
     | .const n => k == n
     | .field q => (k : Int) == val (entryOfItem d counts q)
     | .remaining => true) && countsAgree d counts val rest ks

/-- Counts a length check may try (R150): one for each group, a constant group's its constant, a `Field` group's at most
what its source field can hold. -/
def admissibleCounts (d : Descriptor) : List Item → List Nat → Prop
  | [], ks => ks = []
  | .field _ :: rest, ks => admissibleCounts d rest ks
  | .group _ _ :: _, [] => False
  | .group src _ :: rest, k :: ks =>
    (match src with
     | .const n => k = n
     | .field q => k ≤ 2 ^ sourceWidth d q - 1
     | .remaining => True) ∧ admissibleCounts d rest ks

/-- A `Remaining` group has the count R166 gives it on unpack: what the items before it leave of the payload's `left` bits,
in whole elements. -/
def remainingFills : List Item → (counts : List Nat) → (left : Nat) → Bool
  | [], _, _ => true
  | .field fd :: rest, ks, left => remainingFills rest ks (left - fd.width)
  | .group _ _ :: _, [], _ => false
  | .group src fds :: rest, k :: ks, left =>
    (match src with
     | .const _ => true
     | .field _ => true
     | .remaining => k == left / elemBits fds) && remainingFills rest ks (left - k * elemBits fds)

/-- The bit offset of field `j` of a payload (R92): the payload begins at offset 48. -/
def fieldOffset (fds : List FieldDesc) (j : Nat) : Nat := 48 + elemBits (fds.take j)

/-- The value of field `fd` at bit address `o` (R90). -/
def fieldValue (dw : Memory 24) (fd : FieldDesc) (o : Nat) : Int :=
  patternValue fd.width fd.signed (memRead dw o fd.width) * (fd.mul : Int)

/-- A value a field can hold: a multiple of the scale whose quotient is in range (R91). -/
def representable (fd : FieldDesc) (x : Int) : Bool :=
  x % (fd.mul : Int) == 0 && fitsField fd.width fd.signed (x / (fd.mul : Int))

/-- The data words `dw` carry the payload `fds` with the values `val` (R90, R92). -/
def carries (dw : Memory 24) (fds : List FieldDesc) (val : Nat → Int) : Bool :=
  (List.range fds.length).all fun j =>
    match fds[j]? with
    | some fd => val j == fieldValue dw fd (fieldOffset fds j)
    | none => true

end Sys2Proof.Machine
end

