-- ==== Sys2Proof/Safety.lean ====
section
/-! DEFINITION. What a legal state is (spec/10_state.md R20, R41; spec/30_encoding.md R89): every register in its legal
range, every array in its canonical form, the configuration well-formed. Claims about runs use it as their invariant. -/

namespace Sys2Proof.Machine

/-- Every register holds a value of its legal range (R41). The other registers of R20 are exactly as wide as their
ranges, and `Tag` has no code 3. -/
abbrev State.registersLegal (s : State) : Prop :=
  s.nw.toNat ≤ 33 ∧ s.off.toNat ≤ 792 ∧ s.lim.toNat ≤ 792 ∧ s.nv.toNat ≤ 744

/-- Every array is in its canonical form, within the size of R60. -/
abbrev State.arraysLegal (s : State) : Prop :=
  Memory.wf 33 s.rw ∧ Memory.wf 33 s.dw ∧ Memory.wf 744 s.v ∧ Memory.wf 31 s.opq

/-- A legal state: what every reachable state is. -/
abbrev State.legal (s : State) : Prop :=
  s.registersLegal ∧ s.arraysLegal ∧ configWellFormed s.cfg = true

end Sys2Proof.Machine
end

