-- ==== Sys2Proof/Certificates/Slice0/Obligations.lean ====
section
/-! DEFINITION. The statements for the provers, after the numbered rules of spec/. A response is written `⟨ERR, DOUT⟩`. Where
a statement gives the next state as `{ s with … }`, every field it does not name is the frame: unchanged. -/

open Sys2Proof Sys2Proof.Machine

/-! ## Helpers of the statements -/

namespace Sys2Proof.Claims

/-- R98, said on the bits with the masks of spec/opcode_table.json: the command words that are one of the thirteen
commands in a legal form. -/
def legalWord (cw : Word) : Prop :=
  let space := (cw >>> 20).toNat % 16
  let idx := cw.toNat % 1024
  cw ∈ [0x00000000#32, 0x30000000#32, 0x31000000#32, 0x38000000#32, 0x39000000#32, 0x40000000#32, 0xFF000000#32] ∨
  ((cw &&& 0xFF0FFC00#32 = 0x01000000#32 ∨ cw &&& 0xFF0FFC00#32 = 0x02000000#32) ∧
    (space = 0 ∧ idx < 12 ∨ space = 1 ∧ idx < 33 ∨ space = 2 ∧ idx < 33 ∨ space = 3 ∧ idx < 744 ∨
      space = 4 ∧ idx < 31)) ∨
  ((cw &&& 0xFFFFFEE0#32 = 0x10000000#32 ∨ cw &&& 0xFFFFFEE0#32 = 0x11000000#32) ∧
    1 ≤ cw.toNat % 32 ∧ cw.toNat % 32 ≤ 24) ∨
  (cw &&& 0xFFFFFFC0#32 = 0x20000000#32 ∧ cw.toNat % 64 ≤ 32) ∨
  cw &&& 0xFFFFC0E0#32 = 0x21000000#32

/-- The true data of a container, R82 written out: the 24 data bits, complemented when bit 30 is set. -/
def trueData (w : RawWord) : DataWord := if w.getLsbD 30 then ~~~(w.extractLsb' 6 24) else w.extractLsb' 6 24

/-- The RW array obeys `seal` on words `0 .. n-1` (R180): context bits chained from `ctx0`, data complemented under
`p30 = 1`, parity that of the true data `dw`. -/
def sealedFrom (cfg : Config) (ctx0 : BitVec 2) (dw : Memory 24) (rw : Memory 32) (n : Nat) : Prop :=
  ∀ i, i < n →
    (rw.read i).extractLsb' 30 2 = (if i = 0 then ctx0 else (rw.read (i - 1)).extractLsb' 0 2) ∧
    trueData (rw.read i) = dw.read i ∧
    (rw.read i).extractLsb' 0 6 =
      parity cfg ((rw.read i).extractLsb' 31 1) ((rw.read i).extractLsb' 30 1) (dw.read i)

/-- The six header registers of two states agree. -/
def sameHeader (s t : State) : Prop :=
  s.mtype = t.mtype ∧ s.stid = t.stid ∧ s.zcnt = t.zcnt ∧ s.seq = t.seq ∧ s.len = t.len ∧ s.health = t.health

/-- The header registers are the slices of the true header words R84 lists. -/
def headerOf (s : State) (w0 w1 : DataWord) : Prop :=
  s.mtype = w0.extractLsb' 10 6 ∧ s.stid = w0.extractLsb' 0 10 ∧ s.zcnt = w1.extractLsb' 11 13 ∧
    s.seq = w1.extractLsb' 8 3 ∧ s.len = w1.extractLsb' 3 5 ∧ s.health = w1.extractLsb' 0 3

/-- The message registers hold the same message (R42). -/
def sameMessage (s t : State) : Prop :=
  s.tag = t.tag ∧ sameHeader s t ∧
    (s.tag = .typed → s.nv = t.nv ∧ ∀ j, j < s.nv.toNat → s.v.read j = t.v.read j) ∧
    (s.tag = .opaqueRaw → ∀ i, i < s.len.toNat → s.opq.read i = t.opq.read i)

/-- The word count the header of the raw sequence declares, in the true data of word 1 (R84). -/
def declaredCount (s : State) : Nat := ((trueData (s.rw.read 1)).extractLsb' 3 5).toNat

/-- The message type the header of the raw sequence gives, in the true data of word 0 (R84). -/
def declaredType (s : State) : BitVec 6 := (trueData (s.rw.read 0)).extractLsb' 10 6

/-- What the walk of UNPACK (R166) finds in the raw sequence for the descriptor `d`: data words `dw` that are its true data,
the element counts `ks` of the groups and the field values `val`. The counts agree with the values, the data words carry the
values, and a `Remaining` group takes what is left of the declared words. -/
def walkFinds (s : State) (d : Descriptor) (ks : List Nat) (val : Nat → Int) (dw : Memory 24) : Prop :=
  (∀ i, i < s.nw.toNat → dw.read i = trueData (s.rw.read i)) ∧ countsAgree d ks val d ks = true ∧
    carries dw (expandItems d ks) val = true ∧ remainingFills d ks (24 * declaredCount s) = true

/-- The first items `pre` of the descriptor of a TYPED message, none a `Remaining` group, have the counts `ks` on repack
(R182): each agrees with the values in `V` and is one its source can hold. -/
def layoutReaches (s : State) (d : Descriptor) (pre : List Item) (ks : List Nat) : Prop :=
  (∀ fds, Item.group .remaining fds ∉ pre) ∧ countsAgree d ks (payloadValue s) pre ks = true ∧ admissibleCounts d pre ks

/-- Only scalars and groups of constant count. -/
def fixedLayout (d : Descriptor) : Prop := ∀ it ∈ d, ∀ src fds, it = Item.group src fds → ∃ n, src = CountSource.const n

end Sys2Proof.Claims

open Sys2Proof.Claims

/-! ## Encoding -/

/-- R96, R97: what the encoder lays out for a command, the decoder reads back, every operand at every value. -/
def Obligations.DecodeOfEncode : Prop := ∀ i : Instr, decode (encode i) = .ok i

/-- R96, R97: every command word the decoder accepts is the encoder's word for the command it gives, and DATA is kept where
the command uses it. -/
def Obligations.EncodeOfDecode : Prop :=
  ∀ (c : Command) (i : Instr), decode c = .ok i →
    (encode i).cw = c.cw ∧
      ((∃ space idx data, i = .wr space idx data) ∨ (∃ sgn width data, i = .cwrite sgn width data) →
        (encode i).data = c.data)

/-- R98: the legal command words are exactly those whose decoding is a command with legal operands. -/
def Obligations.LegalWordsDecodeWellFormed : Prop :=
  ∀ c : Command, legalWord c.cw ↔ ∃ i, decode c = .ok i ∧ i.wellFormed = true

/-- R98: an illegal command word changes no state and answers `(BadCommand, 0)`. -/
def Obligations.IllegalWordRefused : Prop :=
  ∀ (s : State) (c : Command) (rest : List Command), s.cmds = c :: rest → ¬ legalWord c.cw →
    step s = .next { s with cmds := rest, resps := s.resps ++ [⟨7#4, 0#32⟩] }

/-- A few words written out from R96, R97 and the examples of the command rules. -/
def Obligations.SampleWordsDecode : Prop :=
  decode ⟨0x02100002#32, 0xEE2BEB18#32⟩ = .ok (.wr 1#4 2#10 0xEE2BEB18#32) ∧
  decode ⟨0x10000108#32, 0#32⟩ = .ok (.cread true 8#5) ∧
  decode ⟨0x11000108#32, 0xFFFFFF80#32⟩ = .ok (.cwrite true 8#5 0xFFFFFF80#32) ∧
  decode ⟨0x21001001#32, 0#32⟩ = .ok (.lcheck 16#6 1#5) ∧
  decode ⟨0x20000020#32, 0#32⟩ = .ok (.pmatch 32#6) ∧
  decode ⟨0x39000000#32, 5#32⟩ = .ok .repack

/-! ## The step -/

/-- R5: with a command pending that decodes, the step takes it off the port and is its meaning. -/
def Obligations.StepRunsDecodedCommand : Prop :=
  ∀ (s : State) (c : Command) (rest : List Command) (i : Instr), s.cmds = c :: rest → decode c = .ok i →
    step s = exec i { s with cmds := rest }

/-- R234: between commands the block is idle and keeps all state. -/
def Obligations.IdleKeepsAllState : Prop := ∀ s : State, s.cmds = [] → step s = .next s

/-- R95, R254: every command terminates, with exactly one response, and the configuration is not touched (R251). -/
def Obligations.EveryCommandAnsweredOnce : Prop :=
  ∀ (s : State) (c : Command) (rest : List Command), s.cmds = c :: rest →
    ∃ t r, step s = .next t ∧ t.cmds = rest ∧ t.resps = s.resps ++ [r] ∧ r.err.toNat ≤ 7 ∧ t.cfg = s.cfg

/-! ## Invariant -/

/-- What the spec derives itself (R41, "[derived: from the rules of each command]"): a step from a legal state leads to
a legal state: every register in its legal range, every array canonical and within its size, the configuration
well-formed. -/
def Obligations.StepKeepsLegal : Prop := ∀ s t : State, s.legal → step s = .next t → t.legal

/-- The reset state is legal (R41, R44; the default configuration is the model's choice, Logs 3 to 5). -/
def Obligations.ResetStateLegal : Prop := State.reset.legal

/-- R44, R213: after power-on reset, and after RESET from any state, every register and every array entry is zero; RESET
answers OK and leaves the configuration. -/
def Obligations.ResetZeroesEverything : Prop :=
  (∀ x, decode ⟨0xFF000000#32, x⟩ = .ok .reset) ∧
  (∀ s : State, ∃ t, exec .reset s = .next t ∧
    t = { State.reset with cfg := s.cfg, cmds := s.cmds, draws := s.draws, resps := s.resps ++ [⟨0#4, 0#32⟩] }) ∧
  State.reset.nw = 0 ∧ State.reset.off = 0 ∧ State.reset.lim = 0 ∧ State.reset.ctx0 = 0 ∧
  State.reset.tag = .noMessage ∧ State.reset.mtype = 0 ∧ State.reset.stid = 0 ∧ State.reset.zcnt = 0 ∧
  State.reset.seq = 0 ∧ State.reset.len = 0 ∧ State.reset.health = 0 ∧ State.reset.nv = 0 ∧
  (∀ a, State.reset.rw.read a = 0) ∧ (∀ a, State.reset.dw.read a = 0) ∧ (∀ a, State.reset.v.read a = 0) ∧
  (∀ a, State.reset.opq.read a = 0)

/-! ## System commands and host access -/

/-- R210: NOP, the command word `0x00000000`, answers `(OK, 0)` and changes nothing. -/
def Obligations.NopChangesNothing : Prop :=
  (∀ x, decode ⟨0x00000000#32, x⟩ = .ok .nop) ∧
  ∀ s : State, exec .nop s = .next { s with resps := s.resps ++ [⟨0#4, 0#32⟩] }

/-- R211: RD answers with the entry, zero-extended, whatever the counts are, and changes nothing; BadCommand for a bad
space or index. -/
def Obligations.RdReadsEntry : Prop :=
  ∀ (s : State) (idx : BitVec 10),
    exec (.rd 0 idx) s = .next { s with resps := s.resps ++
      [match ([s.nw.setWidth 32, s.off.setWidth 32, s.lim.setWidth 32, s.ctx0.setWidth 32,
          (match s.tag with | .noMessage => 0#32 | .typed => 1#32 | .opaqueRaw => 2#32),
          s.mtype.setWidth 32, s.stid.setWidth 32, s.zcnt.setWidth 32, s.seq.setWidth 32, s.len.setWidth 32,
          s.health.setWidth 32, s.nv.setWidth 32] : List Word)[idx.toNat]? with
        | some x => ⟨0#4, x⟩
        | none => ⟨7#4, 0#32⟩] } ∧
    exec (.rd 1 idx) s = .next { s with resps := s.resps ++
      [if idx.toNat < 33 then ⟨0#4, s.rw.read idx.toNat⟩ else ⟨7#4, 0#32⟩] } ∧
    exec (.rd 2 idx) s = .next { s with resps := s.resps ++
      [if idx.toNat < 33 then ⟨0#4, (s.dw.read idx.toNat).setWidth 32⟩ else ⟨7#4, 0#32⟩] } ∧
    exec (.rd 3 idx) s = .next { s with resps := s.resps ++
      [if idx.toNat < 744 then ⟨0#4, s.v.read idx.toNat⟩ else ⟨7#4, 0#32⟩] } ∧
    exec (.rd 4 idx) s = .next { s with resps := s.resps ++
      [if idx.toNat < 31 then ⟨0#4, s.opq.read idx.toNat⟩ else ⟨7#4, 0#32⟩] } ∧
    ∀ space : BitVec 4, 4 < space.toNat →
      exec (.rd space idx) s = .next { s with resps := s.resps ++ [⟨7#4, 0#32⟩] }

/-- R212, the arrays: WR writes the one entry and nothing else, or answers BadCommand and changes nothing: a bad space or
index, a value of more than 24 bits for DW. -/
def Obligations.WrWritesArrayEntry : Prop :=
  ∀ (s : State) (idx : BitVec 10) (data : Word),
    (∃ m : Memory 32, (∀ a, m.read a = if a = idx.toNat then data else s.rw.read a) ∧
      exec (.wr 1 idx data) s = .next (if idx.toNat < 33
        then { s with rw := m, resps := s.resps ++ [⟨0#4, 0#32⟩] }
        else { s with resps := s.resps ++ [⟨7#4, 0#32⟩] })) ∧
    (∃ m : Memory 24, (∀ a, m.read a = if a = idx.toNat then data.setWidth 24 else s.dw.read a) ∧
      exec (.wr 2 idx data) s = .next (if idx.toNat < 33 ∧ data.toNat < 2 ^ 24
        then { s with dw := m, resps := s.resps ++ [⟨0#4, 0#32⟩] }
        else { s with resps := s.resps ++ [⟨7#4, 0#32⟩] })) ∧
    (∃ m : Memory 32, (∀ a, m.read a = if a = idx.toNat then data else s.v.read a) ∧
      exec (.wr 3 idx data) s = .next (if idx.toNat < 744
        then { s with v := m, resps := s.resps ++ [⟨0#4, 0#32⟩] }
        else { s with resps := s.resps ++ [⟨7#4, 0#32⟩] })) ∧
    (∃ m : Memory 32, (∀ a, m.read a = if a = idx.toNat then data else s.opq.read a) ∧
      exec (.wr 4 idx data) s = .next (if idx.toNat < 31
        then { s with opq := m, resps := s.resps ++ [⟨0#4, 0#32⟩] }
        else { s with resps := s.resps ++ [⟨7#4, 0#32⟩] })) ∧
    ∀ space : BitVec 4, 4 < space.toNat →
      exec (.wr space idx data) s = .next { s with resps := s.resps ++ [⟨7#4, 0#32⟩] }

/-- R212, the registers: WR writes the one register a legal value and nothing else; a value above the register's maximum,
or an index past 11, is BadCommand and changes nothing. -/
def Obligations.WrWritesRegister : Prop :=
  ∀ (s : State) (x : Word),
    let ok (t : State) : State := { t with resps := s.resps ++ [⟨0#4, 0#32⟩] }
    let bad : State := { s with resps := s.resps ++ [⟨7#4, 0#32⟩] }
    exec (.wr 0 0 x) s = .next (if x.toNat ≤ 33 then ok { s with nw := x.setWidth 6 } else bad) ∧
    exec (.wr 0 1 x) s = .next (if x.toNat ≤ 792 then ok { s with off := x.setWidth 10 } else bad) ∧
    exec (.wr 0 2 x) s = .next (if x.toNat ≤ 792 then ok { s with lim := x.setWidth 10 } else bad) ∧
    exec (.wr 0 3 x) s = .next (if x.toNat ≤ 3 then ok { s with ctx0 := x.setWidth 2 } else bad) ∧
    exec (.wr 0 4 x) s = .next (if x = 0 then ok { s with tag := .noMessage }
      else if x = 1 then ok { s with tag := .typed } else if x = 2 then ok { s with tag := .opaqueRaw } else bad) ∧
    exec (.wr 0 5 x) s = .next (if x.toNat ≤ 63 then ok { s with mtype := x.setWidth 6 } else bad) ∧
    exec (.wr 0 6 x) s = .next (if x.toNat ≤ 1023 then ok { s with stid := x.setWidth 10 } else bad) ∧
    exec (.wr 0 7 x) s = .next (if x.toNat ≤ 8191 then ok { s with zcnt := x.setWidth 13 } else bad) ∧
    exec (.wr 0 8 x) s = .next (if x.toNat ≤ 7 then ok { s with seq := x.setWidth 3 } else bad) ∧
    exec (.wr 0 9 x) s = .next (if x.toNat ≤ 31 then ok { s with len := x.setWidth 5 } else bad) ∧
    exec (.wr 0 10 x) s = .next (if x.toNat ≤ 7 then ok { s with health := x.setWidth 3 } else bad) ∧
    exec (.wr 0 11 x) s = .next (if x.toNat ≤ 744 then ok { s with nv := x.setWidth 10 } else bad) ∧
    ∀ idx : BitVec 10, 12 ≤ idx.toNat → exec (.wr 0 idx x) s = .next bad

/-! ## Bit Cursor -/

/-- R63, R64 (R64 derives its last sentence itself, "[derived: from rule R63]"): MemWrite sets the bits of its field,
the value's most significant first, changes no other bit, and MemRead right after it gives the value back; MemRead gives
the bits of the field, the first most significant. -/
def Obligations.MemWriteThenMemRead : Prop :=
  ∀ (dw : Memory 24) (o n u : Nat), 1 ≤ n → n ≤ 24 → o + n ≤ 792 → u < 2 ^ n →
    (∀ a, bitAt (memWrite dw o n u) a = if o ≤ a ∧ a < o + n then u.testBit (n - 1 - (a - o)) else bitAt dw a) ∧
    memRead (memWrite dw o n u) o n = u ∧
    memRead dw o n = (List.range n).foldl (fun x k => 2 * x + (bitAt dw (o + k)).toNat) 0

/-- R122: CREAD answers with the next `width` bits of DW, the first most significant, zero- or sign-extended to 32 bits, and
advances OFF; past the budget it is Truncated, for an illegal width BadCommand, and nothing changes. -/
def Obligations.CreadReadsField : Prop :=
  (∀ sgn width x, decode ⟨0x10#8 ++ 0#15 ++ BitVec.ofBool sgn ++ 0#3 ++ width, x⟩ = .ok (.cread sgn width)) ∧
  ∀ (s : State) (sgn : Bool) (width : BitVec 5),
    let w := width.toNat
    if w = 0 ∨ 24 < w then
      exec (.cread sgn width) s = .next { s with resps := s.resps ++ [⟨7#4, 0#32⟩] }
    else if s.lim.toNat < s.off.toNat + w then
      exec (.cread sgn width) s = .next { s with resps := s.resps ++ [⟨1#4, 0#32⟩] }
    else ∃ x : Word,
      exec (.cread sgn width) s = .next { s with off := s.off + width.setWidth 10, resps := s.resps ++ [⟨0#4, x⟩] } ∧
      ∀ k, k < 32 → x.getLsbD k =
        if k < w then (s.dw.read ((s.off.toNat + (w - 1 - k)) / 24)).getLsbD (23 - (s.off.toNat + (w - 1 - k)) % 24)
        else sgn && (s.dw.read (s.off.toNat / 24)).getLsbD (23 - s.off.toNat % 24)

/-- R123: CWRITE writes DATA as the next field, allocating zeroed words beyond NW, and advances OFF; the errors in their
order are BadCommand (illegal width), FieldOverflow (DATA out of range of the field), Truncated (the field would end beyond
bit 791), and on each nothing changes. -/
def Obligations.CwriteWritesField : Prop :=
  (∀ sgn width x, decode ⟨0x11#8 ++ 0#15 ++ BitVec.ofBool sgn ++ 0#3 ++ width, x⟩ = .ok (.cwrite sgn width x)) ∧
  ∀ (s : State) (sgn : Bool) (width : BitVec 5) (data : Word),
    let w := width.toNat
    let fits : Prop := if sgn then ∀ k, w - 1 ≤ k → k < 32 → data.getLsbD k = data.getLsbD (w - 1)
      else ∀ k, w ≤ k → k < 32 → data.getLsbD k = false
    let need := (s.off.toNat + w + 23) / 24
    (w = 0 ∨ 24 < w → exec (.cwrite sgn width data) s = .next { s with resps := s.resps ++ [⟨7#4, 0#32⟩] }) ∧
    (1 ≤ w → w ≤ 24 → ¬ fits → exec (.cwrite sgn width data) s = .next { s with resps := s.resps ++ [⟨2#4, 0#32⟩] }) ∧
    (1 ≤ w → w ≤ 24 → fits → 792 < s.off.toNat + w →
      exec (.cwrite sgn width data) s = .next { s with resps := s.resps ++ [⟨1#4, 0#32⟩] }) ∧
    (1 ≤ w → w ≤ 24 → fits → s.off.toNat + w ≤ 792 → ∃ dw : Memory 24,
      exec (.cwrite sgn width data) s = .next { s with
        dw := dw, nw := BitVec.ofNat 6 (max s.nw.toNat need), off := BitVec.ofNat 10 (s.off.toNat + w),
        resps := s.resps ++ [⟨0#4, 0#32⟩] } ∧
      ∀ a, bitAt dw a =
        if s.off.toNat ≤ a ∧ a < s.off.toNat + w then data.getLsbD (w - 1 - (a - s.off.toNat))
        else if s.nw.toNat ≤ a / 24 ∧ a / 24 < need then false
        else bitAt s.dw a)

/-- An inverse the spec derives itself (40_bit_cursor.md section 3, R124, "[derived: from rules R120 and R121 ...]"): a read
at the place of a write gives the value written; a write of the value read, at the same place and within
the sequence, changes nothing but OFF. -/
def Obligations.CursorWriteReadInverse : Prop :=
  ∀ (s t : State) (w : Nat) (sgn : Bool) (x : Int), s.legal → 1 ≤ w → w ≤ 24 →
    (curWrite s x w sgn = .ok t → ∀ lim : BitVec 10, s.off.toNat + w ≤ lim.toNat →
      curRead { t with off := s.off, lim := lim } w sgn =
        .ok (x, { t with lim := lim, off := BitVec.ofNat 10 (s.off.toNat + w) })) ∧
    (curRead s w sgn = .ok (x, t) → s.off.toNat + w ≤ 24 * s.nw.toNat →
      curWrite { t with off := s.off } x w sgn = .ok t)

/-! ## Preamble Validator, Length Validator -/

/-- R140, R141: PMATCH answers 1 exactly when bits 29..22 of the entry are the preamble, or its complement under the
inverted flag (bit 30); whatever NW is; an index above 32 is BadCommand; nothing changes. -/
def Obligations.PmatchComparesEitherPolarity : Prop :=
  (∀ widx x, decode ⟨0x20#8 ++ 0#18 ++ widx, x⟩ = .ok (.pmatch widx)) ∧
  ∀ (s : State) (widx : BitVec 6),
    let w := s.rw.read widx.toNat
    exec (.pmatch widx) s = .next { s with resps := s.resps ++
      [if 32 < widx.toNat then ⟨7#4, 0#32⟩
       else if w.extractLsb' 22 8 = (if w.getLsbD 30 then ~~~s.cfg.preamble else s.cfg.preamble) then ⟨0#4, 1#32⟩
       else ⟨0#4, 0#32⟩] }

/-- R150, R151: LCHECK answers 1 exactly when the type has no descriptor or some admissible counts of its groups make the
payload fill the declared words; nothing changes. -/
def Obligations.LcheckSearchesCounts : Prop :=
  (∀ mtype count x, decode ⟨0x21#8 ++ 0#10 ++ mtype ++ 0#3 ++ count, x⟩ = .ok (.lcheck mtype count)) ∧
  ∀ (s : State) (mtype : BitVec 6) (count : BitVec 5), ∃ b : Bool,
    exec (.lcheck mtype count) s = .next { s with resps := s.resps ++ [⟨0#4, if b then 1#32 else 0#32⟩] } ∧
    (b = true ↔ descOf s.cfg mtype = none ∨ ∃ d ks, descOf s.cfg mtype = some d ∧ admissibleCounts d d ks ∧
      elemBits (expandItems d ks) = 24 * count.toNat)

/-- What the spec derives itself from R150 (R152, "[derived: from rule R150]"): a fixed type accepts its own count and
no other; a type whose only variable group is a last `Remaining` group accepts exactly the counts that leave a
non-negative multiple of its element size. -/
def Obligations.LcheckExactFit : Prop :=
  ∀ (s : State) (mtype : BitVec 6) (count : BitVec 5) (d : Descriptor), descOf s.cfg mtype = some d →
    (fixedLayout d → ∀ c0 : BitVec 5, fixedBits d = 24 * c0.toNat →
      exec (.lcheck mtype count) s =
        .next { s with resps := s.resps ++ [⟨0#4, if count = c0 then 1#32 else 0#32⟩] }) ∧
    (∀ pre fds, fixedLayout pre → d = pre ++ [.group .remaining fds] →
      exec (.lcheck mtype count) s = .next { s with resps := s.resps ++
        [⟨0#4, if fixedBits pre ≤ 24 * count.toNat ∧ (24 * count.toNat - fixedBits pre) % elemBits fds = 0
               then 1#32 else 0#32⟩] })

/-! ## STRIP and SEAL -/

/-- R160, R161: STRIP writes the true data of every word of the sequence to DW, and nothing else. -/
def Obligations.StripMakesDataView : Prop :=
  (∀ x, decode ⟨0x30000000#32, x⟩ = .ok .strip) ∧
  ∀ s : State, ∃ dw : Memory 24,
    exec .strip s = .next { s with dw := dw, resps := s.resps ++ [⟨0#4, 0#32⟩] } ∧
    ∀ i, dw.read i = if i < s.nw.toNat then trueData (s.rw.read i) else s.dw.read i

/-- R180, R181: SEAL makes the containers of the sequence, chaining the context bits from CTX0, and writes nothing else. -/
def Obligations.SealChainsContext : Prop :=
  (∀ x, decode ⟨0x38000000#32, x⟩ = .ok .sealRaw) ∧
  ∀ s : State, ∃ rw : Memory 32,
    exec .sealRaw s = .next { s with rw := rw, resps := s.resps ++ [⟨0#4, 0#32⟩] } ∧
    sealedFrom s.cfg s.ctx0 s.dw rw s.nw.toNat ∧ ∀ i, s.nw.toNat ≤ i → rw.read i = s.rw.read i

/-- What the spec derives itself (R180's last sentence, "[derived: from 30_encoding.md rule R82]"): STRIP after SEAL gives
back the data words. -/
def Obligations.StripAfterSealRestores : Prop :=
  ∀ s : State, ∃ t u, exec .sealRaw s = .next t ∧ exec .strip t = .next u ∧
    ∀ i, u.dw.read i = s.dw.read i

/-- The default parity function, by masks, is the six equations of the table of R83, a rule the spec marks "[from general
knowledge, not in source]" (Log 4). -/
def Obligations.DefaultParityEquations : Prop :=
  ∀ (p29 p30 : BitVec 1) (d : DataWord),
    let dk (ks : List Nat) : Bool := ks.foldl (fun b k => Bool.xor b (d.getLsbD (24 - k))) false
    let p := parity Config.default p29 p30 d
    p.getLsbD 5 = Bool.xor (p29.getLsbD 0) (dk [1, 2, 3, 5, 6, 10, 11, 12, 13, 14, 17, 18, 20, 23]) ∧
    p.getLsbD 4 = Bool.xor (p30.getLsbD 0) (dk [2, 3, 4, 6, 7, 11, 12, 13, 14, 15, 18, 19, 21, 24]) ∧
    p.getLsbD 3 = Bool.xor (p29.getLsbD 0) (dk [1, 3, 4, 5, 7, 8, 12, 13, 14, 15, 16, 19, 20, 22]) ∧
    p.getLsbD 2 = Bool.xor (p30.getLsbD 0) (dk [2, 4, 5, 6, 8, 9, 13, 14, 15, 16, 17, 20, 21, 23]) ∧
    p.getLsbD 1 = Bool.xor (p30.getLsbD 0) (dk [1, 3, 5, 6, 7, 9, 10, 14, 15, 16, 17, 18, 21, 22, 24]) ∧
    p.getLsbD 0 = Bool.xor (p29.getLsbD 0) (dk [3, 5, 6, 8, 9, 10, 11, 13, 15, 19, 22, 23, 24])

/-! ## UNPACK -/

/-- R162, R163: a sequence shorter than two words, or than its header declares, is Truncated; a longer one TrailingBits; and
for a known type a count the length check refuses is BadLength (R166). The message is discarded (R168). -/
def Obligations.UnpackRefusesWrongLength : Prop :=
  ∀ s : State, s.legal → ∃ t code,
    exec .unpack s = .next t ∧ t.resps = s.resps ++ [⟨code, 0#32⟩] ∧
    (s.nw.toNat < 2 → code = 1#4) ∧
    (2 ≤ s.nw.toNat → s.nw.toNat < 2 + declaredCount s → code = 1#4) ∧
    (2 ≤ s.nw.toNat → 2 + declaredCount s < s.nw.toNat → code = 4#4) ∧
    (2 ≤ s.nw.toNat → s.nw.toNat = 2 + declaredCount s → (descOf s.cfg (declaredType s)).isSome →
      lcheck s.cfg (BitVec.ofNat 5 (declaredCount s)) (declaredType s) = false → code = 3#4) ∧
    (code ≠ 0#4 → t.tag = .noMessage ∧ t.nv = 0)

/-- R166, R167, R231: a sequence of exactly the declared length whose known type passes the length check is decided by the
bits of the fields its own counts lay out: more than the declared words hold is Truncated, fewer TrailingBits, else OK. Every
such sequence has such fields. -/
def Obligations.UnpackCodeFollowsPayloadSize : Prop :=
  ∀ (s : State) (d : Descriptor), s.legal → 2 ≤ s.nw.toNat → s.nw.toNat = 2 + declaredCount s →
    descOf s.cfg (declaredType s) = some d → lcheck s.cfg (BitVec.ofNat 5 (declaredCount s)) (declaredType s) = true →
    (∃ ks val dw, walkFinds s d ks val dw) ∧
    ∀ ks val dw, walkFinds s d ks val dw →
      ∃ t, exec .unpack s = .next t ∧ t.resps = s.resps ++
        [⟨if 24 * declaredCount s < elemBits (expandItems d ks) then 1#4
          else if elemBits (expandItems d ks) < 24 * declaredCount s then 4#4 else 0#4, 0#32⟩]

/-- R168 (state on error; U1): a failed UNPACK leaves no message, keeps RW, NW, CTX0 and OPQ, makes the data view when
`NW >= 2` and leaves DW otherwise; OFF, LIM, the header registers and V hold some value of their legal ranges. -/
def Obligations.UnpackFailureDiscardsMessage : Prop :=
  ∀ (s t : State) (code : BitVec 4), s.legal → exec .unpack s = .next t → t.resps = s.resps ++ [⟨code, 0#32⟩] →
    code ≠ 0#4 →
    t.tag = .noMessage ∧ t.nv = 0 ∧ t.rw = s.rw ∧ t.nw = s.nw ∧ t.ctx0 = s.ctx0 ∧ t.opq = s.opq ∧
    t.cfg = s.cfg ∧ t.cmds = s.cmds ∧
    (∀ i, t.dw.read i = if 2 ≤ s.nw.toNat ∧ i < s.nw.toNat then trueData (s.rw.read i) else s.dw.read i) ∧
    t.off.toNat ≤ 792 ∧ t.lim.toNat ≤ 792 ∧ Memory.wf 744 t.v

/-- R165, R168: a sequence of exactly the declared length whose type has no descriptor unpacks to the OPAQUE variant: the
header registers, the words after the header verbatim, the data view, the cursor at the end; nothing else changes. -/
def Obligations.UnpackKeepsUnknownTypeVerbatim : Prop :=
  ∀ s : State, s.legal → 2 ≤ s.nw.toNat → s.nw.toNat = 2 + declaredCount s → descOf s.cfg (declaredType s) = none →
    ∃ t, exec .unpack s = .next t ∧
      t = { s with mtype := t.mtype, stid := t.stid, zcnt := t.zcnt, seq := t.seq, len := t.len, health := t.health,
                   dw := t.dw, opq := t.opq, tag := .opaqueRaw, nv := 0, off := BitVec.ofNat 10 (24 * s.nw.toNat),
                   lim := BitVec.ofNat 10 (24 * s.nw.toNat), resps := s.resps ++ [⟨0#4, 0#32⟩] } ∧
      headerOf t (trueData (s.rw.read 0)) (trueData (s.rw.read 1)) ∧
      (∀ i, t.dw.read i = if i < s.nw.toNat then trueData (s.rw.read i) else s.dw.read i) ∧
      ∀ i, t.opq.read i = if i < declaredCount s then s.rw.read (2 + i) else s.opq.read i

/-- R166, R167, R168: when counts that agree with the data (each group's the one its source says) make the payload fill the
declared words exactly, UNPACK succeeds with the TYPED variant: `V[j]` is the value of field `j` of that payload, NV their
number; the header registers, the data view, the cursor at the end; nothing else changes. -/
def Obligations.UnpackDecodesTypedPayload : Prop :=
  ∀ (s : State) (d : Descriptor) (ks : List Nat) (val : Nat → Int) (dw : Memory 24),
    s.legal → 2 ≤ s.nw.toNat → s.nw.toNat = 2 + declaredCount s → descOf s.cfg (declaredType s) = some d →
    (∀ i, i < s.nw.toNat → dw.read i = trueData (s.rw.read i)) →
    countsAgree d ks val d ks = true → carries dw (expandItems d ks) val = true →
    elemBits (expandItems d ks) = 24 * declaredCount s →
    ∃ t, exec .unpack s = .next t ∧
      t = { s with mtype := t.mtype, stid := t.stid, zcnt := t.zcnt, seq := t.seq, len := t.len, health := t.health,
                   dw := t.dw, v := t.v, tag := .typed, nv := BitVec.ofNat 10 (expandItems d ks).length,
                   off := BitVec.ofNat 10 (24 * s.nw.toNat), lim := BitVec.ofNat 10 (24 * s.nw.toNat),
                   resps := s.resps ++ [⟨0#4, 0#32⟩] } ∧
      headerOf t (trueData (s.rw.read 0)) (trueData (s.rw.read 1)) ∧
      (∀ i, t.dw.read i = if i < s.nw.toNat then trueData (s.rw.read i) else s.dw.read i) ∧
      t.nv.toNat = (expandItems d ks).length ∧
      (∀ j, j < t.nv.toNat → payloadValue t j = val j) ∧
      ∀ j, t.nv.toNat ≤ j → t.v.read j = s.v.read j

/-- R166, R167, and what R43 derives from them: a TYPED message UNPACK gives is well-shaped: its entries, read against
the descriptor with counts that agree with them, are the payload the data words carry, and fill the declared words
exactly. -/
def Obligations.UnpackTypedIsWellShaped : Prop :=
  ∀ s t : State, s.legal → exec .unpack s = .next t → t.tag = .typed →
    ∃ d ks, descOf s.cfg t.mtype = some d ∧ countsAgree d ks (payloadValue t) d ks = true ∧
      (expandItems d ks).length = t.nv.toNat ∧ elemBits (expandItems d ks) = 24 * t.len.toNat ∧
      carries t.dw (expandItems d ks) (payloadValue t) = true ∧ t.nw.toNat = 2 + t.len.toNat

/-- What the spec derives itself (R169, "[derived: from rules R166 and R167]"): a type described as one `Remaining`
group of arity `a` and element size `e`, with `24 * LEN = k * e`, unpacks to exactly `k` tuples: `NV = k * a`. -/
def Obligations.UnpackYieldsEveryTuple : Prop :=
  ∀ (s : State) (fds : List FieldDesc) (k : Nat), s.legal → 2 ≤ s.nw.toNat → s.nw.toNat = 2 + declaredCount s →
    descOf s.cfg (declaredType s) = some [.group .remaining fds] → 24 * declaredCount s = k * elemBits fds →
    ∃ t, exec .unpack s = .next t ∧ t.resps = s.resps ++ [⟨0#4, 0#32⟩] ∧ t.tag = .typed ∧
      t.nv.toNat = k * fds.length

/-! ## REPACK -/

/-- R186: with no message in the registers REPACK is BadCommand and changes nothing. -/
def Obligations.RepackWithoutMessageRefused : Prop :=
  ∀ s : State, s.tag = .noMessage → exec .repack s = .next { s with resps := s.resps ++ [⟨7#4, 0#32⟩] }

/-- R225, R186: a TYPED message whose type has no descriptor is UnsupportedType, and there is no output. -/
def Obligations.RepackUnknownTypedUnsupported : Prop :=
  ∀ s : State, s.tag = .typed → descOf s.cfg s.mtype = none →
    ∃ t, exec .repack s = .next t ∧ t.resps = s.resps ++ [⟨5#4, 0#32⟩] ∧ t.nw = 0

/-- R186 (state on error; U2): a failed REPACK, BadCommand apart, leaves no output and keeps the message registers, V, OPQ
and CTX0; RW, DW, OFF and LIM hold some value of their legal ranges. -/
def Obligations.RepackFailureKeepsMessage : Prop :=
  ∀ (s t : State) (code : BitVec 4), s.legal → exec .repack s = .next t → t.resps = s.resps ++ [⟨code, 0#32⟩] →
    code ≠ 0#4 → code ≠ 7#4 →
    t = { s with nw := 0, rw := t.rw, dw := t.dw, off := t.off, lim := t.lim, draws := t.draws, resps := t.resps } ∧
    t.off.toNat ≤ 792 ∧ t.lim.toNat ≤ 792 ∧ Memory.wf 33 t.rw ∧ Memory.wf 33 t.dw

/-- R186, the OPAQUE path: a fresh header sealed from CTX0, then the preserved containers untouched and their true data;
the cursor at the end; the message registers and everything else unchanged. -/
def Obligations.RepackOpaqueVerbatim : Prop :=
  ∀ s : State, s.legal → s.tag = .opaqueRaw →
    ∃ t, exec .repack s = .next t ∧
      t = { s with nw := BitVec.ofNat 6 (2 + s.len.toNat), off := BitVec.ofNat 10 (24 * (2 + s.len.toNat)),
                   lim := BitVec.ofNat 10 (24 * (2 + s.len.toNat)), rw := t.rw, dw := t.dw,
                   resps := s.resps ++ [⟨0#4, 0#32⟩] } ∧
      sealedFrom s.cfg s.ctx0 t.dw t.rw 2 ∧
      headerOf s (t.dw.read 0) (t.dw.read 1) ∧ (t.dw.read 0).extractLsb' 16 8 = s.cfg.preamble ∧
      (∀ i, i < s.len.toNat → t.rw.read (2 + i) = s.opq.read i ∧ t.dw.read (2 + i) = trueData (s.opq.read i)) ∧
      ∀ i, 2 + s.len.toNat ≤ i → t.rw.read i = s.rw.read i ∧ t.dw.read i = s.dw.read i

/-- R182 to R186, the TYPED path: when counts that agree with the values in V account for all NV entries, their fields fill
`24 * LEN` bits, and every value is representable in its field, REPACK succeeds: the data words carry the header and the
payload, the containers are sealed from CTX0, the cursor stands at the end; everything else is unchanged. -/
def Obligations.RepackEncodesTypedPayload : Prop :=
  ∀ (s : State) (d : Descriptor) (ks : List Nat), s.legal → s.tag = .typed → descOf s.cfg s.mtype = some d →
    countsAgree d ks (payloadValue s) d ks = true → (expandItems d ks).length = s.nv.toNat →
    elemBits (expandItems d ks) = 24 * s.len.toNat →
    (∀ j fd, (expandItems d ks)[j]? = some fd → representable fd (payloadValue s j) = true) →
    ∃ t, exec .repack s = .next t ∧
      t = { s with nw := BitVec.ofNat 6 (2 + s.len.toNat), off := BitVec.ofNat 10 (24 * (2 + s.len.toNat)),
                   lim := BitVec.ofNat 10 (24 * (2 + s.len.toNat)), rw := t.rw, dw := t.dw,
                   resps := s.resps ++ [⟨0#4, 0#32⟩] } ∧
      sealedFrom s.cfg s.ctx0 t.dw t.rw (2 + s.len.toNat) ∧
      headerOf s (t.dw.read 0) (t.dw.read 1) ∧ (t.dw.read 0).extractLsb' 16 8 = s.cfg.preamble ∧
      carries t.dw (expandItems d ks) (payloadValue s) = true ∧
      ∀ i, 2 + s.len.toNat ≤ i → t.rw.read i = s.rw.read i ∧ t.dw.read i = s.dw.read i

/-- R182, R183, R185: REPACK accepts no other TYPED message: what it accepts has counts that agree with its values, account
for all its entries, fill the declared words, and every value is representable in its field. -/
def Obligations.RepackAcceptsOnlyWellShaped : Prop :=
  ∀ s t : State, s.legal → s.tag = .typed → exec .repack s = .next t → t.resps = s.resps ++ [⟨0#4, 0#32⟩] →
    ∃ d ks, descOf s.cfg s.mtype = some d ∧ countsAgree d ks (payloadValue s) d ks = true ∧
      (expandItems d ks).length = s.nv.toNat ∧ elemBits (expandItems d ks) = 24 * s.len.toNat ∧
      ∀ j fd, (expandItems d ks)[j]? = some fd → representable fd (payloadValue s j) = true

/-- R182, R231: how the layout pass refuses a TYPED message, at the first item that does not fit: BadLength where the items so
far need more entries than NV, where all items need fewer, or where a `Remaining` group would leave part of a tuple;
FieldOverflow where the value counting a group is no count its field can hold. -/
def Obligations.RepackRefusesImpossibleLayout : Prop :=
  ∀ (s : State) (d pre rest : List Item) (ks : List Nat), s.legal → s.tag = .typed → descOf s.cfg s.mtype = some d →
    d = pre ++ rest → layoutReaches s d pre ks →
    let used := (expandItems pre ks).length
    ∃ t code, exec .repack s = .next t ∧ t.resps = s.resps ++ [⟨code, 0#32⟩] ∧
      (s.nv.toNat < used → code = 3#4) ∧
      (used < s.nv.toNat → rest = [] → code = 3#4) ∧
      (used ≤ s.nv.toNat → ∀ fds after, rest = .group .remaining fds :: after →
        (s.nv.toNat - used) % fds.length ≠ 0 → code = 3#4) ∧
      (used ≤ s.nv.toNat → ∀ q fds after, rest = .group (.field q) fds :: after →
        payloadValue s (entryOfItem d ks q) < 0 ∨ (2 : Int) ^ sourceWidth d q - 1 < payloadValue s (entryOfItem d ks q) →
        code = 2#4)

/-- R183, R185, R231: a TYPED message whose counts agree with its values, can be held by their sources and account for all NV
entries is BadLength where its fields do not fill `24 * LEN` bits, whatever the values are; else FieldOverflow where some value
is not representable in its field; else OK. -/
def Obligations.RepackCodeFollowsLengthThenValues : Prop :=
  ∀ (s : State) (d : Descriptor) (ks : List Nat), s.legal → s.tag = .typed → descOf s.cfg s.mtype = some d →
    countsAgree d ks (payloadValue s) d ks = true → admissibleCounts d d ks →
    (expandItems d ks).length = s.nv.toNat →
    ∃ t code, exec .repack s = .next t ∧ t.resps = s.resps ++ [⟨code, 0#32⟩] ∧
      (elemBits (expandItems d ks) ≠ 24 * s.len.toNat → code = 3#4) ∧
      (elemBits (expandItems d ks) = 24 * s.len.toNat →
        (∃ j fd, (expandItems d ks)[j]? = some fd ∧ representable fd (payloadValue s j) = false) → code = 2#4) ∧
      (elemBits (expandItems d ks) = 24 * s.len.toNat →
        (∀ j fd, (expandItems d ks)[j]? = some fd → representable fd (payloadValue s j) = true) → code = 0#4)

/-- What the spec derives itself (R187 (c), "[derived: from rules R180 to R186, ...]"): for a type that is one `Remaining`
group, the entries of `k` tuples repack to exactly the words their bits fill, and are BadLength unless LEN is their number. -/
def Obligations.RepackOfTuplesNeedsExactLen : Prop :=
  ∀ (s : State) (fds : List FieldDesc) (k : Nat), s.legal → s.tag = .typed →
    descOf s.cfg s.mtype = some [.group .remaining fds] → s.nv.toNat = k * fds.length →
    ∃ t code, exec .repack s = .next t ∧ t.resps = s.resps ++ [⟨code, 0#32⟩] ∧
      (k * elemBits fds ≠ 24 * s.len.toNat → code = 3#4) ∧
      (k * elemBits fds = 24 * s.len.toNat →
        (∀ j fd, (List.replicate k fds).flatten[j]? = some fd → representable fd (payloadValue s j) = true) →
        code = 0#4 ∧ 24 * t.nw.toNat = 48 + k * elemBits fds)

/-- R85, R140: a sequence REPACK made passes PMATCH, in whichever polarity word 0 is sent. -/
def Obligations.RepackedPreambleMatches : Prop :=
  ∀ s t : State, s.legal → exec .repack s = .next t → t.resps = s.resps ++ [⟨0#4, 0#32⟩] →
    exec (.pmatch 0) t = .next { t with resps := t.resps ++ [⟨0#4, 1#32⟩] }

/-- What the spec derives itself (R187 (b), "[derived: from rules R180 to R186, ...]"): every message REPACK accepts
comes back field for field from UNPACK, an OPAQUE one provided its type has no descriptor. -/
def Obligations.UnpackAfterRepackRestoresMessage : Prop :=
  ∀ s t : State, s.legal → exec .repack s = .next t → t.resps = s.resps ++ [⟨0#4, 0#32⟩] →
    (s.tag = .opaqueRaw → descOf s.cfg s.mtype = none) →
    ∃ u, exec .unpack t = .next u ∧ u.resps = t.resps ++ [⟨0#4, 0#32⟩] ∧ sameMessage s u

/-- What the spec derives itself (R187 (a), "[derived: from rules R180 to R186, ...]"): a sequence UNPACK accepts, with
the preamble in its preamble field and context and parity bits that obey `seal` from CTX0, is reproduced bit for bit by
REPACK. -/
def Obligations.RepackAfterUnpackRestoresWords : Prop :=
  ∀ s t : State, s.legal → exec .unpack s = .next t → t.resps = s.resps ++ [⟨0#4, 0#32⟩] →
    (trueData (s.rw.read 0)).extractLsb' 16 8 = s.cfg.preamble →
    sealedFrom s.cfg s.ctx0 t.dw s.rw s.nw.toNat →
    ∃ u, exec .repack t = .next u ∧ u.resps = t.resps ++ [⟨0#4, 0#32⟩] ∧ u.nw = s.nw ∧
      ∀ i, i < s.nw.toNat → u.rw.read i = s.rw.read i

/-- What the spec derives itself (R187 (a), second half): whatever the context and parity bits of a sequence UNPACK accepts
with the preamble in its preamble field, and whatever CTX0 is, REPACK answers OK and reproduces its true data words; the
containers it makes obey `seal` from CTX0, all of them or, for an OPAQUE message, the two of the header, whose stored words are
reproduced in every bit. -/
def Obligations.RepackAfterUnpackRestoresData : Prop :=
  ∀ (s t : State) (ctx0 : BitVec 2), s.legal → exec .unpack s = .next t → t.resps = s.resps ++ [⟨0#4, 0#32⟩] →
    (trueData (s.rw.read 0)).extractLsb' 16 8 = s.cfg.preamble →
    ∃ u, exec .repack { t with ctx0 := ctx0 } = .next u ∧ u.resps = t.resps ++ [⟨0#4, 0#32⟩] ∧ u.nw = s.nw ∧
      (∀ i, i < s.nw.toNat →
        u.dw.read i = trueData (s.rw.read i) ∧ trueData (u.rw.read i) = trueData (s.rw.read i)) ∧
      (t.tag = .typed → sealedFrom s.cfg ctx0 u.dw u.rw s.nw.toNat) ∧
      (t.tag = .opaqueRaw → sealedFrom s.cfg ctx0 u.dw u.rw 2 ∧
        ∀ i, 2 ≤ i → i < s.nw.toNat → u.rw.read i = s.rw.read i)

/-! ## DECODE -/

/-- R200, R201: DECODE's classification, in order: nothing delivered, bad preamble, header incomplete, known type with a bad
length, more words expected, else UNPACK's own outcome with the status beside it. -/
def Obligations.DecodeClassifiesSequence : Prop :=
  (∀ x, decode ⟨0x40000000#32, x⟩ = .ok .decode) ∧
  ∀ s : State,
    if s.nw = 0 then exec .decode s = .next { s with resps := s.resps ++ [⟨0#4, 0#32⟩] }
    else if (trueData (s.rw.read 0)).extractLsb' 16 8 ≠ s.cfg.preamble then
      exec .decode s = .next { s with tag := .noMessage, nv := 0, resps := s.resps ++ [⟨6#4, 3#32⟩] }
    else if s.nw.toNat < 2 then exec .decode s = .next { s with resps := s.resps ++ [⟨0#4, 0#32⟩] }
    else if (descOf s.cfg (declaredType s)).isSome ∧
        lcheck s.cfg (BitVec.ofNat 5 (declaredCount s)) (declaredType s) = false then
      exec .decode s = .next { s with tag := .noMessage, nv := 0, resps := s.resps ++ [⟨3#4, 2#32⟩] }
    else if s.nw.toNat < 2 + declaredCount s then
      exec .decode s = .next { s with resps := s.resps ++ [⟨0#4, 0#32⟩] }
    else ∃ t code, exec .unpack s = .next t ∧ t.resps = s.resps ++ [⟨code, 0#32⟩] ∧
      exec .decode s = .next { t with resps := s.resps ++ [⟨code, if code = 0#4 then 1#32 else 2#32⟩] }

/-! ## Whole-machine rules -/

/-- R60, R26, R251: which commands write which array and which register; the configuration and the pending commands are
written by none. -/
def Obligations.OnlyNamedCommandsWrite : Prop :=
  ∀ (i : Instr) (s t : State), exec i s = .next t →
    let wrAt (space : BitVec 4) : Prop := ∃ idx x, i = .wr space idx x
    let wrCtl (idx : BitVec 10) : Prop := ∃ x, i = .wr 0 idx x
    let unpacks : Prop := i = .unpack ∨ i = .decode
    t.cfg = s.cfg ∧ t.cmds = s.cmds ∧
    (t.rw ≠ s.rw → wrAt 1 ∨ i = .sealRaw ∨ i = .repack ∨ i = .reset) ∧
    (t.dw ≠ s.dw → wrAt 2 ∨ (∃ g w x, i = .cwrite g w x) ∨ i = .strip ∨ i = .repack ∨ unpacks ∨ i = .reset) ∧
    (t.v ≠ s.v → wrAt 3 ∨ unpacks ∨ i = .reset) ∧
    (t.opq ≠ s.opq → wrAt 4 ∨ unpacks ∨ i = .reset) ∧
    (t.nw ≠ s.nw → wrCtl 0 ∨ (∃ g w x, i = .cwrite g w x) ∨ i = .repack ∨ i = .reset) ∧
    (t.off ≠ s.off → wrCtl 1 ∨ (∃ g w, i = .cread g w) ∨ (∃ g w x, i = .cwrite g w x) ∨ i = .repack ∨ unpacks ∨
      i = .reset) ∧
    (t.lim ≠ s.lim → wrCtl 2 ∨ i = .repack ∨ unpacks ∨ i = .reset) ∧
    (t.ctx0 ≠ s.ctx0 → wrCtl 3 ∨ i = .reset) ∧
    (t.tag ≠ s.tag → wrCtl 4 ∨ unpacks ∨ i = .reset) ∧
    (t.mtype ≠ s.mtype → wrCtl 5 ∨ unpacks ∨ i = .reset) ∧
    (t.stid ≠ s.stid → wrCtl 6 ∨ unpacks ∨ i = .reset) ∧
    (t.zcnt ≠ s.zcnt → wrCtl 7 ∨ unpacks ∨ i = .reset) ∧
    (t.seq ≠ s.seq → wrCtl 8 ∨ unpacks ∨ i = .reset) ∧
    (t.len ≠ s.len → wrCtl 9 ∨ unpacks ∨ i = .reset) ∧
    (t.health ≠ s.health → wrCtl 10 ∨ unpacks ∨ i = .reset) ∧
    (t.nv ≠ s.nv → wrCtl 11 ∨ unpacks ∨ i = .reset)

/-- R227: whatever command answers BadCommand leaves the state exactly as it was. -/
def Obligations.BadCommandChangesNothing : Prop :=
  ∀ (i : Instr) (s t : State) (dout : Word), exec i s = .next t → t.resps = s.resps ++ [⟨7#4, dout⟩] →
    t = { s with resps := s.resps ++ [⟨7#4, 0#32⟩] }

/-- R221 to R227: which error codes each command can answer with. -/
def Obligations.ErrorCodesOfEachCommand : Prop :=
  ∀ (i : Instr) (s t : State) (r : Response), s.legal → exec i s = .next t → t.resps = s.resps ++ [r] →
    match i with
    | .nop | .strip | .sealRaw | .reset | .lcheck _ _ => r.err = 0#4
    | .rd _ _ | .wr _ _ _ | .pmatch _ => r.err ∈ [0#4, 7#4]
    | .cread _ _ => r.err ∈ [0#4, 1#4, 7#4]
    | .cwrite _ _ _ => r.err ∈ [0#4, 1#4, 2#4, 7#4]
    | .unpack => r.err ∈ [0#4, 1#4, 3#4, 4#4]
    | .repack => r.err ∈ [0#4, 2#4, 3#4, 5#4, 7#4]
    | .decode => r.err ∈ [0#4, 1#4, 3#4, 4#4, 6#4]

/-- What the spec derives itself (R69, "[derived: from 10_state.md rule R39]"): STRIP and SEAL always, UNPACK and REPACK
when they succeed, are idempotent: a second one right after leaves the same state and gives the same response. -/
def Obligations.RepeatedCommandIdempotent : Prop :=
  ∀ (i : Instr) (s t : State), s.legal → i ∈ [Instr.strip, Instr.sealRaw, Instr.unpack, Instr.repack] →
    exec i s = .next t → t.resps = s.resps ++ [⟨0#4, 0#32⟩] →
    exec i t = .next { t with resps := t.resps ++ [⟨0#4, 0#32⟩] }

/-- What the spec derives itself (R39, "[derived: from rules R168 and R186 ...]"): the response of UNPACK, the TAG and NV and
the message it leaves depend only on NW, the words of the sequence and DESC; so do those of DECODE, with the preamble: the
message on MESSAGE, no message on INVALID and RESYNC, while INCOMPLETE leaves every register alone. -/
def Obligations.UnpackDependsOnSequenceOnly : Prop :=
  ∀ s s' t t' : State, s.legal → s'.legal → s.nw = s'.nw → (∀ i, i < s.nw.toNat → s.rw.read i = s'.rw.read i) →
    (∀ ty, descOf s.cfg ty = descOf s'.cfg ty) →
    (exec .unpack s = .next t → exec .unpack s' = .next t' →
      ∃ r, t.resps = s.resps ++ [r] ∧ t'.resps = s'.resps ++ [r] ∧ t.tag = t'.tag ∧ t.nv = t'.nv ∧
        (r.err = 0#4 → sameMessage t t')) ∧
    (s.cfg.preamble = s'.cfg.preamble → exec .decode s = .next t → exec .decode s' = .next t' →
      ∃ r, t.resps = s.resps ++ [r] ∧ t'.resps = s'.resps ++ [r] ∧
        (r.dout = 0#32 → t = { s with resps := t.resps } ∧ t' = { s' with resps := t'.resps }) ∧
        (r.dout = 1#32 → t.tag ≠ .noMessage ∧ t.nv = t'.nv ∧ sameMessage t t') ∧
        (r.dout = 2#32 ∨ r.dout = 3#32 →
          t.tag = .noMessage ∧ t'.tag = .noMessage ∧ t.nv = 0#10 ∧ t'.nv = 0#10) ∧
        r.dout.toNat ≤ 3)

/-- What the spec derives itself (R39, R188): what REPACK answers and the sequence it makes depend only on the message
(TAG, the header registers, NV and its entries of V, its words of OPQ), CTX0 and the configuration. -/
def Obligations.RepackDependsOnMessageOnly : Prop :=
  ∀ s s' t t' : State, s.legal → s'.legal → sameMessage s s' → s.ctx0 = s'.ctx0 → s.cfg = s'.cfg →
    s.tag ≠ .noMessage → exec .repack s = .next t → exec .repack s' = .next t' →
    ∃ r, t.resps = s.resps ++ [r] ∧ t'.resps = s'.resps ++ [r] ∧ t.nw = t'.nw ∧
      ∀ i, i < t.nw.toNat → t.rw.read i = t'.rw.read i ∧ t.dw.read i = t'.dw.read i
end

