-- ==== Sys2Proof/Laws/Memory.lean ====
section
/-! SUPPORT. What the array operations do (read after write), and that each keeps the canonical form. -/

namespace Sys2Proof.Machine

variable {w : Nat}

@[simp] theorem Memory.read_nil (a : Nat) : Memory.read ([] : Memory w) a = 0#w := rfl

theorem Memory.read_cons (k : Nat) (x : BitVec w) (m : Memory w) (a : Nat) :
    Memory.read ((k, x) :: m) a = if k = a then x else Memory.read m a := rfl

/-! ### Read after each operation -/

theorem Memory.read_of_absent (m : Memory w) (a : Nat) (h : ∀ c ∈ m, c.1 ≠ a) : m.read a = 0#w := by
  induction m with
  | nil => rfl
  | cons c m ih =>
    obtain ⟨k, y⟩ := c
    rw [Memory.read_cons, if_neg (h (k, y) (by simp))]
    exact ih fun d hd => h d (by simp [hd])

/-- Reading through a filter that looks at indices only. -/
theorem Memory.read_filter (m : Memory w) (p : Nat → Bool) (b : Nat) :
    Memory.read (m.filter (fun c => p c.1)) b = if p b then m.read b else 0#w := by
  induction m with
  | nil => simp
  | cons c m ih =>
    obtain ⟨k, y⟩ := c
    by_cases hk : p k = true
    · rw [List.filter_cons_of_pos (by simpa using hk), Memory.read_cons, Memory.read_cons, ih]
      by_cases hkb : k = b
      · subst hkb; simp [hk]
      · simp [hkb]
    · rw [List.filter_cons_of_neg (by simpa using hk), Memory.read_cons, ih]
      by_cases hkb : k = b
      · subst hkb; simp [hk]
      · simp [hkb]

theorem Memory.read_insertCell (m : Memory w) (a : Nat) (x : BitVec w) (b : Nat) (h : ∀ c ∈ m, c.1 ≠ a) :
    (Memory.insertCell a x m).read b = if b = a then x else m.read b := by
  induction m with
  | nil => simp [Memory.insertCell, Memory.read_cons, eq_comm]
  | cons c m ih =>
    obtain ⟨k, y⟩ := c
    have hk : k ≠ a := h (k, y) (by simp)
    have hm : ∀ c ∈ m, c.1 ≠ a := fun d hd => h d (by simp [hd])
    unfold Memory.insertCell
    split
    · rw [Memory.read_cons]; simp [eq_comm]
    · rw [Memory.read_cons, Memory.read_cons, ih hm]
      by_cases hkb : k = b
      · subst hkb; simp [hk]
      · simp [hkb]

/-- Read after write: the value at the index written, what was there elsewhere. -/
theorem Memory.read_write (m : Memory w) (a : Nat) (x : BitVec w) (b : Nat) :
    (m.write a x).read b = if b = a then x else m.read b := by
  have hf : ∀ b, Memory.read (m.filter (fun c => c.1 != a)) b = if b = a then 0#w else m.read b := by
    intro b
    rw [Memory.read_filter m (fun k => k != a) b]
    by_cases hb : b = a <;> simp [hb]
  unfold Memory.write
  split
  · rename_i hx; rw [hf, hx]
  · rw [Memory.read_insertCell _ _ _ _ fun c hc => by simpa using (List.mem_filter.1 hc).2]
    by_cases hb : b = a
    · simp [hb]
    · simp [hb, hf]

theorem Memory.read_clear (m : Memory w) (lo hi b : Nat) :
    (m.clear lo hi).read b = if lo ≤ b ∧ b < hi then 0#w else m.read b := by
  unfold Memory.clear
  rw [Memory.read_filter m (fun k => !(decide (lo ≤ k) && decide (k < hi))) b]
  by_cases h1 : lo ≤ b <;> by_cases h2 : b < hi <;> simp [h1, h2]

theorem Memory.read_fill (m : Memory w) (base n : Nat) (f : Nat → BitVec w) (b : Nat) :
    (m.fill base n f).read b = if base ≤ b ∧ b < base + n then f (b - base) else m.read b := by
  induction n with
  | zero => rw [if_neg (by omega)]; rfl
  | succ n ih =>
    rw [Memory.fill, Memory.read_write, ih]
    by_cases hb : b = base + n
    · subst hb; simp
    · rw [if_neg hb]
      by_cases h : base ≤ b ∧ b < base + n
      · rw [if_pos h, if_pos (by omega)]
      · rw [if_neg h, if_neg (by omega)]

/-! ### The canonical form is kept -/

theorem Memory.wf_nil (size : Nat) : Memory.wf size ([] : Memory w) :=
  ⟨List.Pairwise.nil, fun _ h => by cases h⟩

theorem Memory.wf_filter (size : Nat) (m : Memory w) (p : Nat × BitVec w → Bool) (h : Memory.wf size m) :
    Memory.wf size (m.filter p) :=
  ⟨h.1.filter p, fun c hc => h.2 c (List.mem_of_mem_filter hc)⟩

theorem Memory.mem_insertCell (m : Memory w) (a : Nat) (x : BitVec w) (c : Nat × BitVec w) :
    c ∈ Memory.insertCell a x m ↔ c = (a, x) ∨ c ∈ m := by
  induction m with
  | nil => simp [Memory.insertCell]
  | cons d m ih =>
    obtain ⟨k, y⟩ := d
    unfold Memory.insertCell
    split
    · simp
    · simp only [List.mem_cons, ih]; tauto

theorem Memory.wf_insertCell (size : Nat) (m : Memory w) (a : Nat) (x : BitVec w) (h : Memory.wf size m)
    (ha : a < size) (hx : x ≠ 0#w) (hn : ∀ c ∈ m, c.1 ≠ a) : Memory.wf size (Memory.insertCell a x m) := by
  refine ⟨?_, fun c hc => ?_⟩
  · have hp := h.1
    clear h
    induction m with
    | nil => simp [Memory.insertCell]
    | cons d m ih =>
      obtain ⟨k, y⟩ := d
      have hk : k ≠ a := hn (k, y) (by simp)
      rw [List.pairwise_cons] at hp
      unfold Memory.insertCell
      split
      · rename_i hlt
        refine List.pairwise_cons.2 ⟨fun c hc => ?_, List.pairwise_cons.2 hp⟩
        rcases List.mem_cons.1 hc with rfl | hc
        · exact hlt
        · exact Nat.lt_trans hlt (hp.1 c hc)
      · refine List.pairwise_cons.2 ⟨fun c hc => ?_, ih (fun d hd => hn d (by simp [hd])) hp.2⟩
        rcases (Memory.mem_insertCell m a x c).1 hc with rfl | hc
        · show k < a; omega
        · exact hp.1 c hc
  · rcases (Memory.mem_insertCell m a x c).1 hc with rfl | hc
    · exact ⟨ha, hx⟩
    · exact h.2 c hc

theorem Memory.wf_write (size : Nat) (m : Memory w) (a : Nat) (x : BitVec w) (h : Memory.wf size m)
    (ha : a < size) : Memory.wf size (m.write a x) := by
  unfold Memory.write
  split
  · exact Memory.wf_filter size m _ h
  · exact Memory.wf_insertCell size _ a x (Memory.wf_filter size m _ h) ha (by assumption)
      fun c hc => by simpa using (List.mem_filter.1 hc).2

theorem Memory.wf_clear (size : Nat) (m : Memory w) (lo hi : Nat) (h : Memory.wf size m) :
    Memory.wf size (m.clear lo hi) := Memory.wf_filter size m _ h

theorem Memory.wf_fill (size : Nat) (m : Memory w) (base n : Nat) (f : Nat → BitVec w) (h : Memory.wf size m)
    (hn : base + n ≤ size) : Memory.wf size (m.fill base n f) := by
  induction n with
  | zero => exact h
  | succ n ih => exact Memory.wf_write size _ _ _ (ih (by omega)) (by omega)

/-! ### Equal contents are equal lists -/

theorem Memory.read_of_mem (m : Memory w) (c : Nat × BitVec w) (h : m.Pairwise (fun c d => c.1 < d.1))
    (hc : c ∈ m) : m.read c.1 = c.2 := by
  induction m with
  | nil => simp at hc
  | cons d m ih =>
    obtain ⟨k, y⟩ := d
    rw [List.pairwise_cons] at h
    rcases List.mem_cons.1 hc with rfl | hc
    · simp [Memory.read_cons]
    · have := h.1 c hc
      rw [Memory.read_cons, if_neg (by simp only at this; omega), ih h.2 hc]

/-- Two arrays in canonical form with the same entries are the same list. -/
theorem Memory.eq_of_read_eq {size size' : Nat} (m m' : Memory w) (h : Memory.wf size m) (h' : Memory.wf size' m')
    (hr : ∀ a, m.read a = m'.read a) : m = m' := by
  induction m generalizing m' with
  | nil =>
    cases m' with
    | nil => rfl
    | cons c m' =>
      have h1 := Memory.read_of_mem _ c h'.1 (by simp)
      rw [← hr] at h1
      exact absurd h1.symm (h'.2 c (by simp)).2
  | cons c m ih =>
    cases m' with
    | nil =>
      have h1 := Memory.read_of_mem _ c h.1 (by simp)
      rw [hr] at h1
      exact absurd h1.symm (h.2 c (by simp)).2
    | cons d m' =>
      obtain ⟨k, x⟩ := c
      obtain ⟨l, y⟩ := d
      have hp := List.pairwise_cons.1 h.1
      have hp' := List.pairwise_cons.1 h'.1
      have hx : x ≠ 0#w := (h.2 (k, x) (by simp)).2
      have hy : y ≠ 0#w := (h'.2 (l, y) (by simp)).2
      have hkl : k = l := by
        rcases Nat.lt_trichotomy k l with hlt | heq | hgt
        · have h1 := hr k
          rw [Memory.read_cons, if_pos rfl, Memory.read_of_absent _ k] at h1
          · exact absurd h1 hx
          · intro c hc
            rcases List.mem_cons.1 hc with rfl | hc
            · show l ≠ k; omega
            · have := hp'.1 c hc; simp only at this; omega
        · exact heq
        · have h1 := hr l
          rw [Memory.read_cons (k := l), if_pos rfl, Memory.read_of_absent _ l] at h1
          · exact absurd h1.symm hy
          · intro c hc
            rcases List.mem_cons.1 hc with rfl | hc
            · show k ≠ l; omega
            · have := hp.1 c hc; simp only at this; omega
      subst hkl
      have hxy : x = y := by simpa [Memory.read_cons] using hr k
      subst hxy
      refine congrArg _ (ih m' ⟨hp.2, fun c hc => h.2 c (by simp [hc])⟩
        ⟨hp'.2, fun c hc => h'.2 c (by simp [hc])⟩ fun a => ?_)
      by_cases ha : k = a
      · subst ha
        rw [Memory.read_of_absent m k fun c hc => ?_, Memory.read_of_absent m' k fun c hc => ?_]
        · have := hp'.1 c hc; simp only at this; omega
        · have := hp.1 c hc; simp only at this; omega
      · have := hr a
        rwa [Memory.read_cons, Memory.read_cons, if_neg ha, if_neg ha] at this

end Sys2Proof.Machine
end

