-- ==== Sys2Proof/Laws/Bits.lean ====
section
/-! SUPPORT. What MemRead and MemWrite do, bit by bit (spec/20_memory.md R61, R63, R64). -/

namespace Sys2Proof.Machine

/-- Bit `k` of a data word is the bit at bit address `24 * i + (23 - k)` (R61). -/
theorem getLsbD_read (dw : Memory 24) (i k : Nat) (hk : k < 24) :
    (dw.read i).getLsbD k = bitAt dw (24 * i + (23 - k)) := by
  unfold bitAt
  rw [show (24 * i + (23 - k)) / 24 = i by omega, show 23 - (24 * i + (23 - k)) % 24 = k by omega]

/-- Two DW arrays that agree on every bit address agree on every entry. -/
theorem read_eq_of_bitAt (dw dw' : Memory 24) (i : Nat)
    (h : ∀ o, 24 * i ≤ o → o < 24 * i + 24 → bitAt dw o = bitAt dw' o) : dw.read i = dw'.read i := by
  apply BitVec.eq_of_getLsbD_eq
  intro k hk
  rw [getLsbD_read _ _ _ hk, getLsbD_read _ _ _ hk]
  exact h _ (by omega) (by omega)

theorem bitAt_of_read_eq (dw dw' : Memory 24) (o : Nat) (h : dw.read (o / 24) = dw'.read (o / 24)) :
    bitAt dw o = bitAt dw' o := by unfold bitAt; rw [h]

theorem getLsbD_setWordBit (d : DataWord) (i k : Nat) (b : Bool) (hi : i < 24) :
    (setWordBit d i b).getLsbD k = if k = i then b else d.getLsbD k := by
  unfold setWordBit
  by_cases hk : k = i
  · subst hk; cases b <;> simp [hi]
  · cases b
    · by_cases h24 : k < 24
      · simp [hk, h24]
      · simp [hk, BitVec.getLsbD_of_ge _ _ (Nat.le_of_not_lt h24)]
    · have : ¬ i = k := fun h => hk h.symm
      simp [hk, this]

/-- Setting one bit of the bit space changes that bit only. -/
theorem bitAt_setBitAt (dw : Memory 24) (o a : Nat) (b : Bool) :
    bitAt (setBitAt dw o b) a = if a = o then b else bitAt dw a := by
  unfold bitAt setBitAt
  rw [Memory.read_write]
  by_cases hw : a / 24 = o / 24
  · rw [if_pos hw, getLsbD_setWordBit _ _ _ _ (by omega)]
    by_cases ho : a = o
    · subst ho; simp
    · rw [if_neg (by omega), if_neg ho, hw]
  · rw [if_neg hw, if_neg (by intro h; exact hw (by rw [h]))]

theorem memRead_lt (dw : Memory 24) (o n : Nat) : memRead dw o n < 2 ^ n := by
  induction n with
  | zero => simp [memRead]
  | succ n ih =>
    have := Bool.toNat_le (bitAt dw (o + n))
    rw [memRead, Nat.pow_succ]; omega

/-- Bit `k` of what MemRead gives: the first bit in field order is the most significant (R62, R63). -/
theorem testBit_memRead (dw : Memory 24) (o n k : Nat) :
    (memRead dw o n).testBit k = (decide (k < n) && bitAt dw (o + (n - 1 - k))) := by
  induction n generalizing k with
  | zero => simp [memRead]
  | succ n ih =>
    rw [memRead]
    cases k with
    | zero => cases h : bitAt dw (o + n) <;> simp [h, Nat.testBit_zero]
    | succ k =>
      rw [Nat.testBit_succ, show (2 * memRead dw o n + (bitAt dw (o + n)).toNat) / 2 = memRead dw o n by
        have := Bool.toNat_le (bitAt dw (o + n)); omega, ih]
      by_cases hk : k < n
      · rw [show n + 1 - 1 - (k + 1) = n - 1 - k by omega]; simp [hk]
      · simp [hk]

/-- MemWrite writes the `n` bits from `o` on, the value's most significant bit first, and no other bit (R64). -/
theorem bitAt_memWrite (dw : Memory 24) (o n u a : Nat) :
    bitAt (memWrite dw o n u) a =
      if o ≤ a ∧ a < o + n then u.testBit (n - 1 - (a - o)) else bitAt dw a := by
  induction n generalizing u with
  | zero => rw [if_neg (by omega)]; rfl
  | succ n ih =>
    rw [memWrite, bitAt_setBitAt, ih]
    by_cases ha : a = o + n
    · subst ha
      rw [if_pos rfl, if_pos (by omega), show n + 1 - 1 - (o + n - o) = 0 by omega, Nat.testBit_zero]
      rcases Nat.mod_two_eq_zero_or_one u with h | h <;> simp [h]
    · rw [if_neg ha]
      by_cases h : o ≤ a ∧ a < o + n
      · rw [if_pos h, if_pos (by omega), show n + 1 - 1 - (a - o) = (n - 1 - (a - o)) + 1 by omega, Nat.testBit_succ]
      · rw [if_neg h, if_neg (by omega)]

/-- MemRead depends on the bits of its field only. -/
theorem memRead_congr (dw dw' : Memory 24) (o n : Nat) (h : ∀ a, o ≤ a → a < o + n → bitAt dw a = bitAt dw' a) :
    memRead dw o n = memRead dw' o n := by
  induction n with
  | zero => rfl
  | succ n ih =>
    rw [memRead, memRead, ih fun a h1 h2 => h a h1 (by omega), h (o + n) (by omega) (by omega)]

theorem wf_memWrite (dw : Memory 24) (o n u : Nat) (h : Memory.wf 33 dw) (hn : o + n ≤ 792) :
    Memory.wf 33 (memWrite dw o n u) := by
  induction n generalizing u with
  | zero => exact h
  | succ n ih =>
    rw [memWrite]
    exact Memory.wf_write 33 _ _ _ (ih _ (by omega)) (by omega)

/-- The value of a pattern is in the range of its field. -/
theorem fitsField_patternValue (w : Nat) (sgn : Bool) (u : Nat) (hw : 1 ≤ w) (hu : u < 2 ^ w) :
    fitsField w sgn (patternValue w sgn u) = true := by
  obtain ⟨n, rfl⟩ : ∃ n, w = n + 1 := ⟨w - 1, by omega⟩
  have h2 : (2 : Int) ^ (n + 1) = 2 * 2 ^ n := by rw [pow_succ]; ring
  have hu' : (u : Int) < 2 * 2 ^ n := by rw [← h2]; exact_mod_cast hu
  have hn : (0 : Int) < 2 ^ n := by positivity
  have htb : u.testBit n = decide (2 ^ n ≤ u) := by
    rw [Nat.testBit_eq_decide_div_mod_eq]
    have hlt : u / 2 ^ n < 2 := by
      rw [Nat.div_lt_iff_lt_mul (by positivity), ← Nat.pow_succ']; exact hu
    by_cases hle : 2 ^ n ≤ u
    · have : 1 ≤ u / 2 ^ n := by rw [Nat.le_div_iff_mul_le (by positivity)]; omega
      simp [hle, show u / 2 ^ n = 1 by omega]
    · have : u / 2 ^ n = 0 := Nat.div_eq_of_lt (by omega)
      simp [hle, this]
  unfold patternValue fitsField
  cases sgn
  · simp only [Bool.false_and, Bool.false_eq_true, if_false, decide_eq_true_eq]
    omega
  · simp only [Bool.true_and, if_true, decide_eq_true_eq, Nat.add_sub_cancel, htb]
    by_cases hle : 2 ^ n ≤ u
    · have : (2 : Int) ^ n ≤ u := by exact_mod_cast hle
      rw [if_pos hle]; omega
    · have : (u : Int) < 2 ^ n := by exact_mod_cast Nat.lt_of_not_le hle
      rw [if_neg hle]; omega

/-- Writing the value of a pattern writes the pattern back (R124). -/
theorem patternValue_emod (w : Nat) (sgn : Bool) (u : Nat) (hu : u < 2 ^ w) :
    (patternValue w sgn u % (2 : Int) ^ w).toNat = u := by
  have h : ((u : Int) % (2 : Int) ^ w) = u := Int.emod_eq_of_lt (by omega) (by exact_mod_cast hu)
  unfold patternValue
  split
  · rw [Int.sub_emod_right, h]; rfl
  · rw [h]; rfl

/-- Reading a pattern written from a value in range gives the value back (R91, R124). -/
theorem patternValue_of_fits (w : Nat) (sgn : Bool) (x : Int) (hw : 1 ≤ w) (h : fitsField w sgn x = true) :
    patternValue w sgn (x % (2 : Int) ^ w).toNat = x := by
  obtain ⟨n, rfl⟩ : ∃ n, w = n + 1 := ⟨w - 1, by omega⟩
  have h2 : (2 : Int) ^ (n + 1) = 2 * 2 ^ n := by rw [pow_succ]; ring
  have hn : (0 : Int) < 2 ^ n := by positivity
  unfold fitsField at h
  unfold patternValue
  cases sgn
  · simp only [Bool.false_eq_true, if_false, decide_eq_true_eq] at h
    simp only [Bool.false_and, Bool.false_eq_true, if_false]
    rw [Int.emod_eq_of_lt h.1 (by omega)]; omega
  · simp only [if_true, decide_eq_true_eq, Nat.add_sub_cancel] at h
    rw [h2, Nat.add_sub_cancel]
    by_cases hx : 0 ≤ x
    · rw [Int.emod_eq_of_lt hx (by omega)]
      have : x.toNat.testBit n = false := Nat.testBit_lt_two_pow (by
        have : (x.toNat : Int) < 2 ^ n := by omega
        exact_mod_cast this)
      simp [this, hx]
    · have he : x % (2 * 2 ^ n) = x + 2 * 2 ^ n := by
        rw [← Int.add_emod_right, Int.emod_eq_of_lt (by omega) (by omega)]
      rw [he]
      have htb : (x + 2 * 2 ^ n).toNat.testBit n = true := by
        obtain ⟨y, hy⟩ : ∃ y : Nat, x + 2 * 2 ^ n = y := ⟨(x + 2 * 2 ^ n).toNat, by omega⟩
        rw [hy, Int.toNat_natCast, Nat.testBit_eq_decide_div_mod_eq]
        have h1 : 2 ^ n ≤ y := by
          have : (2 : Int) ^ n ≤ y := by omega
          exact_mod_cast this
        have h3 : y < 2 ^ n * 2 := by
          have : (y : Int) < 2 ^ n * 2 := by omega
          exact_mod_cast this
        have h4 : y / 2 ^ n < 2 := by rw [Nat.div_lt_iff_lt_mul (by positivity)]; omega
        have h5 : 1 ≤ y / 2 ^ n := by rw [Nat.le_div_iff_mul_le (by positivity)]; omega
        simp [show y / 2 ^ n = 1 by omega]
      rw [htb]; simp only [Bool.and_self, if_true]; omega

/-! ### Fields against a 32-bit value -/

theorem emod_toNat_lt (x : Int) (w : Nat) : (x % (2 : Int) ^ w).toNat < 2 ^ w := by
  have h1 : (0 : Int) < 2 ^ w := by positivity
  have h2 := Int.emod_lt_of_pos x h1
  have h3 := Int.emod_nonneg x (show (2 : Int) ^ w ≠ 0 by omega)
  have : (((x % (2 : Int) ^ w).toNat : Nat) : Int) < ((2 ^ w : Nat) : Int) := by
    push_cast; rw [Int.toNat_of_nonneg h3]; exact h2
  exact_mod_cast this

theorem patternValue_eq_toInt (w u : Nat) (hw : 1 ≤ w) (hu : u < 2 ^ w) :
    patternValue w true u = (BitVec.ofNat w u).toInt := by
  rw [BitVec.toInt_eq_msb_cond, BitVec.msb_eq_getLsbD_last, BitVec.getLsbD_ofNat, BitVec.toNat_ofNat,
    Nat.mod_eq_of_lt hu]
  unfold patternValue
  simp only [Bool.true_and, show w - 1 < w by omega, decide_true, Nat.cast_pow, Nat.cast_ofNat]

/-- The bits of a field's value in 32 bits: the pattern, then zeros, or copies of the top bit where signed (R11, R122). -/
theorem getLsbD_ofInt_patternValue (w : Nat) (sgn : Bool) (u k : Nat) (hw : 1 ≤ w) (hu : u < 2 ^ w) (hk : k < 32) :
    (BitVec.ofInt 32 (patternValue w sgn u)).getLsbD k =
      if k < w then u.testBit k else sgn && u.testBit (w - 1) := by
  cases sgn
  · have : BitVec.ofInt 32 (patternValue w false u) = BitVec.ofNat 32 u := by simp [patternValue]
    rw [this, BitVec.getLsbD_ofNat]
    split
    · simp [hk]
    · rw [Nat.testBit_lt_two_pow (Nat.lt_of_lt_of_le hu (Nat.pow_le_pow_right (by omega) (by omega)))]; simp
  · have : BitVec.ofInt 32 (patternValue w true u) = (BitVec.ofNat w u).signExtend 32 := by
      rw [patternValue_eq_toInt w u hw hu]; rfl
    rw [this, BitVec.getLsbD_signExtend, BitVec.getLsbD_ofNat, BitVec.msb_eq_getLsbD_last, BitVec.getLsbD_ofNat]
    by_cases h : k < w
    · simp [hk, h]
    · simp [hk, h]; omega

/-- The DATA word as CWRITE reads it: signed or unsigned (R123). -/
theorem emod_testBit_data (x : Word) (sgn : Bool) (w i : Nat) (hw : w ≤ 32) (hi : i < w) :
    ((if sgn then x.toInt else (x.toNat : Int)) % (2 : Int) ^ w).toNat.testBit i = x.getLsbD i := by
  have key : ((if sgn then x.toInt else (x.toNat : Int)) % (2 : Int) ^ w).toNat = (x.setWidth w).toNat := by
    cases sgn
    · simp only [Bool.false_eq_true, if_false, BitVec.toNat_setWidth]
      have : ((x.toNat : Int) % (2 : Int) ^ w) = ((x.toNat % 2 ^ w : Nat) : Int) := by push_cast; rfl
      rw [this, Int.toNat_natCast]
    · have h1 : (BitVec.ofInt w x.toInt) = x.setWidth w := by
        rw [← BitVec.signExtend_eq_setWidth_of_le x hw]; rfl
      rw [← h1, BitVec.toNat_ofInt]
      simp
  rw [key, BitVec.testBit_toNat, BitVec.getLsbD_setWidth]
  simp [hi]

/-- Which DATA words a field holds: those whose bits from the field's sign bit on are equal where signed, those with no bit
from the width on where not (R121, R123). -/
theorem fitsField_data_iff (x : Word) (sgn : Bool) (w : Nat) (hw : 1 ≤ w) (hw' : w ≤ 32) :
    fitsField w sgn (if sgn then x.toInt else (x.toNat : Int)) = true ↔
      (if sgn then ∀ k, w - 1 ≤ k → k < 32 → x.getLsbD k = x.getLsbD (w - 1)
       else ∀ k, w ≤ k → k < 32 → x.getLsbD k = false) := by
  cases sgn
  · simp only [Bool.false_eq_true, if_false, fitsField, decide_eq_true_eq]
    constructor
    · rintro ⟨_, h⟩ k hk _
      have h2 : x.toNat < 2 ^ w := by
        have : ((x.toNat : Nat) : Int) < ((2 ^ w : Nat) : Int) := by push_cast; omega
        exact_mod_cast this
      exact Nat.testBit_lt_two_pow (Nat.lt_of_lt_of_le h2 (Nat.pow_le_pow_right (by omega) hk))
    · intro h
      have h2 : x.toNat < 2 ^ w := by
        apply Nat.lt_pow_two_of_testBit
        intro k hk
        by_cases h32 : k < 32
        · exact h k hk h32
        · exact BitVec.getLsbD_of_ge x k (by omega)
      have : ((x.toNat : Nat) : Int) < ((2 ^ w : Nat) : Int) := by exact_mod_cast h2
      push_cast at this
      omega
  · simp only [if_true]
    constructor
    · intro h k hk hk32
      have h1 := patternValue_of_fits w true x.toInt hw h
      have hu := emod_toNat_lt x.toInt w
      have h2 : BitVec.ofInt 32 (patternValue w true (x.toInt % (2 : Int) ^ w).toNat) = x := by
        rw [h1, BitVec.ofInt_toInt]
      have h3 := fun k hk => getLsbD_ofInt_patternValue w true _ k hw hu hk
      rw [h2] at h3
      rw [h3 k hk32, h3 (w - 1) (by omega), if_pos (show w - 1 < w by omega)]
      split
      · rw [show k = w - 1 by omega]
      · rfl
    · intro h
      have h1 : x = (x.setWidth w).signExtend 32 := by
        apply BitVec.eq_of_getLsbD_eq
        intro k hk
        rw [BitVec.getLsbD_signExtend, BitVec.msb_eq_getLsbD_last, BitVec.getLsbD_setWidth, BitVec.getLsbD_setWidth]
        by_cases hkw : k < w
        · simp [hk, hkw]
        · simp only [hk, hkw, decide_true, decide_false, Bool.true_and, if_false, show w - 1 < w by omega]
          exact h k (by omega) hk
      have h2 : x.toInt = (x.setWidth w).toInt := by
        conv => lhs; rw [h1]
        exact BitVec.toInt_signExtend_of_le hw'
      obtain ⟨n, rfl⟩ : ∃ n, w = n + 1 := ⟨w - 1, by omega⟩
      have h3 := BitVec.toInt_lt (x := x.setWidth (n + 1))
      have h4 := BitVec.le_toInt (x := x.setWidth (n + 1))
      simp only [fitsField, if_true, decide_eq_true_eq]
      rw [h2]
      simp only [Nat.add_sub_cancel] at *
      exact ⟨h4, by omega⟩

end Sys2Proof.Machine
end

