-- ==== Sys2Proof/Laws/Payload.lean ====
section
/-! SUPPORT. The payload laid out flat (spec/30_encoding.md R87 to R92): how the field list of a descriptor grows item by
item, and what the fields of a bit range read. -/

namespace Sys2Proof.Machine

/-! ### Sizes -/

@[simp] theorem elemBits_nil : elemBits [] = 0 := rfl

@[simp] theorem elemBits_cons (fd : FieldDesc) (fds : List FieldDesc) : elemBits (fd :: fds) = fd.width + elemBits fds := rfl

@[simp] theorem elemBits_append (a b : List FieldDesc) : elemBits (a ++ b) = elemBits a + elemBits b := by
  induction a with
  | nil => simp
  | cons fd a ih => simp [ih]; omega

@[simp] theorem elemBits_flatten_replicate (k : Nat) (fds : List FieldDesc) :
    elemBits (List.replicate k fds).flatten = k * elemBits fds := by
  induction k with
  | zero => simp
  | succ k ih => simp [List.replicate_succ, ih, Nat.succ_mul]; omega

theorem length_flatten_replicate (k : Nat) (fds : List FieldDesc) :
    (List.replicate k fds).flatten.length = k * fds.length := by simp

/-- The first `j` fields and field `j` lie within the whole (R92). -/
theorem elemBits_take_add_width_le (fds : List FieldDesc) (j : Nat) (fd : FieldDesc) (h : fds[j]? = some fd) :
    elemBits (fds.take j) + fd.width ≤ elemBits fds := by
  induction fds generalizing j with
  | nil => simp at h
  | cons f fds ih =>
    cases j with
    | zero => simp at h; subst h; simp
    | succ j => simp at h; have := ih j h; simp; omega

/-! ### The field list of a descriptor -/

/-- How many groups a list of items holds. -/
def groupsIn : List Item → Nat
  | [] => 0
  | .field _ :: rest => groupsIn rest
  | .group _ _ :: rest => groupsIn rest + 1

@[simp] theorem expandItems_nil (ks : List Nat) : expandItems [] ks = [] := rfl

@[simp] theorem expandItems_field (fd : FieldDesc) (rest : List Item) (ks : List Nat) :
    expandItems (.field fd :: rest) ks = fd :: expandItems rest ks := rfl

@[simp] theorem expandItems_group (src : CountSource) (fds : List FieldDesc) (rest : List Item) (k : Nat) (ks : List Nat) :
    expandItems (.group src fds :: rest) (k :: ks) = (List.replicate k fds).flatten ++ expandItems rest ks := rfl

/-- The fields of a prefix of the items come first, laid out with the first counts. -/
theorem expandItems_append (pre rest : List Item) (kp ks : List Nat) (h : kp.length = groupsIn pre) :
    expandItems (pre ++ rest) (kp ++ ks) = expandItems pre kp ++ expandItems rest ks := by
  induction pre generalizing kp with
  | nil =>
    have : kp = [] := List.length_eq_zero_iff.1 h
    subst this; rfl
  | cons it pre ih =>
    cases it with
    | field fd => simp [ih kp h]
    | group src fds =>
      cases kp with
      | nil => simp [groupsIn] at h
      | cons k kp =>
        simp [groupsIn] at h
        simp [ih kp h]

/-- The fields of a list of items need no counts past its groups. -/
theorem expandItems_extra (pre : List Item) (kp ks : List Nat) (h : groupsIn pre ≤ kp.length) :
    expandItems pre (kp ++ ks) = expandItems pre kp := by
  induction pre generalizing kp with
  | nil => rfl
  | cons it pre ih =>
    cases it with
    | field fd => simp [ih kp h]
    | group src fds =>
      cases kp with
      | nil => simp [groupsIn] at h
      | cons k kp =>
        simp [groupsIn] at h
        simp [ih kp h]

theorem groupsIn_append (a b : List Item) : groupsIn (a ++ b) = groupsIn a + groupsIn b := by
  induction a with
  | nil => simp [groupsIn]
  | cons it a ih => cases it <;> simp [groupsIn, ih]; omega

theorem groupsIn_take_le (d : List Item) (q : Nat) : groupsIn (d.take q) ≤ groupsIn d := by
  conv => rhs; rw [← List.take_append_drop q d]
  rw [groupsIn_append]; omega

/-- The entry of an item of a prefix is found in the prefix alone. -/
theorem entryOfItem_append (pre rest : List Item) (kp ks : List Nat) (q : Nat) (hq : q ≤ pre.length)
    (h : kp.length = groupsIn pre) :
    entryOfItem (pre ++ rest) (kp ++ ks) q = (expandItems (pre.take q) kp).length := by
  unfold entryOfItem
  rw [List.take_append_of_le_length hq, expandItems_extra]
  rw [h]; exact groupsIn_take_le pre q

/-! ### What the fields of a bit range read -/

/-- The values of the fields `fds` laid out from bit address `o` on (R90). -/
def fieldValues (dw : Memory 24) : List FieldDesc → (o : Nat) → List Int
  | [], _ => []
  | fd :: rest, o => fieldValue dw fd o :: fieldValues dw rest (o + fd.width)

@[simp] theorem length_fieldValues (dw : Memory 24) (fds : List FieldDesc) (o : Nat) :
    (fieldValues dw fds o).length = fds.length := by
  induction fds generalizing o with
  | nil => rfl
  | cons fd fds ih => simp [fieldValues, ih]

theorem fieldValues_append (dw : Memory 24) (a b : List FieldDesc) (o : Nat) :
    fieldValues dw (a ++ b) o = fieldValues dw a o ++ fieldValues dw b (o + elemBits a) := by
  induction a generalizing o with
  | nil => rfl
  | cons fd a ih => simp [fieldValues, ih, Nat.add_assoc]

theorem getElem?_fieldValues (dw : Memory 24) (fds : List FieldDesc) (o j : Nat) :
    (fieldValues dw fds o)[j]? = fds[j]?.map (fun fd => fieldValue dw fd (o + elemBits (fds.take j))) := by
  induction fds generalizing o j with
  | nil => simp [fieldValues]
  | cons fd fds ih =>
    cases j with
    | zero => simp [fieldValues]
    | succ j => simp [fieldValues, ih, Nat.add_assoc]

theorem fieldValue_congr (dw dw' : Memory 24) (fd : FieldDesc) (o : Nat)
    (h : ∀ a, o ≤ a → a < o + fd.width → bitAt dw a = bitAt dw' a) : fieldValue dw fd o = fieldValue dw' fd o := by
  unfold fieldValue; rw [memRead_congr dw dw' o fd.width h]

/-- The values of fields depend on the bits of their range only. -/
theorem fieldValues_congr (dw dw' : Memory 24) (fds : List FieldDesc) (o : Nat)
    (h : ∀ a, o ≤ a → a < o + elemBits fds → bitAt dw a = bitAt dw' a) :
    fieldValues dw fds o = fieldValues dw' fds o := by
  induction fds generalizing o with
  | nil => rfl
  | cons fd fds ih =>
    simp only [elemBits_cons] at h
    rw [fieldValues, fieldValues, fieldValue_congr dw dw' fd o fun a h1 h2 => h a h1 (by omega),
      ih _ fun a h1 h2 => h a (by omega) (by omega)]

/-- `carries` says that the values of the fields from offset 48 on are the given ones. -/
theorem carries_iff (dw : Memory 24) (fds : List FieldDesc) (val : Nat → Int) :
    carries dw fds val = true ↔ ∀ j, j < fds.length → (fieldValues dw fds 48).getD j 0 = val j := by
  unfold carries
  rw [List.all_eq_true]
  constructor
  · intro h j hj
    have h1 := h j (List.mem_range.2 hj)
    rw [List.getD_eq_getElem?_getD, getElem?_fieldValues]
    rw [List.getElem?_eq_getElem hj] at h1 ⊢
    exact (beq_iff_eq.1 h1).symm
  · intro h j hj
    have hj := List.mem_range.1 hj
    have h1 := h j hj
    rw [List.getD_eq_getElem?_getD, getElem?_fieldValues] at h1
    rw [List.getElem?_eq_getElem hj] at h1 ⊢
    exact beq_iff_eq.2 h1.symm

end Sys2Proof.Machine
end

