-- ==== Sys2Proof/Laws/Cursor.lean ====
section
/-! SUPPORT. What `cur_read` and `cur_write` do (spec/40_bit_cursor.md R120, R121, R124), said once. -/

namespace Sys2Proof.Machine

/-! ### Sequencing of fallible operations -/

theorem bind_ok_iff {ε α β : Type} (x : Except ε α) (f : α → Except ε β) (b : β) :
    (x >>= f) = .ok b ↔ ∃ a, x = .ok a ∧ f a = .ok b := by
  cases x with
  | error e => simp [bind, Except.bind]
  | ok a => simp [bind, Except.bind]

theorem bind_error_iff {ε α β : Type} (x : Except ε α) (f : α → Except ε β) (e : ε) :
    (x >>= f) = .error e ↔ x = .error e ∨ ∃ a, x = .ok a ∧ f a = .error e := by
  cases x with
  | error e => simp [bind, Except.bind]
  | ok a => simp [bind, Except.bind]

@[simp] theorem ok_bind {ε α β : Type} (a : α) (f : α → Except ε β) : ((Except.ok a : Except ε α) >>= f) = f a := rfl

@[simp] theorem error_bind {ε α β : Type} (e : ε) (f : α → Except ε β) :
    ((Except.error e : Except ε α) >>= f) = .error e := rfl

/-! ### `cur_read` -/

/-- `cur_read` succeeds exactly within the budget; it then gives the value of the bits read and moves `OFF` only. -/
theorem curRead_ok_iff (s : State) (w : Nat) (sgn : Bool) (x : Int) (t : State) :
    curRead s w sgn = .ok (x, t) ↔
      s.off.toNat + w ≤ s.lim.toNat ∧ x = patternValue w sgn (memRead s.dw s.off.toNat w) ∧
        t = { s with off := BitVec.ofNat 10 (s.off.toNat + w) } := by
  unfold curRead
  split
  · simp; omega
  · simp only [Except.ok.injEq, Prod.mk.injEq]
    constructor
    · rintro ⟨rfl, rfl⟩; exact ⟨by omega, rfl, rfl⟩
    · rintro ⟨_, rfl, rfl⟩; exact ⟨rfl, rfl⟩

/-- `cur_read` fails exactly past the budget, with Truncated. -/
theorem curRead_error_iff (s : State) (w : Nat) (sgn : Bool) (e : ErrKind) :
    curRead s w sgn = .error e ↔ s.lim.toNat < s.off.toNat + w ∧ e = .truncated := by
  unfold curRead
  split <;> simp_all [eq_comm]

/-- The `OFF` a read leaves. -/
theorem off_toNat_of_le (s : State) (w : Nat) (h : s.off.toNat + w ≤ s.lim.toNat) :
    (BitVec.ofNat 10 (s.off.toNat + w)).toNat = s.off.toNat + w := by
  have := s.lim.isLt
  rw [BitVec.toNat_ofNat, Nat.mod_eq_of_lt (by omega)]

/-! ### `cur_write` -/

theorem illegalWidth_iff (width : BitVec 5) : illegalWidth width = true ↔ width.toNat = 0 ∨ 24 < width.toNat :=
  decide_eq_true_iff

@[simp] theorem allocate_off (s : State) (n : Nat) : (allocate s n).off = s.off := by unfold allocate; split <;> rfl

/-- Allocation raises `NW` to what is needed and zeroes the words taken in (R121). -/
theorem allocate_eq (s : State) (need : Nat) :
    ∃ dw, allocate s need = { s with dw := dw, nw := BitVec.ofNat 6 (max s.nw.toNat need) } ∧
      ∀ i, dw.read i = if s.nw.toNat ≤ i ∧ i < need then 0#24 else s.dw.read i := by
  unfold allocate
  split
  · refine ⟨s.dw.clear s.nw.toNat need, ?_, fun i => Memory.read_clear _ _ _ _⟩
    rw [Nat.max_eq_right (by omega)]
  · refine ⟨s.dw, ?_, fun i => by rw [if_neg (by omega)]⟩
    rw [Nat.max_eq_left (by omega), BitVec.ofNat_toNat, BitVec.setWidth_eq]

/-- What `cur_write` does where it succeeds: the field's bits are the value's, the words taken in beyond `NW` are zero
elsewhere, every other bit is kept; `NW` and `OFF` move, nothing else. -/
theorem curWrite_ok_iff (s : State) (x : Int) (w : Nat) (sgn : Bool) (t : State) :
    curWrite s x w sgn = .ok t ↔
      fitsField w sgn x = true ∧ s.off.toNat + w ≤ 792 ∧
        t = { allocate s (wordsNeeded s.off.toNat w) with
                dw := memWrite (allocate s (wordsNeeded s.off.toNat w)).dw s.off.toNat w (x % (2 : Int) ^ w).toNat,
                off := BitVec.ofNat 10 (s.off.toNat + w) } := by
  unfold curWrite
  cases hf : fitsField w sgn x
  · simp
  · by_cases hc : 792 < s.off.toNat + w
    · simp [hc]
    · simp only [Bool.not_true, Bool.false_eq_true, if_false, if_neg hc, Except.ok.injEq, true_and]
      exact ⟨fun h => ⟨by omega, h.symm⟩, fun h => h.2.symm⟩

/-- `cur_write` fails with FieldOverflow exactly when the value is out of range, else with Truncated past bit 791. -/
theorem curWrite_error_iff (s : State) (x : Int) (w : Nat) (sgn : Bool) (e : ErrKind) :
    curWrite s x w sgn = .error e ↔
      (fitsField w sgn x = false ∧ e = .fieldOverflow) ∨
        (fitsField w sgn x = true ∧ 792 < s.off.toNat + w ∧ e = .truncated) := by
  unfold curWrite
  cases hf : fitsField w sgn x
  · simp [eq_comm]
  · by_cases hc : 792 < s.off.toNat + w
    · simp [hc, eq_comm]
    · simp [hc]

/-- The bits of DW after a successful `cur_write`, and the rest of the state. -/
theorem curWrite_spec (s : State) (x : Int) (w : Nat) (sgn : Bool) (t : State) (h : curWrite s x w sgn = .ok t) :
    t = { s with dw := t.dw, nw := BitVec.ofNat 6 (max s.nw.toNat (wordsNeeded s.off.toNat w)),
                 off := BitVec.ofNat 10 (s.off.toNat + w) } ∧
      ∀ a, bitAt t.dw a =
        if s.off.toNat ≤ a ∧ a < s.off.toNat + w then (x % (2 : Int) ^ w).toNat.testBit (w - 1 - (a - s.off.toNat))
        else if s.nw.toNat ≤ a / 24 ∧ a / 24 < wordsNeeded s.off.toNat w then false
        else bitAt s.dw a := by
  obtain ⟨_, hc, rfl⟩ := (curWrite_ok_iff s x w sgn t).1 h
  obtain ⟨dw, ha, hr⟩ := allocate_eq s (wordsNeeded s.off.toNat w)
  rw [ha]
  refine ⟨rfl, fun a => ?_⟩
  rw [bitAt_memWrite]
  split
  · rfl
  · unfold bitAt
    rw [hr]
    split <;> simp

theorem wf_allocate (s : State) (n : Nat) (h : Memory.wf 33 s.dw) : Memory.wf 33 (allocate s n).dw := by
  unfold allocate
  split
  · exact Memory.wf_clear 33 _ _ _ h
  · exact h

theorem wf_curWrite (s : State) (x : Int) (w : Nat) (sgn : Bool) (t : State) (h : curWrite s x w sgn = .ok t)
    (hs : Memory.wf 33 s.dw) : Memory.wf 33 t.dw := by
  obtain ⟨_, hc, rfl⟩ := (curWrite_ok_iff s x w sgn t).1 h
  exact wf_memWrite _ _ _ _ (wf_allocate s _ hs) hc

end Sys2Proof.Machine
end

