-- ==== Sys2Proof/Laws/Unpack.lean ====
section
/-! SUPPORT. What the steps of UNPACK do (spec/43_unpacker.md R160 to R168), said once each. -/

namespace Sys2Proof.Machine

/-! ### STRIP -/

theorem stripWords_eq (s : State) : stripWords s = { s with dw := (stripWords s).dw } := rfl

/-- `strip()` writes the data view of the words of the sequence, and nothing else (R160). -/
theorem read_stripWords (s : State) (i : Nat) :
    (stripWords s).dw.read i = if i < s.nw.toNat then stripWord (s.rw.read i) else s.dw.read i := by
  unfold stripWords
  rw [Memory.read_fill]
  by_cases h : i < s.nw.toNat
  · rw [if_pos ⟨by omega, by omega⟩, if_pos h, Nat.sub_zero]
  · rw [if_neg (by omega), if_neg h]

theorem wf_stripWords (s : State) (h : Memory.wf 33 s.dw) (hn : s.nw.toNat ≤ 33) :
    Memory.wf 33 (stripWords s).dw := Memory.wf_fill 33 _ _ _ _ h (by omega)

/-! ### The header -/

/-- A field inside one data word, as a slice of the word (R62, R84). -/
theorem memRead_in_word (dw : Memory 24) (i k n : Nat) (h : k + n ≤ 24) :
    memRead dw (24 * i + k) n = ((dw.read i).extractLsb' (24 - k - n) n).toNat := by
  apply Nat.eq_of_testBit_eq
  intro j
  rw [testBit_memRead, BitVec.testBit_toNat, BitVec.getLsbD_extractLsb']
  by_cases hj : j < n
  · rw [getLsbD_read _ _ _ (by omega), show 24 * i + k + (n - 1 - j) = 24 * i + (23 - (24 - k - n + j)) by omega]
  · simp [hj]

theorem ofInt_patternValue_unsigned (n w u : Nat) : BitVec.ofInt n (patternValue w false u) = BitVec.ofNat n u := by
  simp [patternValue]

theorem curRead_unsigned (s : State) (w : Nat) (h : s.off.toNat + w ≤ s.lim.toNat) :
    curRead s w false =
      .ok ((memRead s.dw s.off.toNat w : Nat), { s with off := BitVec.ofNat 10 (s.off.toNat + w) }) :=
  (curRead_ok_iff s w false _ _).2 ⟨h, by simp [patternValue], rfl⟩

/-- The header registers are the slices of header words 0 and 1 that R84 lists; the cursor stands after them. -/
theorem unpackHeader_eq (s : State) (h : 2 ≤ s.nw.toNat) :
    unpackHeader s = .ok { stripWords s with
      off := 48, lim := 48,
      mtype := (stripWord (s.rw.read 0)).extractLsb' 10 6, stid := (stripWord (s.rw.read 0)).extractLsb' 0 10,
      zcnt := (stripWord (s.rw.read 1)).extractLsb' 11 13, seq := (stripWord (s.rw.read 1)).extractLsb' 8 3,
      len := (stripWord (s.rw.read 1)).extractLsb' 3 5, health := (stripWord (s.rw.read 1)).extractLsb' 0 3 } := by
  have h0 : (stripWords s).dw.read 0 = stripWord (s.rw.read 0) := by rw [read_stripWords, if_pos (by omega)]
  have h1 : (stripWords s).dw.read 1 = stripWord (s.rw.read 1) := by rw [read_stripWords, if_pos (by omega)]
  have m1 : memRead (stripWords s).dw 8 6 = ((stripWord (s.rw.read 0)).extractLsb' 10 6).toNat :=
    h0 ▸ memRead_in_word _ 0 8 6 (by omega)
  have m2 : memRead (stripWords s).dw 14 10 = ((stripWord (s.rw.read 0)).extractLsb' 0 10).toNat :=
    h0 ▸ memRead_in_word _ 0 14 10 (by omega)
  have m3 : memRead (stripWords s).dw 24 13 = ((stripWord (s.rw.read 1)).extractLsb' 11 13).toNat :=
    h1 ▸ memRead_in_word _ 1 0 13 (by omega)
  have m4 : memRead (stripWords s).dw 37 3 = ((stripWord (s.rw.read 1)).extractLsb' 8 3).toNat :=
    h1 ▸ memRead_in_word _ 1 13 3 (by omega)
  have m5 : memRead (stripWords s).dw 40 5 = ((stripWord (s.rw.read 1)).extractLsb' 3 5).toNat :=
    h1 ▸ memRead_in_word _ 1 16 5 (by omega)
  have m6 : memRead (stripWords s).dw 45 3 = ((stripWord (s.rw.read 1)).extractLsb' 0 3).toNat :=
    h1 ▸ memRead_in_word _ 1 21 3 (by omega)
  unfold unpackHeader
  rw [if_neg (by omega)]
  dsimp only
  rw [curRead_unsigned _ _ (by simp), ok_bind]
  dsimp only
  rw [curRead_unsigned _ _ (by simp), ok_bind]
  dsimp only
  rw [curRead_unsigned _ _ (by simp), ok_bind]
  dsimp only
  rw [curRead_unsigned _ _ (by simp), ok_bind]
  dsimp only
  rw [curRead_unsigned _ _ (by simp), ok_bind]
  dsimp only
  rw [curRead_unsigned _ _ (by simp), ok_bind]
  dsimp only
  rw [curRead_unsigned _ _ (by simp), ok_bind]
  dsimp only
  simp [m1, m2, m3, m4, m5, m6, -BitVec.extractLsb'_toNat]

end Sys2Proof.Machine
end

