-- ==== Sys2Proof/Laws/Walk.lean ====
section
/-! SUPPORT. What the walk of UNPACK does (spec/43_unpacker.md R166), as one equation for each of its functions. -/

namespace Sys2Proof.Machine

/-- `read_field` into `V[j]`: within the budget it stores the field's value and moves `OFF`; past it, Truncated. -/
theorem readFieldTo_eq (s : State) (fd : FieldDesc) (j : Nat) :
    readFieldTo s fd j =
      if s.off.toNat + fd.width ≤ s.lim.toNat then
        .ok (fieldValue s.dw fd s.off.toNat,
          { s with off := BitVec.ofNat 10 (s.off.toNat + fd.width),
                   v := s.v.write j (BitVec.ofInt 32 (fieldValue s.dw fd s.off.toNat)) })
      else .error .truncated := by
  unfold readFieldTo readField curRead
  split
  · rw [if_neg (by omega)]; rfl
  · rw [if_pos (by omega)]; rfl

theorem Memory.fill_congr {w : Nat} (m : Memory w) (base n : Nat) (f g : Nat → BitVec w) (h : ∀ i, i < n → f i = g i) :
    m.fill base n f = m.fill base n g := by
  induction n with
  | zero => rfl
  | succ n ih => rw [Memory.fill, Memory.fill, ih fun i hi => h i (by omega), h n (by omega)]

/-- A fill is its first write, then the rest. -/
theorem Memory.fill_succ {w : Nat} (m : Memory w) (base n : Nat) (f : Nat → BitVec w) :
    m.fill base (n + 1) f = (m.write base (f 0)).fill (base + 1) n (fun i => f (i + 1)) := by
  induction n with
  | zero => rfl
  | succ n ih => rw [Memory.fill, ih, Memory.fill, show base + 1 + n = base + (n + 1) by omega]

/-- A fill of two ranges one after the other. -/
theorem Memory.fill_add {w : Nat} (m : Memory w) (base n k : Nat) (f : Nat → BitVec w) :
    m.fill base (n + k) f = (m.fill base n f).fill (base + n) k (fun i => f (n + i)) := by
  induction k with
  | zero => rfl
  | succ k ih => rw [← Nat.add_assoc, Memory.fill, ih, Memory.fill, Nat.add_assoc]

/-- The state after the values `xs` have been stored in `V` from `V[j]` on and the cursor moved to `o`. -/
def storeValues (s : State) (j o : Nat) (xs : List Int) : State :=
  { s with off := BitVec.ofNat 10 o, v := s.v.fill j xs.length (fun i => BitVec.ofInt 32 (xs.getD i 0)) }

@[simp] theorem storeValues_lim (s : State) (j o : Nat) (xs : List Int) : (storeValues s j o xs).lim = s.lim := rfl
@[simp] theorem storeValues_dw (s : State) (j o : Nat) (xs : List Int) : (storeValues s j o xs).dw = s.dw := rfl
@[simp] theorem storeValues_off (s : State) (j o : Nat) (xs : List Int) :
    (storeValues s j o xs).off = BitVec.ofNat 10 o := rfl

theorem storeValues_nil (s : State) (j : Nat) : storeValues s j s.off.toNat [] = s := by
  simp [storeValues, Memory.fill]

theorem storeValues_cons (s : State) (j o o' : Nat) (x : Int) (xs : List Int) :
    storeValues { s with off := BitVec.ofNat 10 o', v := s.v.write j (BitVec.ofInt 32 x) } (j + 1) o xs =
      storeValues s j o (x :: xs) := by
  simp [storeValues, Memory.fill_succ]

theorem storeValues_append (s : State) (j o o' : Nat) (xs ys : List Int) :
    storeValues (storeValues s j o' xs) (j + xs.length) o ys = storeValues s j o (xs ++ ys) := by
  unfold storeValues
  simp only [List.length_append, Memory.fill_add]
  congr 2
  · apply Memory.fill_congr
    intro i hi
    simp [List.getElem?_append, hi]
  · funext i
    simp [List.getElem?_append]

theorem offset_toNat (s : State) (o : Nat) (h : o ≤ s.lim.toNat) : (BitVec.ofNat 10 o).toNat = o := by
  have := s.lim.isLt
  rw [BitVec.toNat_ofNat, Nat.mod_eq_of_lt (by omega)]

/-- Reading the fields of a tuple: all of them within the budget, or Truncated. -/
theorem readTuple_eq (s : State) (fds : List FieldDesc) (j : Nat) (h : s.off.toNat ≤ s.lim.toNat) :
    readTuple s fds j =
      if s.off.toNat + elemBits fds ≤ s.lim.toNat then
        .ok (j + fds.length, storeValues s j (s.off.toNat + elemBits fds) (fieldValues s.dw fds s.off.toNat))
      else .error .truncated := by
  induction fds generalizing s j with
  | nil => simp [readTuple, h, fieldValues, storeValues_nil]
  | cons fd fds ih =>
    rw [readTuple, readFieldTo_eq]
    by_cases h1 : s.off.toNat + fd.width ≤ s.lim.toNat
    · rw [if_pos h1]
      have ho : (BitVec.ofNat 10 (s.off.toNat + fd.width)).toNat = s.off.toNat + fd.width := offset_toNat s _ h1
      simp only [ok_bind]
      rw [ih _ _ (by simp only [ho]; exact h1)]
      simp only [ho, storeValues_cons, fieldValues, elemBits_cons, List.length_cons, Nat.add_assoc, Nat.add_comm 1]
      rfl
    · rw [if_neg h1, if_neg (by rw [elemBits_cons]; omega)]; rfl

/-- Reading `k` tuples is reading the fields of all of them in order. -/
theorem readTuples_eq (s : State) (fds : List FieldDesc) (k j : Nat) :
    readTuples s fds k j = readTuple s (List.replicate k fds).flatten j := by
  have happ : ∀ (a b : List FieldDesc) (s : State) (j : Nat),
      readTuple s (a ++ b) j = readTuple s a j >>= fun r => readTuple r.2 b r.1 := by
    intro a
    induction a with
    | nil => intro b s j; rfl
    | cons fd a ih =>
      intro b s j
      rw [List.cons_append, readTuple, readTuple]
      cases readFieldTo s fd j with
      | error e => rfl
      | ok r => simp only [ok_bind]; exact ih _ _ _
  induction k generalizing s j with
  | zero => rfl
  | succ k ih =>
    rw [readTuples, List.replicate_succ, List.flatten_cons, happ]
    cases readTuple s fds j with
    | error e => rfl
    | ok r => simp only [ok_bind]; exact ih _ _

/-- The element count of each group as the walk finds it in the data words `dw` with the budget `lim` (R166). -/
def walkCounts (dw : Memory 24) (lim : Nat) : List Item → (vals : List Int) → (o : Nat) → List Nat
  | [], _, _ => []
  | .field fd :: rest, vals, o => walkCounts dw lim rest (vals ++ [fieldValue dw fd o]) (o + fd.width)
  | .group src fds :: rest, vals, o =>
    let k := match src with
      | .const n => n
      | .field q => (vals.getD q 0).toNat
      | .remaining => (lim - o) / elemBits fds
    k :: walkCounts dw lim rest (vals ++ [0]) (o + k * elemBits fds)

/-- The walk of R166: with the counts it finds, it stores the values of all the fields, or is Truncated. -/
theorem walkItems_eq (s : State) (items : List Item) (vals : List Int) (j : Nat) (h : s.off.toNat ≤ s.lim.toNat) :
    walkItems s items vals j =
      let fds := expandItems items (walkCounts s.dw s.lim.toNat items vals s.off.toNat)
      if s.off.toNat + elemBits fds ≤ s.lim.toNat then
        .ok (j + fds.length, storeValues s j (s.off.toNat + elemBits fds) (fieldValues s.dw fds s.off.toNat))
      else .error .truncated := by
  induction items generalizing s vals j with
  | nil => simp [walkItems, h, fieldValues, storeValues_nil]
  | cons it items ih =>
    cases it with
    | field fd =>
      rw [walkItems, readFieldTo_eq]
      by_cases h1 : s.off.toNat + fd.width ≤ s.lim.toNat
      · rw [if_pos h1]
        have ho : (BitVec.ofNat 10 (s.off.toNat + fd.width)).toNat = s.off.toNat + fd.width := offset_toNat s _ h1
        simp only [ok_bind]
        rw [ih _ _ _ (by simp only [ho]; exact h1)]
        simp only [ho, storeValues_cons, fieldValues, elemBits_cons, List.length_cons, walkCounts, expandItems_field,
          Nat.add_assoc, Nat.add_comm 1]
      · rw [if_neg h1, if_neg (by simp only [walkCounts, expandItems_field, elemBits_cons]; omega)]; rfl
    | group src fds =>
      rw [walkItems, readTuples_eq, readTuple_eq _ _ _ h]
      simp only [walkCounts, expandItems_group, elemBits_append]
      have hk : unpackGroupCount s vals fds src = (match src with
          | .const n => n
          | .field q => (vals.getD q 0).toNat
          | .remaining => (s.lim.toNat - s.off.toNat) / elemBits fds) := by cases src <;> rfl
      rw [hk]
      generalize (match src with
          | .const n => n
          | .field q => (vals.getD q 0).toNat
          | .remaining => (s.lim.toNat - s.off.toNat) / elemBits fds) = k
      by_cases h1 : s.off.toNat + elemBits (List.replicate k fds).flatten ≤ s.lim.toNat
      · rw [if_pos h1]
        have ho := offset_toNat s _ h1
        simp only [ok_bind]
        rw [ih _ _ _ (by simp only [storeValues_off, storeValues_lim, ho]; exact h1)]
        simp only [storeValues_off, storeValues_lim, storeValues_dw, ho]
        have hl := storeValues_append s j
        rw [fieldValues_append]
        simp only [List.length_append, elemBits_flatten_replicate, Nat.add_assoc] at *
        split
        · congr 2
          rw [← hl, length_fieldValues]
        · rfl
      · rw [if_neg h1, if_neg (by simp only [elemBits_flatten_replicate] at *; omega)]; rfl

end Sys2Proof.Machine
end

