-- ==== Sys2Proof/Laws/Counts.lean ====
section
/-! SUPPORT. The element counts of a payload: the counts the walk of UNPACK finds are exactly those that agree with the data
(spec/43_unpacker.md R166, spec/30_encoding.md R92). -/

namespace Sys2Proof.Machine

/-! ### Well-formed descriptors, item by item -/

theorem itemsWellFormed_cons (d : Descriptor) (p : Nat) (it : Item) (rest : List Item) :
    itemsWellFormed d p (it :: rest) = true ↔
      itemWellFormed d p rest.isEmpty it = true ∧ itemsWellFormed d (p + 1) rest = true := by
  simp [itemsWellFormed]

theorem fieldWellFormed_width (fd : FieldDesc) (h : fieldWellFormed fd = true) :
    1 ≤ fd.width ∧ fd.width ≤ 24 ∧ 1 ≤ fd.mul := by
  simp only [fieldWellFormed, Bool.and_eq_true, decide_eq_true_eq] at h
  exact h.1

theorem elemBits_pos (fds : List FieldDesc) (h : fds ≠ []) (hw : fds.all fieldWellFormed = true) : 0 < elemBits fds := by
  cases fds with
  | nil => exact absurd rfl h
  | cons fd fds =>
    simp only [List.all_cons, Bool.and_eq_true] at hw
    have := (fieldWellFormed_width fd hw.1).1
    simp; omega

/-- What R89 says of a group. -/
theorem itemWellFormed_group (d : Descriptor) (p : Nat) (l : Bool) (src : CountSource) (fds : List FieldDesc)
    (h : itemWellFormed d p l (.group src fds) = true) :
    fds ≠ [] ∧ fds.all fieldWellFormed = true ∧
      (∀ q, src = .field q → ∃ fd, d[q]? = some (.field fd) ∧ q < p ∧ fd.signed = false ∧ fd.mul = 1) ∧
      (src = .remaining → l = true) := by
  simp only [itemWellFormed, Bool.and_eq_true] at h
  refine ⟨by have := h.1.1; intro he; subst he; simp at this, h.1.2, ?_, ?_⟩
  · rintro q rfl
    have h2 := h.2
    simp only [fieldSourceWellFormed] at h2
    split at h2
    · rename_i fd hq
      simp only [Bool.and_eq_true, decide_eq_true_eq, Bool.not_eq_true'] at h2
      exact ⟨fd, hq, h2.1.1, h2.1.2, h2.2⟩
    · simp at h2
  · rintro rfl; exact h.2

theorem findDesc_mem (t : BitVec 6) (l : List (BitVec 6 × Descriptor)) (d : Descriptor) (h : findDesc t l = some d) :
    (t, d) ∈ l := by
  induction l with
  | nil => simp [findDesc] at h
  | cons e l ih =>
    obtain ⟨k, d'⟩ := e
    unfold findDesc at h
    split at h
    · rename_i hk; subst hk; simp at h; subst h; simp
    · simp [ih h]

/-- Every descriptor of a well-formed table is well-formed. -/
theorem descriptorWellFormed_of_descOf (cfg : Config) (t : BitVec 6) (d : Descriptor) (hc : configWellFormed cfg = true)
    (h : descOf cfg t = some d) : itemsWellFormed d 0 d = true := by
  have := findDesc_mem t _ d h
  unfold configWellFormed at hc
  rw [List.all_eq_true] at hc
  exact hc _ this

/-! ### The scratch values of the walks -/

/-- `vals` holds, for each scalar item of `pre`, the value that the flat payload has for it. -/
def valsMatch (pre : List Item) (kp : List Nat) (vals : List Int) (val : Nat → Int) : Prop :=
  vals.length = pre.length ∧
    ∀ q fd, pre[q]? = some (.field fd) → vals.getD q 0 = val (expandItems (pre.take q) kp).length

theorem valsMatch_nil (val : Nat → Int) : valsMatch [] [] [] val := ⟨rfl, by simp⟩

theorem valsMatch_field (pre : List Item) (kp : List Nat) (vals : List Int) (val : Nat → Int) (fd : FieldDesc)
    (h : valsMatch pre kp vals val) :
    valsMatch (pre ++ [.field fd]) kp (vals ++ [val (expandItems pre kp).length]) val := by
  refine ⟨by simp [h.1], fun q fd' hq => ?_⟩
  rcases Nat.lt_trichotomy q pre.length with hlt | heq | hgt
  · rw [List.getElem?_append_left hlt] at hq
    rw [List.take_append_of_le_length (by omega), ← h.2 q fd' hq]
    simp [List.getElem?_append_left (show q < vals.length by rw [h.1]; exact hlt)]
  · subst heq
    rw [List.take_append_of_le_length (by omega), List.take_length]
    simp [← h.1]
  · rw [List.getElem?_eq_none (by simp; omega)] at hq; simp at hq

theorem valsMatch_group (pre : List Item) (kp : List Nat) (vals : List Int) (val : Nat → Int) (src : CountSource)
    (fds : List FieldDesc) (k : Nat) (hk : kp.length = groupsIn pre) (h : valsMatch pre kp vals val) :
    valsMatch (pre ++ [.group src fds]) (kp ++ [k]) (vals ++ [0]) val := by
  refine ⟨by simp [h.1], fun q fd' hq => ?_⟩
  rcases Nat.lt_trichotomy q pre.length with hlt | heq | hgt
  · rw [List.getElem?_append_left hlt] at hq
    rw [List.take_append_of_le_length (by omega), expandItems_extra _ _ _ (by rw [hk]; exact groupsIn_take_le pre q),
      ← h.2 q fd' hq]
    simp [List.getElem?_append_left (show q < vals.length by rw [h.1]; exact hlt)]
  · subst heq
    simp at hq
  · rw [List.getElem?_eq_none (by simp; omega)] at hq; simp at hq

/-- The scratch value a group of source `Field(q)` looks up is the one the flat payload has. -/
theorem valsMatch_source (pre rest : List Item) (kp ks : List Nat) (vals : List Int) (val : Nat → Int) (q : Nat)
    (fd : FieldDesc) (hq : q < pre.length) (hf : (pre ++ rest)[q]? = some (.field fd)) (hk : kp.length = groupsIn pre)
    (h : valsMatch pre kp vals val) :
    vals.getD q 0 = val (entryOfItem (pre ++ rest) (kp ++ ks) q) := by
  rw [List.getElem?_append_left hq] at hf
  rw [entryOfItem_append _ _ _ _ _ (by omega) hk]
  exact h.2 q fd hf

/-! ### The flat payload at an item -/

/-- The value of the field that a scalar item stands for, in a payload the data words carry. -/
theorem carries_at (dw : Memory 24) (a b : List FieldDesc) (fd : FieldDesc) (val : Nat → Int)
    (h : carries dw (a ++ fd :: b) val = true) : val a.length = fieldValue dw fd (48 + elemBits a) := by
  have h1 := (carries_iff dw _ val).1 h a.length (by simp)
  rw [← h1, List.getD_eq_getElem?_getD, getElem?_fieldValues]
  simp

theorem fieldValue_source_nonneg (dw : Memory 24) (fd : FieldDesc) (o : Nat) (hs : fd.signed = false) (hm : fd.mul = 1) :
    0 ≤ fieldValue dw fd o := by
  simp [fieldValue, patternValue, hs, hm]

/-- An unsigned unscaled field reads a count its width can hold (R150). -/
theorem fieldValue_source_le (dw : Memory 24) (fd : FieldDesc) (o : Nat) (hs : fd.signed = false) (hm : fd.mul = 1) :
    (fieldValue dw fd o).toNat ≤ 2 ^ fd.width - 1 := by
  have := memRead_lt dw o fd.width
  simp [fieldValue, patternValue, hs, hm]; omega

/-- Field `q` of the payload, whatever the counts, where its place is a scalar item. -/
theorem val_entryOfItem (dw : Memory 24) (d : Descriptor) (ks : List Nat) (val : Nat → Int) (q : Nat) (fd : FieldDesc)
    (hq : d[q]? = some (.field fd)) (hks : ks.length = groupsIn d)
    (hc : carries dw (expandItems d ks) val = true) :
    ∃ o, val (entryOfItem d ks q) = fieldValue dw fd o := by
  have hlt : q < d.length := (List.getElem?_eq_some_iff.1 hq).1
  have hd : d = d.take q ++ .field fd :: d.drop (q + 1) := by
    have := List.getElem?_eq_some_iff.1 hq
    rw [← this.2, List.getElem_cons_drop, List.take_append_drop]
  have hg := groupsIn_take_le d q
  have hsplit : ks = ks.take (groupsIn (d.take q)) ++ ks.drop (groupsIn (d.take q)) := (List.take_append_drop _ _).symm
  have hl : (ks.take (groupsIn (d.take q))).length = groupsIn (d.take q) := by simp; omega
  refine ⟨48 + elemBits (expandItems (d.take q) (ks.take (groupsIn (d.take q)))), ?_⟩
  have he := expandItems_append (d.take q) (.field fd :: d.drop (q + 1)) _ (ks.drop (groupsIn (d.take q))) hl
  rw [← hd, ← hsplit, expandItems_field] at he
  rw [he] at hc
  rw [← carries_at dw _ _ fd val hc]
  unfold entryOfItem
  conv => lhs; rw [hsplit]
  rw [expandItems_extra _ _ _ (by omega)]

/-! ### The counts the walk finds -/

theorem length_walkCounts (dw : Memory 24) (lim : Nat) (items : List Item) (vals : List Int) (o : Nat) :
    (walkCounts dw lim items vals o).length = groupsIn items := by
  induction items generalizing vals o with
  | nil => rfl
  | cons it items ih => cases it <;> simp [walkCounts, groupsIn, ih]

/-- The counts the walk finds in a payload within the budget depend on the bits within the budget only. -/
theorem walkCounts_congr (dw dw' : Memory 24) (lim : Nat) (items : List Item) (vals : List Int) (o : Nat)
    (h : ∀ a, a < lim → bitAt dw a = bitAt dw' a)
    (hfit : o + elemBits (expandItems items (walkCounts dw lim items vals o)) ≤ lim) :
    walkCounts dw lim items vals o = walkCounts dw' lim items vals o := by
  induction items generalizing vals o with
  | nil => rfl
  | cons it items ih =>
    cases it with
    | field fd =>
      simp only [walkCounts, expandItems_field, elemBits_cons] at *
      rw [ih _ _ (by omega), fieldValue_congr dw dw' fd o fun a _ h2 => h a (by omega)]
    | group src fds =>
      simp only [walkCounts, expandItems_group, elemBits_append, elemBits_flatten_replicate] at *
      rw [ih _ _ (by omega)]

/-- Whether the payload passes the budget depends on the bits within the budget only. -/
theorem walkCounts_exceed_congr (dw dw' : Memory 24) (lim : Nat) (items : List Item) (vals : List Int) (o : Nat)
    (h : ∀ a, a < lim → bitAt dw a = bitAt dw' a)
    (hbig : lim < o + elemBits (expandItems items (walkCounts dw lim items vals o))) :
    lim < o + elemBits (expandItems items (walkCounts dw' lim items vals o)) := by
  by_contra hc
  have := walkCounts_congr dw' dw lim items vals o (fun a ha => (h a ha).symm) (by omega)
  rw [this] at hc; omega

/-- The counts the walk finds agree with the payload that they lay out. -/
theorem walkCounts_agree_from (dw : Memory 24) (lim : Nat) (d pre items : List Item) (kp : List Nat) (vals : List Int)
    (o : Nat) (val : Nat → Int) (hd : d = pre ++ items) (hwf : itemsWellFormed d pre.length items = true)
    (hk : kp.length = groupsIn pre) (ho : o = 48 + elemBits (expandItems pre kp)) (hv : valsMatch pre kp vals val)
    (hc : carries dw (expandItems d (kp ++ walkCounts dw lim items vals o)) val = true) :
    countsAgree d (kp ++ walkCounts dw lim items vals o) val items (walkCounts dw lim items vals o) = true := by
  induction items generalizing pre kp vals o with
  | nil => rfl
  | cons it items ih =>
    rw [itemsWellFormed_cons] at hwf
    cases it with
    | field fd =>
      have hval : val (expandItems pre kp).length = fieldValue dw fd o := by
        rw [hd, expandItems_append _ _ _ _ hk, expandItems_field] at hc
        rw [carries_at dw _ _ fd val hc, ho]
      have hw : walkCounts dw lim (.field fd :: items) vals o =
          walkCounts dw lim items (vals ++ [val (expandItems pre kp).length]) (o + fd.width) := by
        rw [hval]; rfl
      rw [hw] at hc ⊢
      exact ih (pre ++ [.field fd]) kp _ _ (by simp [hd]) (by simpa using hwf.2)
        (by simp [groupsIn_append, groupsIn, hk])
        (by
          have := expandItems_append pre [.field fd] kp [] hk
          simp at this
          rw [this, ho]; simp; omega)
        (valsMatch_field pre kp vals val fd hv) hc
    | group src fds =>
      obtain ⟨_, _, hsrc, _⟩ := itemWellFormed_group d _ _ src fds hwf.1
      have hlast : ∀ k, walkCounts dw lim (.group src fds :: items) vals o =
            k :: walkCounts dw lim items (vals ++ [0]) (o + k * elemBits fds) →
          (match src with
           | .const n => k == n
           | .field q => (k : Int) == val (entryOfItem d
              (kp ++ walkCounts dw lim (.group src fds :: items) vals o) q)
           | .remaining => true) = true →
          countsAgree d (kp ++ walkCounts dw lim (.group src fds :: items) vals o) val (.group src fds :: items)
            (walkCounts dw lim (.group src fds :: items) vals o) = true := by
        intro k hw hm
        rw [hw] at hc hm ⊢
        have e : kp ++ k :: walkCounts dw lim items (vals ++ [0]) (o + k * elemBits fds) =
            (kp ++ [k]) ++ walkCounts dw lim items (vals ++ [0]) (o + k * elemBits fds) := by simp
        rw [e] at hc hm ⊢
        have hrec := ih (pre ++ [.group src fds]) (kp ++ [k]) (vals ++ [0]) (o + k * elemBits fds) (by simp [hd])
          (by simpa using hwf.2) (by simp [groupsIn_append, groupsIn, hk])
          (by rw [expandItems_append _ _ _ _ hk, ho]; simp; omega)
          (valsMatch_group pre kp vals val src fds k hk hv) hc
        simp only [countsAgree, Bool.and_eq_true]
        cases src <;> exact ⟨hm, hrec⟩
      cases src with
      | const n => exact hlast n rfl (by simp)
      | remaining => exact hlast _ rfl rfl
      | field q =>
        refine hlast _ rfl ?_
        obtain ⟨fd, hq, hlt, hs, hm⟩ := hsrc q rfl
        have h1 := valsMatch_source pre (.group (.field q) fds :: items) kp
          (walkCounts dw lim (.group (.field q) fds :: items) vals o) vals val q fd hlt (hd ▸ hq) hk hv
        rw [← hd] at h1
        obtain ⟨o', h2⟩ := val_entryOfItem dw d _ val q fd hq
          (by rw [List.length_append, length_walkCounts, hk, hd, groupsIn_append]) hc
        have h3 := fieldValue_source_nonneg dw fd o' hs hm
        simp only [beq_iff_eq]
        rw [← h1]
        rw [← h1] at h2
        omega

/-- The counts the walk finds in a payload agree with it. -/
theorem walkCounts_agree (dw : Memory 24) (lim : Nat) (d : Descriptor) (val : Nat → Int)
    (hwf : itemsWellFormed d 0 d = true) (hc : carries dw (expandItems d (walkCounts dw lim d [] 48)) val = true) :
    countsAgree d (walkCounts dw lim d [] 48) val d (walkCounts dw lim d [] 48) = true :=
  walkCounts_agree_from dw lim d [] d [] [] 48 val rfl hwf rfl rfl (valsMatch_nil val) hc

theorem countsAgree_length (d : Descriptor) (counts : List Nat) (val : Nat → Int) (items : List Item) (ks : List Nat)
    (h : countsAgree d counts val items ks = true) : ks.length = groupsIn items := by
  induction items generalizing ks with
  | nil => simp [countsAgree] at h; simp [h, groupsIn]
  | cons it items ih =>
    cases it with
    | field fd => exact ih ks h
    | group src fds =>
      cases ks with
      | nil => simp [countsAgree] at h
      | cons k ks =>
        simp only [countsAgree, Bool.and_eq_true] at h
        simp [groupsIn, ih ks h.2]

/-- The counts the walk finds give a `Remaining` group what is left of the budget. -/
theorem remainingFills_walkCounts (dw : Memory 24) (lim : Nat) (items : List Item) (vals : List Int) (o : Nat) :
    remainingFills items (walkCounts dw lim items vals o) (lim - o) = true := by
  induction items generalizing vals o with
  | nil => rfl
  | cons it items ih =>
    cases it with
    | field fd => simp only [walkCounts, remainingFills, Nat.sub_sub]; exact ih _ _
    | group src fds =>
      simp only [walkCounts, remainingFills, Nat.sub_sub, Bool.and_eq_true]
      refine ⟨?_, ih _ _⟩
      cases src <;> simp

/-- Counts that lay out fields filling the bits exactly give a `Remaining` group what is left of them. -/
theorem remainingFills_of_fit (d : Descriptor) (p : Nat) (items : List Item) (ks : List Nat) (left : Nat)
    (hwf : itemsWellFormed d p items = true) (hk : ks.length = groupsIn items)
    (hfit : elemBits (expandItems items ks) = left) : remainingFills items ks left = true := by
  induction items generalizing p ks left with
  | nil => rfl
  | cons it items ih =>
    rw [itemsWellFormed_cons] at hwf
    cases it with
    | field fd =>
      simp only [expandItems_field, elemBits_cons] at hfit
      exact ih _ ks _ hwf.2 hk (by omega)
    | group src fds =>
      obtain ⟨hne, hall, _, hrem⟩ := itemWellFormed_group d _ _ src fds hwf.1
      cases ks with
      | nil => simp [groupsIn] at hk
      | cons k ks =>
        simp only [groupsIn, List.length_cons, Nat.add_right_cancel_iff] at hk
        simp only [expandItems_group, elemBits_append, elemBits_flatten_replicate] at hfit
        simp only [remainingFills, Bool.and_eq_true]
        refine ⟨?_, ih _ ks _ hwf.2 hk (by omega)⟩
        cases src with
        | const n => rfl
        | field q => rfl
        | remaining =>
          have hl := hrem rfl
          simp only [List.isEmpty_iff] at hl
          subst hl
          simp only [expandItems_nil, elemBits_nil, Nat.add_zero] at hfit
          simp only [beq_iff_eq]
          rw [← hfit, Nat.mul_div_cancel _ (elemBits_pos fds hne hall)]

/-- Counts that agree with a payload the data carry, and that give a `Remaining` group what is left of the budget, are those
the walk finds. -/
theorem walkCounts_of_fills_from (dw : Memory 24) (lim : Nat) (d pre items : List Item) (kp ks : List Nat)
    (vals : List Int) (o : Nat) (val : Nat → Int) (hd : d = pre ++ items)
    (hwf : itemsWellFormed d pre.length items = true) (hk : kp.length = groupsIn pre)
    (ho : o = 48 + elemBits (expandItems pre kp)) (hv : valsMatch pre kp vals val)
    (hc : carries dw (expandItems d (kp ++ ks)) val = true) (ha : countsAgree d (kp ++ ks) val items ks = true)
    (hfill : remainingFills items ks (lim - o) = true) :
    walkCounts dw lim items vals o = ks := by
  induction items generalizing pre kp ks vals o with
  | nil =>
    have := countsAgree_length _ _ _ _ _ ha
    rw [List.length_eq_zero_iff.1 this]; rfl
  | cons it items ih =>
    rw [itemsWellFormed_cons] at hwf
    cases it with
    | field fd =>
      have hval : val (expandItems pre kp).length = fieldValue dw fd o := by
        rw [hd, expandItems_append _ _ _ _ hk, expandItems_field] at hc
        rw [carries_at dw _ _ fd val hc, ho]
      have hw : walkCounts dw lim (.field fd :: items) vals o =
          walkCounts dw lim items (vals ++ [val (expandItems pre kp).length]) (o + fd.width) := by
        rw [hval]; rfl
      rw [hw]
      exact ih (pre ++ [.field fd]) kp ks _ _ (by simp [hd]) (by simpa using hwf.2)
        (by simp [groupsIn_append, groupsIn, hk])
        (by
          have := expandItems_append pre [.field fd] kp [] hk
          simp at this
          rw [this, ho]; simp; omega)
        (valsMatch_field pre kp vals val fd hv) hc ha (by rw [Nat.sub_add_eq]; exact hfill)
    | group src fds =>
      obtain ⟨_, _, hsrc, _⟩ := itemWellFormed_group d _ _ src fds hwf.1
      cases ks with
      | nil => simp [countsAgree] at ha
      | cons k ks =>
        simp only [countsAgree, Bool.and_eq_true] at ha
        simp only [remainingFills, Bool.and_eq_true] at hfill
        have hkk : walkCounts dw lim (.group src fds :: items) vals o =
            k :: walkCounts dw lim items (vals ++ [0]) (o + k * elemBits fds) := by
          cases src with
          | const n => have := ha.1; simp at this; subst this; rfl
          | field q =>
            obtain ⟨fd, hq, hlt, hs, hm⟩ := hsrc q rfl
            have h1 := valsMatch_source pre (.group (.field q) fds :: items) kp (k :: ks) vals val q fd hlt
              (hd ▸ hq) hk hv
            rw [← hd] at h1
            have h2 := ha.1
            simp only [beq_iff_eq] at h2
            rw [← h1] at h2
            simp only [walkCounts]
            rw [← h2]; rfl
          | remaining =>
            have := hfill.1
            simp only [beq_iff_eq] at this
            simp only [walkCounts, ← this]
        rw [hkk]
        congr 1
        have e : kp ++ k :: ks = (kp ++ [k]) ++ ks := by simp
        rw [e] at hc ha
        exact ih (pre ++ [.group src fds]) (kp ++ [k]) ks (vals ++ [0]) _ (by simp [hd]) (by simpa using hwf.2)
          (by simp [groupsIn_append, groupsIn, hk])
          (by rw [expandItems_append _ _ _ _ hk, ho]; simp; omega)
          (valsMatch_group pre kp vals val src fds k hk hv) hc ha.2 (by rw [Nat.sub_add_eq]; exact hfill.2)

/-- Counts that agree with the data and give a `Remaining` group what is left of the budget are those the walk finds. -/
theorem walkCounts_of_fills (dw : Memory 24) (lim : Nat) (d : Descriptor) (ks : List Nat) (val : Nat → Int)
    (hwf : itemsWellFormed d 0 d = true) (hc : carries dw (expandItems d ks) val = true)
    (ha : countsAgree d ks val d ks = true) (hfill : remainingFills d ks (lim - 48) = true) :
    walkCounts dw lim d [] 48 = ks :=
  walkCounts_of_fills_from dw lim d [] d [] ks [] 48 val rfl hwf rfl rfl (valsMatch_nil val) hc ha hfill

/-- Counts that agree with the data and fill the budget exactly are those the walk finds. -/
theorem walkCounts_unique (dw : Memory 24) (lim : Nat) (d : Descriptor) (ks : List Nat) (val : Nat → Int)
    (hwf : itemsWellFormed d 0 d = true) (hc : carries dw (expandItems d ks) val = true)
    (ha : countsAgree d ks val d ks = true) (hfit : 48 + elemBits (expandItems d ks) = lim) :
    walkCounts dw lim d [] 48 = ks :=
  walkCounts_of_fills dw lim d ks val hwf hc ha
    (remainingFills_of_fit d 0 d ks _ hwf (countsAgree_length _ _ _ _ _ ha) (by omega))

/-- Counts that agree with data are counts the length check may try (R150). -/
theorem admissibleCounts_of_agree (dw : Memory 24) (d : Descriptor) (counts : List Nat) (val : Nat → Int) (p : Nat)
    (items : List Item) (ks : List Nat) (hwf : itemsWellFormed d p items = true)
    (hl : counts.length = groupsIn d) (hc : carries dw (expandItems d counts) val = true)
    (ha : countsAgree d counts val items ks = true) : admissibleCounts d items ks := by
  induction items generalizing p ks with
  | nil => simpa [countsAgree, admissibleCounts] using ha
  | cons it items ih =>
    rw [itemsWellFormed_cons] at hwf
    cases it with
    | field fd => exact ih _ ks hwf.2 ha
    | group src fds =>
      obtain ⟨_, _, hsrc, _⟩ := itemWellFormed_group d _ _ src fds hwf.1
      cases ks with
      | nil => simp [countsAgree] at ha
      | cons k ks =>
        simp only [countsAgree, Bool.and_eq_true] at ha
        refine ⟨?_, ih _ ks hwf.2 ha.2⟩
        cases src with
        | const n => simpa using ha.1
        | remaining => trivial
        | field q =>
          obtain ⟨fd, hq, _, hs, hm⟩ := hsrc q rfl
          obtain ⟨o, ho⟩ := val_entryOfItem dw d counts val q fd hq hl hc
          have h1 := ha.1
          simp only [beq_iff_eq] at h1
          have h2 := fieldValue_source_le dw fd o hs hm
          simp only [sourceWidth, hq]
          rw [← ho, ← h1] at h2
          simpa using h2

end Sys2Proof.Machine
end

