-- ==== Sys2Proof/Laws/Encoding.lean ====
section
/-! SUPPORT. The command word as a number: what the formats of spec/30_encoding.md R96 lay out, and what the fields read. -/

namespace Sys2Proof

theorem toNat_append_eq {n m : Nat} (x : BitVec n) (y : BitVec m) :
    (x ++ y).toNat = x.toNat * 2 ^ m + y.toNat := by
  rw [BitVec.toNat_append, ← Nat.shiftLeft_add_eq_or_of_lt y.isLt, Nat.shiftLeft_eq]

theorem toNat_cwField (cw : Word) (lo n : Nat) : (cwField cw lo n).toNat = cw.toNat / 2 ^ lo % 2 ^ n := by
  rw [cwField, BitVec.extractLsb'_toNat, Nat.shiftRight_eq_div_pow]

theorem cwField_eq_iff (cw : Word) (lo n : Nat) (x : BitVec n) :
    cwField cw lo n = x ↔ cw.toNat / 2 ^ lo % 2 ^ n = x.toNat := by
  rw [← BitVec.toNat_inj, toNat_cwField]

theorem toNat_encodeN (op : BitVec 8) : (encodeN op).toNat = op.toNat * 2 ^ 24 :=
  (toNat_append_eq op 0#24).trans (by rw [BitVec.toNat_ofNat]; omega)

theorem toNat_encodeA (op : BitVec 8) (space : BitVec 4) (idx : BitVec 10) :
    (encodeA op space idx).toNat = op.toNat * 2 ^ 24 + space.toNat * 2 ^ 20 + idx.toNat :=
  (toNat_append_eq (op ++ space ++ 0#10) idx).trans (by
    rw [toNat_append_eq, toNat_append_eq, BitVec.toNat_ofNat]; omega)

theorem toNat_encodeC (op : BitVec 8) (sgn : Bool) (width : BitVec 5) :
    (encodeC op sgn width).toNat = op.toNat * 2 ^ 24 + sgn.toNat * 2 ^ 8 + width.toNat :=
  (toNat_append_eq (op ++ 0#15 ++ BitVec.ofBool sgn ++ 0#3) width).trans (by
    rw [toNat_append_eq, toNat_append_eq, toNat_append_eq, BitVec.toNat_ofBool, BitVec.toNat_ofNat,
      BitVec.toNat_ofNat]; omega)

theorem toNat_encodeW (op : BitVec 8) (widx : BitVec 6) :
    (encodeW op widx).toNat = op.toNat * 2 ^ 24 + widx.toNat :=
  (toNat_append_eq (op ++ 0#18) widx).trans (by rw [toNat_append_eq, BitVec.toNat_ofNat]; omega)

theorem toNat_encodeL (op : BitVec 8) (mtype : BitVec 6) (count : BitVec 5) :
    (encodeL op mtype count).toNat = op.toNat * 2 ^ 24 + mtype.toNat * 2 ^ 8 + count.toNat :=
  (toNat_append_eq (op ++ 0#10 ++ mtype ++ 0#3) count).trans (by
    rw [toNat_append_eq, toNat_append_eq, toNat_append_eq, BitVec.toNat_ofNat, BitVec.toNat_ofNat]; omega)

/-! ### What each format's decoding answers, in numbers -/

theorem decodeN_eq (cw : Word) (i : Instr) :
    decodeN cw i = if cw.toNat % 2 ^ 24 = 0 then .ok i else .error .mustBeZeroBitSet := by
  simp only [decodeN, cwField_eq_iff, BitVec.toNat_ofNat, Nat.zero_mod, Nat.pow_zero, Nat.div_one]

theorem decodeA_ok_iff (cw : Word) (mk : BitVec 4 → BitVec 10 → Instr) (i : Instr) :
    decodeA cw mk = .ok i ↔ cw.toNat / 2 ^ 10 % 2 ^ 10 = 0 ∧
      i = mk (BitVec.ofNat 4 (cw.toNat / 2 ^ 20)) (BitVec.ofNat 10 cw.toNat) := by
  have h1 : cwField cw 20 4 = BitVec.ofNat 4 (cw.toNat / 2 ^ 20) := by simp [cwField_eq_iff]
  have h2 : cwField cw 0 10 = BitVec.ofNat 10 cw.toNat := by simp [cwField_eq_iff]
  rw [decodeA, h1, h2]
  simp only [cwField_eq_iff, BitVec.toNat_ofNat, Nat.zero_mod]
  split
  · rename_i h
    exact ⟨fun e => ⟨h, (Except.ok.inj e).symm⟩, fun e => e.2 ▸ rfl⟩
  · rename_i h
    exact ⟨(fun e => nomatch e), fun e => absurd e.1 h⟩

theorem decodeC_ok_iff (cw : Word) (mk : Bool → BitVec 5 → Instr) (i : Instr) :
    decodeC cw mk = .ok i ↔ cw.toNat / 2 ^ 9 % 2 ^ 15 = 0 ∧ cw.toNat / 2 ^ 5 % 2 ^ 3 = 0 ∧
      i = mk (cw.toNat.testBit 8) (BitVec.ofNat 5 cw.toNat) := by
  have h2 : cwField cw 0 5 = BitVec.ofNat 5 cw.toNat := by simp [cwField_eq_iff]
  rw [decodeC, h2]
  simp only [cwField_eq_iff, BitVec.toNat_ofNat, Nat.zero_mod, BitVec.testBit_toNat]
  split
  · rename_i h
    exact ⟨fun e => ⟨h.1, h.2, (Except.ok.inj e).symm⟩, fun e => e.2.2 ▸ rfl⟩
  · rename_i h
    exact ⟨(fun e => nomatch e), fun e => absurd ⟨e.1, e.2.1⟩ h⟩

theorem decodeW_ok_iff (cw : Word) (mk : BitVec 6 → Instr) (i : Instr) :
    decodeW cw mk = .ok i ↔ cw.toNat / 2 ^ 6 % 2 ^ 18 = 0 ∧ i = mk (BitVec.ofNat 6 cw.toNat) := by
  have h2 : cwField cw 0 6 = BitVec.ofNat 6 cw.toNat := by simp [cwField_eq_iff]
  rw [decodeW, h2]
  simp only [cwField_eq_iff, BitVec.toNat_ofNat, Nat.zero_mod]
  split
  · rename_i h
    exact ⟨fun e => ⟨h, (Except.ok.inj e).symm⟩, fun e => e.2 ▸ rfl⟩
  · rename_i h
    exact ⟨(fun e => nomatch e), fun e => absurd e.1 h⟩

theorem decodeL_ok_iff (cw : Word) (mk : BitVec 6 → BitVec 5 → Instr) (i : Instr) :
    decodeL cw mk = .ok i ↔ cw.toNat / 2 ^ 14 % 2 ^ 10 = 0 ∧ cw.toNat / 2 ^ 5 % 2 ^ 3 = 0 ∧
      i = mk (BitVec.ofNat 6 (cw.toNat / 2 ^ 8)) (BitVec.ofNat 5 cw.toNat) := by
  have h1 : cwField cw 8 6 = BitVec.ofNat 6 (cw.toNat / 2 ^ 8) := by simp [cwField_eq_iff]
  have h2 : cwField cw 0 5 = BitVec.ofNat 5 cw.toNat := by simp [cwField_eq_iff]
  rw [decodeL, h1, h2]
  simp only [cwField_eq_iff, BitVec.toNat_ofNat, Nat.zero_mod]
  split
  · rename_i h
    exact ⟨fun e => ⟨h.1, h.2, (Except.ok.inj e).symm⟩, fun e => e.2.2 ▸ rfl⟩
  · rename_i h
    exact ⟨(fun e => nomatch e), fun e => absurd ⟨e.1, e.2.1⟩ h⟩

end Sys2Proof
end

