-- ==== Sys2Proof/Laws/Length.lean ====
section
/-! SUPPORT. What the Length Validator's search finds (spec/42_length_validator.md R150). -/

namespace Sys2Proof.Machine

/-- Counts for a list of variable groups: one for each, none above the group's largest. -/
def boundedCounts : List (Nat × Option Nat) → List Nat → Prop
  | [], ks => ks = []
  | _ :: _, [] => False
  | (_, most) :: rest, k :: ks => (∀ m, most = some m → k ≤ m) ∧ boundedCounts rest ks

/-- The bits that counts for a list of variable groups take. -/
def countedBits : List (Nat × Option Nat) → List Nat → Nat
  | (e, _) :: rest, k :: ks => k * e + countedBits rest ks
  | _, _ => 0

/-- The search succeeds exactly when some counts within their bounds take the bits there are. -/
theorem countsFill_iff (vars : List (Nat × Option Nat)) (bits : Nat) :
    countsFill vars bits = true ↔ ∃ ks, boundedCounts vars ks ∧ countedBits vars ks = bits := by
  induction vars generalizing bits with
  | nil =>
    simp only [countsFill, boundedCounts, countedBits, beq_iff_eq, exists_eq_left]
    exact ⟨Eq.symm, Eq.symm⟩
  | cons g rest ih =>
    obtain ⟨e, most⟩ := g
    simp only [countsFill, List.any_eq_true, List.mem_range, Bool.and_eq_true, decide_eq_true_eq, ih]
    constructor
    · rintro ⟨k, hk, hb, ks, h1, h2⟩
      refine ⟨k :: ks, ⟨?_, h1⟩, ?_⟩
      · rintro m rfl
        simp only [countBound] at hk; omega
      · simp only [countedBits, h2]; omega
    · rintro ⟨ks, h1, h2⟩
      cases ks with
      | nil => exact absurd h1 (by simp [boundedCounts])
      | cons k ks =>
        simp only [countedBits] at h2
        rcases Nat.eq_zero_or_pos e with he | he
        · subst he
          exact ⟨0, by omega, by omega, ks, h1.2, by omega⟩
        · have hk : k ≤ bits / e := (Nat.le_div_iff_mul_le he).2 (by omega)
          refine ⟨k, ?_, by omega, ks, h1.2, by omega⟩
          cases most with
          | none => simp only [countBound]; omega
          | some m => have := h1.1 m rfl; simp only [countBound]; omega

/-- The sizes of R150 against the flat field list: a length passes exactly when admissible counts give it. -/
theorem countsFill_varGroups_iff (d : Descriptor) (items : List Item) (bits : Nat) :
    (fixedBits items ≤ bits ∧ countsFill (varGroups d items) (bits - fixedBits items) = true) ↔
      ∃ ks, admissibleCounts d items ks ∧ elemBits (expandItems items ks) = bits := by
  simp only [countsFill_iff]
  induction items generalizing bits with
  | nil => simp [fixedBits, varGroups, boundedCounts, countedBits, admissibleCounts]
  | cons it items ih =>
    cases it with
    | field fd =>
      simp only [fixedBits, varGroups, admissibleCounts, expandItems_field, elemBits_cons]
      constructor
      · rintro ⟨hb, ks, h1, h2⟩
        obtain ⟨ks', h3, h4⟩ := (ih (bits - fd.width)).1 ⟨by omega, ks, h1, by omega⟩
        exact ⟨ks', h3, by omega⟩
      · rintro ⟨ks, h1, h2⟩
        obtain ⟨hb, ks', h3, h4⟩ := (ih (bits - fd.width)).2 ⟨ks, h1, by omega⟩
        exact ⟨by omega, ks', h3, by omega⟩
    | group src fds =>
      cases src with
      | const n =>
        simp only [fixedBits, varGroups]
        constructor
        · rintro ⟨hb, ks, h1, h2⟩
          obtain ⟨ks', h3, h4⟩ := (ih (bits - n * elemBits fds)).1 ⟨by omega, ks, h1, by omega⟩
          exact ⟨n :: ks', ⟨rfl, h3⟩, by simp; omega⟩
        · rintro ⟨ks, h1, h2⟩
          cases ks with
          | nil => exact absurd h1 (by simp [admissibleCounts])
          | cons k ks =>
            obtain ⟨rfl, h1⟩ := h1
            simp at h2
            obtain ⟨hb, ks', h3, h4⟩ := (ih (bits - k * elemBits fds)).2 ⟨ks, h1, by omega⟩
            exact ⟨by omega, ks', h3, by omega⟩
      | field q =>
        simp only [fixedBits, varGroups]
        constructor
        · rintro ⟨hb, ks, h1, h2⟩
          cases ks with
          | nil => exact absurd h1 (by simp [boundedCounts])
          | cons k ks =>
            simp only [countedBits] at h2
            obtain ⟨ks', h3, h4⟩ := (ih (bits - k * elemBits fds)).1 ⟨by omega, ks, h1.2, by omega⟩
            exact ⟨k :: ks', ⟨h1.1 _ rfl, h3⟩, by simp; omega⟩
        · rintro ⟨ks, h1, h2⟩
          cases ks with
          | nil => exact absurd h1 (by simp [admissibleCounts])
          | cons k ks =>
            simp at h2
            obtain ⟨hb, ks', h3, h4⟩ := (ih (bits - k * elemBits fds)).2 ⟨ks, h1.2, by omega⟩
            exact ⟨by omega, k :: ks', ⟨by rintro m ⟨⟩; exact h1.1, h3⟩, by simp only [countedBits]; omega⟩
      | remaining =>
        simp only [fixedBits, varGroups]
        constructor
        · rintro ⟨hb, ks, h1, h2⟩
          cases ks with
          | nil => exact absurd h1 (by simp [boundedCounts])
          | cons k ks =>
            simp only [countedBits] at h2
            obtain ⟨ks', h3, h4⟩ := (ih (bits - k * elemBits fds)).1 ⟨by omega, ks, h1.2, by omega⟩
            exact ⟨k :: ks', ⟨trivial, h3⟩, by simp; omega⟩
        · rintro ⟨ks, h1, h2⟩
          cases ks with
          | nil => exact absurd h1 (by simp [admissibleCounts])
          | cons k ks =>
            simp at h2
            obtain ⟨hb, ks', h3, h4⟩ := (ih (bits - k * elemBits fds)).2 ⟨ks, h1.2, by omega⟩
            exact ⟨by omega, k :: ks', ⟨by rintro m ⟨⟩, h3⟩, by simp only [countedBits]; omega⟩

/-- `lcheck` (R150): an unknown type always passes; a known one when admissible counts fill the declared words. -/
theorem lcheck_iff (cfg : Config) (c : BitVec 5) (t : BitVec 6) :
    lcheck cfg c t = true ↔ ∀ d, descOf cfg t = some d →
      ∃ ks, admissibleCounts d d ks ∧ elemBits (expandItems d ks) = 24 * c.toNat := by
  unfold lcheck
  cases h : descOf cfg t with
  | none => simp
  | some d =>
    simp only [Bool.and_eq_true, decide_eq_true_eq, countsFill_varGroups_iff, Option.some.injEq]
    constructor
    · rintro hk d' rfl; exact hk
    · intro hk; exact hk d rfl

end Sys2Proof.Machine
end

