-- ==== Sys2Proof/Laws/UnpackRun.lean ====
section
/-! SUPPORT. UNPACK as one equation (spec/43_unpacker.md R162 to R168), and what it leaves. -/

namespace Sys2Proof.Machine

/-- The data of a container, complemented when bit 30 is set (R82). -/
theorem stripWord_eq (w : RawWord) :
    stripWord w = if w.getLsbD 30 then ~~~(w.extractLsb' 6 24) else w.extractLsb' 6 24 := by
  unfold stripWord inv transmittedData
  cases w.getLsbD 30
  · simp
  · simp only [if_true]
    apply BitVec.eq_of_getLsbD_eq
    intro i hi
    rw [BitVec.getLsbD_xor, BitVec.getLsbD_not, show (0xFFFFFF#24) = BitVec.allOnes 24 by decide, BitVec.getLsbD_allOnes]
    simp [hi]

/-- The state before the payload: the data view made, the header registers set, the cursor after the header, the budget at
the end of the declared words (R162, R163). -/
def headerRead (s : State) : State :=
  { stripWords s with
    off := 48, lim := BitVec.ofNat 10 (24 * (2 + (headerCount (s.rw.read 1)).toNat)),
    mtype := headerType (s.rw.read 0), stid := (stripWord (s.rw.read 0)).extractLsb' 0 10,
    zcnt := (stripWord (s.rw.read 1)).extractLsb' 11 13, seq := (stripWord (s.rw.read 1)).extractLsb' 8 3,
    len := headerCount (s.rw.read 1), health := (stripWord (s.rw.read 1)).extractLsb' 0 3 }

theorem headerRead_lim (s : State) : (headerRead s).lim.toNat = 24 * (2 + (headerCount (s.rw.read 1)).toNat) := by
  have := (headerCount (s.rw.read 1)).isLt
  show (BitVec.ofNat 10 _).toNat = _
  rw [BitVec.toNat_ofNat, Nat.mod_eq_of_lt (by omega)]

/-- The fields of the payload UNPACK finds in the raw sequence, for a descriptor. -/
def foundFields (s : State) (d : Descriptor) : List FieldDesc :=
  expandItems d (walkCounts (stripWords s).dw (24 * (2 + (headerCount (s.rw.read 1)).toNat)) d [] 48)

/-- The state after a successful walk and exact fit (R166, R167). -/
def typedState (s : State) (fds : List FieldDesc) : State :=
  { storeValues (headerRead s) 0 (48 + elemBits fds) (fieldValues (stripWords s).dw fds 48) with
    nv := BitVec.ofNat 10 fds.length, tag := .typed }

/-- UNPACK's `try` part, from the words of the sequence. -/
theorem unpackRun_eq (s : State) :
    unpackRun s =
      if s.nw.toNat < 2 then .error .truncated
      else if s.nw.toNat < 2 + (headerCount (s.rw.read 1)).toNat then .error .truncated
      else if 2 + (headerCount (s.rw.read 1)).toNat < s.nw.toNat then .error .trailingBits
      else
        match descOf s.cfg (headerType (s.rw.read 0)) with
        | none => .ok (unpackOpaque (headerRead s))
        | some d =>
          if lcheck s.cfg (headerCount (s.rw.read 1)) (headerType (s.rw.read 0)) then
            if 24 * (2 + (headerCount (s.rw.read 1)).toNat) < 48 + elemBits (foundFields s d) then .error .truncated
            else if 48 + elemBits (foundFields s d) < 24 * (2 + (headerCount (s.rw.read 1)).toNat) then .error .trailingBits
            else .ok (typedState s (foundFields s d))
          else .error .badLength := by
  unfold unpackRun
  by_cases h2 : s.nw.toNat < 2
  · rw [if_pos h2]; unfold unpackHeader; rw [if_pos h2]; rfl
  rw [if_neg h2, unpackHeader_eq s (by omega), ok_bind]
  unfold unpackCount
  show (if s.nw.toNat < 2 + (headerCount (s.rw.read 1)).toNat then _ else
    if 2 + (headerCount (s.rw.read 1)).toNat < s.nw.toNat then _ else _ : Except ErrKind State) >>= _ = _
  by_cases h3 : s.nw.toNat < 2 + (headerCount (s.rw.read 1)).toNat
  · rw [if_pos h3, if_pos h3]; rfl
  rw [if_neg h3, if_neg h3]
  by_cases h4 : 2 + (headerCount (s.rw.read 1)).toNat < s.nw.toNat
  · rw [if_pos h4, if_pos h4]; rfl
  rw [if_neg h4, if_neg h4, ok_bind]
  show (match descOf s.cfg (headerType (s.rw.read 0)) with
    | none => (Except.ok (unpackOpaque (headerRead s)) : Except ErrKind State)
    | some d => unpackTyped (headerRead s) d >>= fun r => unpackFinish r.2 r.1) = _
  cases descOf s.cfg (headerType (s.rw.read 0)) with
  | none => rfl
  | some d =>
    simp only
    unfold unpackTyped
    show (if lcheck s.cfg (headerCount (s.rw.read 1)) (headerType (s.rw.read 0)) = true then _ else _) >>= _ = _
    by_cases hl : lcheck s.cfg (headerCount (s.rw.read 1)) (headerType (s.rw.read 0)) = true
    · rw [if_pos hl, if_pos hl]
      have hlim := headerRead_lim s
      have hoff : (headerRead s).off.toNat = 48 := rfl
      rw [walkItems_eq _ _ _ _ (by rw [hlim, hoff]; omega)]
      simp only [hlim, hoff, Nat.zero_add]
      show (if 48 + elemBits (foundFields s d) ≤ _ then
        Except.ok ((foundFields s d).length, storeValues (headerRead s) 0 (48 + elemBits (foundFields s d))
          (fieldValues (stripWords s).dw (foundFields s d) 48)) else _) >>= _ = _
      by_cases h5 : 48 + elemBits (foundFields s d) ≤ 24 * (2 + (headerCount (s.rw.read 1)).toNat)
      · rw [if_pos h5, if_neg (by omega), ok_bind]
        have ho : (BitVec.ofNat 10 (48 + elemBits (foundFields s d))).toNat = 48 + elemBits (foundFields s d) :=
          offset_toNat (headerRead s) _ (by rw [hlim]; exact h5)
        unfold unpackFinish
        simp only [storeValues_off, storeValues_lim, ← BitVec.toNat_inj, ho, hlim]
        by_cases h6 : 48 + elemBits (foundFields s d) = 24 * (2 + (headerCount (s.rw.read 1)).toNat)
        · rw [if_pos h6, if_neg (by omega)]; rfl
        · rw [if_neg h6, if_pos (by omega)]
      · rw [if_neg h5, if_pos (by omega)]; rfl
    · rw [if_neg hl, if_neg hl]; rfl

/-- All that UNPACK can write, whatever its outcome: every other field is kept. -/
theorem unpackMessage_frame (s : State) :
    (unpackMessage s).1 =
      let t := (unpackMessage s).1
      { s with off := t.off, lim := t.lim, tag := t.tag, mtype := t.mtype, stid := t.stid, zcnt := t.zcnt, seq := t.seq,
               len := t.len, health := t.health, nv := t.nv, dw := t.dw, v := t.v, opq := t.opq, draws := t.draws } := by
  have h := unpackRun_eq s
  unfold unpackMessage
  cases hr : unpackRun s with
  | error e => rfl
  | ok t =>
    rw [hr] at h
    split at h
    · cases h
    split at h
    · cases h
    split at h
    · cases h
    split at h
    · cases h; rfl
    split at h
    · split at h
      · cases h
      split at h
      · cases h
      cases h; rfl
    · cases h

/-- The fields UNPACK finds in a payload that fills its words are at most 744 (R93). -/
theorem length_le_elemBits (fds : List FieldDesc) (h : ∀ fd ∈ fds, 1 ≤ fd.width) : fds.length ≤ elemBits fds := by
  induction fds with
  | nil => simp
  | cons fd fds ih =>
    have := h fd (by simp)
    have := ih fun f hf => h f (by simp [hf])
    simp; omega

/-- Every field a well-formed descriptor lays out is a well-formed field. -/
theorem expandItems_wellFormed (d : Descriptor) (p : Nat) (items : List Item) (ks : List Nat)
    (hwf : itemsWellFormed d p items = true) : ∀ fd ∈ expandItems items ks, fieldWellFormed fd = true := by
  induction items generalizing p ks with
  | nil => simp
  | cons it items ih =>
    rw [itemsWellFormed_cons] at hwf
    intro fd hfd
    cases it with
    | field f =>
      rw [expandItems_field, List.mem_cons] at hfd
      rcases hfd with rfl | hfd
      · exact hwf.1
      · exact ih _ ks hwf.2 fd hfd
    | group src fds =>
      obtain ⟨_, hall, _, _⟩ := itemWellFormed_group d _ _ src fds hwf.1
      cases ks with
      | nil => exact ih _ [] hwf.2 fd hfd
      | cons k ks =>
        rw [expandItems_group, List.mem_append] at hfd
        rcases hfd with hfd | hfd
        · rw [List.all_eq_true] at hall
          simp only [List.mem_flatten, List.mem_replicate] at hfd
          obtain ⟨l, ⟨_, rfl⟩, hm⟩ := hfd
          exact hall fd hm
        · exact ih _ ks hwf.2 fd hfd

/-- A signed value of a well-formed field is a 32-bit signed value (R89 (2), R35). -/
theorem toInt_ofInt_fieldValue (dw : Memory 24) (fd : FieldDesc) (o : Nat) (h : fieldWellFormed fd = true) :
    (BitVec.ofInt 32 (fieldValue dw fd o)).toInt = fieldValue dw fd o := by
  obtain ⟨hw, _, hm⟩ := fieldWellFormed_width fd h
  have hf := fitsField_patternValue fd.width fd.signed (memRead dw o fd.width) hw (memRead_lt dw o fd.width)
  unfold fieldValue
  generalize patternValue fd.width fd.signed (memRead dw o fd.width) = x at *
  have hb : -2 ^ 31 ≤ x * (fd.mul : Int) ∧ x * (fd.mul : Int) ≤ 2 ^ 31 - 1 := by
    simp only [fieldWellFormed, Bool.and_eq_true] at h
    have h2 := h.2
    have hm' : (1 : Int) ≤ fd.mul := by exact_mod_cast hm
    unfold fitsField at hf
    split at h2
    · rename_i hs
      simp only [hs, if_true, decide_eq_true_eq] at hf h2
      have h2' : (2 : Int) ^ (fd.width - 1) * fd.mul ≤ 2 ^ 31 := by exact_mod_cast h2
      constructor
      · nlinarith [hf.1]
      · nlinarith [hf.2]
    · rename_i hs
      simp only [Bool.not_eq_true] at hs
      simp only [hs, Bool.false_eq_true, if_false, decide_eq_true_eq] at hf h2
      have hp : 1 ≤ 2 ^ fd.width := Nat.one_le_two_pow
      have h2' : ((2 : Int) ^ fd.width - 1) * fd.mul ≤ 2 ^ 31 - 1 := by
        have : ((2 ^ fd.width - 1 : Nat) : Int) * fd.mul ≤ ((2 ^ 31 - 1 : Nat) : Int) := by exact_mod_cast h2
        push_cast [hp] at this
        simpa using this
      constructor
      · nlinarith [hf.1]
      · nlinarith [hf.2]
  rw [BitVec.toInt_ofInt, Int.bmod_eq_of_le] <;> omega

end Sys2Proof.Machine
end

