-- ==== Sys2Proof/Laws/Seal.lean ====
section
/-! SUPPORT. What `seal` makes (spec/44_repacker.md R180, R181), field by field of the container (spec/30_encoding.md R80). -/

namespace Sys2Proof.Machine

/-! ### One container -/

theorem parity_congr (cfg cfg' : Config) (h : cfg.par = cfg'.par) (p29 p30 : BitVec 1) (d : DataWord) :
    parity cfg p29 p30 d = parity cfg' p29 p30 d := by unfold parity; rw [h]

/-- Bits 31 and 30 of a sealed container are its context. -/
theorem sealWord_context (cfg : Config) (ctx : BitVec 2) (d : DataWord) :
    (sealWord cfg ctx d).extractLsb' 30 2 = ctx := by
  unfold sealWord
  generalize parity cfg _ _ d = p
  apply BitVec.eq_of_getLsbD_eq
  intro i hi
  simp only [BitVec.getLsbD_extractLsb', BitVec.getLsbD_append]
  rcases (by omega : i = 0 ∨ i = 1) with rfl | rfl <;> simp

theorem sealWord_parity (cfg : Config) (ctx : BitVec 2) (d : DataWord) :
    (sealWord cfg ctx d).extractLsb' 0 6 = parity cfg (ctx.extractLsb' 1 1) (ctx.extractLsb' 0 1) d := by
  simp only [sealWord]
  generalize parity cfg _ _ d = p
  apply BitVec.eq_of_getLsbD_eq
  intro i hi
  simp only [BitVec.getLsbD_extractLsb', BitVec.getLsbD_append]
  simp [hi]

/-- The data bits of a sealed container are the data, complemented under `p30 = 1`. -/
theorem sealWord_data (cfg : Config) (ctx : BitVec 2) (d : DataWord) :
    (sealWord cfg ctx d).extractLsb' 6 24 = d ^^^ (if ctx.getLsbD 0 then 0xFFFFFF#24 else 0x000000#24) := by
  unfold sealWord
  generalize parity cfg _ _ d = p
  have hc : (ctx.extractLsb' 0 1 = 1#1) = (ctx.getLsbD 0 = true) := by
    apply propext
    rw [← BitVec.toNat_inj]
    constructor
    · intro h
      have : (ctx.extractLsb' 0 1).getLsbD 0 = true := by rw [BitVec.eq_of_toNat_eq h]; rfl
      simpa [BitVec.getLsbD_extractLsb'] using this
    · intro h
      have h1 : (ctx.extractLsb' 0 1).getLsbD 0 = true := by simpa [BitVec.getLsbD_extractLsb'] using h
      have : ∀ x : BitVec 1, x.getLsbD 0 = true → x.toNat = 1 := by decide
      exact this _ h1
  simp only [hc]
  apply BitVec.eq_of_getLsbD_eq
  intro i hi
  simp only [BitVec.getLsbD_extractLsb', BitVec.getLsbD_append]
  simp [hi, show ¬ 6 + i < 6 by omega, show 6 + i - 6 = i by omega]

theorem sealWord_inv (cfg : Config) (ctx : BitVec 2) (d : DataWord) :
    (sealWord cfg ctx d).getLsbD 30 = ctx.getLsbD 0 := by
  have h := congrArg (fun x => x.getLsbD 0) (sealWord_context cfg ctx d)
  simpa [BitVec.getLsbD_extractLsb'] using h

theorem xor_xor_self (d x : DataWord) : d ^^^ x ^^^ x = d := by
  rw [BitVec.xor_assoc, BitVec.xor_self, BitVec.xor_zero]

/-- STRIP undoes SEAL, word by word (R180). -/
theorem stripWord_sealWord (cfg : Config) (ctx : BitVec 2) (d : DataWord) : stripWord (sealWord cfg ctx d) = d := by
  unfold stripWord inv transmittedData
  rw [sealWord_inv, sealWord_data, xor_xor_self]

/-- A container is made of its context, its data bits and its parity bits (R80). -/
theorem container_ext (w w' : RawWord) (h1 : w.extractLsb' 30 2 = w'.extractLsb' 30 2)
    (h2 : w.extractLsb' 6 24 = w'.extractLsb' 6 24) (h3 : w.extractLsb' 0 6 = w'.extractLsb' 0 6) : w = w' := by
  apply BitVec.eq_of_getLsbD_eq
  intro i hi
  by_cases hi1 : i < 6
  · have := congrArg (fun x => x.getLsbD i) h3
    simpa [BitVec.getLsbD_extractLsb', hi1] using this
  by_cases hi2 : i < 30
  · have := congrArg (fun x => x.getLsbD (i - 6)) h2
    simpa [BitVec.getLsbD_extractLsb', show i - 6 < 24 by omega, show 6 + (i - 6) = i by omega] using this
  · have := congrArg (fun x => x.getLsbD (i - 30)) h1
    simpa [BitVec.getLsbD_extractLsb', show i - 30 < 2 by omega, show 30 + (i - 30) = i by omega] using this

/-- A container whose parity is that of its true data is the sealing of that data under its own context. -/
theorem eq_sealWord (cfg : Config) (w : RawWord)
    (h : w.extractLsb' 0 6 = parity cfg (w.extractLsb' 31 1) (w.extractLsb' 30 1) (stripWord w)) :
    w = sealWord cfg (w.extractLsb' 30 2) (stripWord w) := by
  apply container_ext
  · rw [sealWord_context]
  · rw [sealWord_data]
    have : (w.extractLsb' 30 2).getLsbD 0 = w.getLsbD 30 := by simp
    rw [this]
    unfold stripWord inv transmittedData
    rw [xor_xor_self]
  · rw [sealWord_parity, h]
    congr 1 <;>
      (apply BitVec.eq_of_getLsbD_eq; intro i hi; obtain rfl : i = 0 := by omega
       simp)

/-! ### The sequence -/

/-- Words from `n` on are kept. -/
theorem read_sealedRw_ge (cfg : Config) (ctx0 : BitVec 2) (dw : Memory 24) (rw : Memory 32) (n i : Nat) (h : n ≤ i) :
    (sealedRw cfg ctx0 dw rw n).read i = rw.read i := by
  induction n with
  | zero => rfl
  | succ n ih => rw [sealedRw, Memory.read_write, if_neg (by omega), ih (by omega)]

/-- Word `i` of a longer seal is word `i` of the seal that ends with it. -/
theorem read_sealedRw_lt (cfg : Config) (ctx0 : BitVec 2) (dw : Memory 24) (rw : Memory 32) (n i : Nat) (h : i < n) :
    (sealedRw cfg ctx0 dw rw n).read i = (sealedRw cfg ctx0 dw rw (i + 1)).read i := by
  induction n with
  | zero => omega
  | succ n ih =>
    by_cases hi : i = n
    · subst hi; rfl
    · rw [sealedRw, Memory.read_write, if_neg hi, ih (by omega)]

/-- `seal(n)`: word `i` is the container of `DW[i]` under the trailing bits of word `i-1`, word 0 under `CTX0` (R180). -/
theorem read_sealedRw (cfg : Config) (ctx0 : BitVec 2) (dw : Memory 24) (rw : Memory 32) (n i : Nat) (h : i < n) :
    (sealedRw cfg ctx0 dw rw n).read i =
      sealWord cfg (if i = 0 then ctx0 else trailingBits ((sealedRw cfg ctx0 dw rw n).read (i - 1))) (dw.read i) := by
  rw [read_sealedRw_lt cfg ctx0 dw rw n i h, sealedRw, Memory.read_write, if_pos rfl]
  congr 1
  split
  · rfl
  · rw [read_sealedRw_lt cfg ctx0 dw rw n (i - 1) (by omega), show i - 1 + 1 = i by omega]

theorem wf_sealedRw (cfg : Config) (ctx0 : BitVec 2) (dw : Memory 24) (rw : Memory 32) (n : Nat) (hn : n ≤ 33)
    (h : Memory.wf 33 rw) : Memory.wf 33 (sealedRw cfg ctx0 dw rw n) := by
  induction n with
  | zero => exact h
  | succ n ih => exact Memory.wf_write 33 _ _ _ (ih (by omega)) (by omega)

/-- Two sequences sealed from the same context over the same data words are the same words. -/
theorem read_sealedRw_congr (cfg : Config) (ctx0 : BitVec 2) (dw dw' : Memory 24) (rw rw' : Memory 32) (n n' i : Nat)
    (h : i < n) (h' : i < n') (hd : ∀ k, k ≤ i → dw.read k = dw'.read k) :
    (sealedRw cfg ctx0 dw rw n).read i = (sealedRw cfg ctx0 dw' rw' n').read i := by
  induction i with
  | zero =>
    rw [read_sealedRw _ _ _ _ _ _ h, read_sealedRw _ _ _ _ _ _ h', if_pos rfl, if_pos rfl, hd 0 (by omega)]
  | succ i ih =>
    rw [read_sealedRw _ _ _ _ _ _ h, read_sealedRw _ _ _ _ _ _ h', if_neg (by omega), if_neg (by omega),
      hd (i + 1) (by omega)]
    simp only [Nat.add_sub_cancel]
    rw [ih (by omega) (by omega) fun k hk => hd k (by omega)]

theorem sealWords_eq (s : State) (n : Nat) : sealWords s n = { s with rw := (sealWords s n).rw } := rfl

end Sys2Proof.Machine
end

