-- ==== Sys2Proof/Laws/Write.lean ====
section
/-! SUPPORT. What the writing passes of REPACK do (spec/44_repacker.md R184, R185): fields one after the other. -/

namespace Sys2Proof.Machine

/-- `t` is `s` after the fields `fds` have been written from the cursor on with the values `xs`: they read back as `xs`,
the words taken in beyond `NW` are zero elsewhere, every other bit is kept; only `DW`, `NW` and `OFF` move. -/
structure Written (s : State) (fds : List FieldDesc) (xs : List Int) (t : State) : Prop where
  state : t = { s with dw := t.dw, nw := BitVec.ofNat 6 (max s.nw.toNat (wordsNeeded s.off.toNat (elemBits fds))),
                       off := BitVec.ofNat 10 (s.off.toNat + elemBits fds) }
  values : fieldValues t.dw fds s.off.toNat = xs
  frame : ∀ a, ¬ (s.off.toNat ≤ a ∧ a < s.off.toNat + elemBits fds) →
    bitAt t.dw a =
      if s.nw.toNat ≤ a / 24 ∧ a / 24 < wordsNeeded s.off.toNat (elemBits fds) then false else bitAt s.dw a

/-- The cursor stands within the sequence, and the sequence within the memory: where a write may begin. -/
def cursorInside (s : State) : Prop := s.off.toNat ≤ 24 * s.nw.toNat ∧ s.nw.toNat ≤ 33

theorem Written.off {s t : State} {fds : List FieldDesc} {xs : List Int} (h : Written s fds xs t)
    (hc : s.off.toNat + elemBits fds ≤ 792) : t.off.toNat = s.off.toNat + elemBits fds := by
  rw [h.state]
  show (BitVec.ofNat 10 _).toNat = _
  rw [BitVec.toNat_ofNat, Nat.mod_eq_of_lt (by omega)]

theorem Written.nw {s t : State} {fds : List FieldDesc} {xs : List Int} (h : Written s fds xs t)
    (hs : cursorInside s) (hc : s.off.toNat + elemBits fds ≤ 792) :
    t.nw.toNat = max s.nw.toNat (wordsNeeded s.off.toNat (elemBits fds)) := by
  rw [h.state]
  have := hs.2
  have hw : wordsNeeded s.off.toNat (elemBits fds) ≤ 33 := by unfold wordsNeeded; omega
  show (BitVec.ofNat 6 _).toNat = _
  rw [BitVec.toNat_ofNat, Nat.mod_eq_of_lt (by omega)]

theorem Written.inside {s t : State} {fds : List FieldDesc} {xs : List Int} (h : Written s fds xs t)
    (hs : cursorInside s) (hc : s.off.toNat + elemBits fds ≤ 792) : cursorInside t := by
  have hs' := hs
  unfold cursorInside at hs' ⊢
  rw [h.off hc, h.nw hs hc]
  unfold wordsNeeded
  omega

theorem Written.nil (s : State) (hs : cursorInside s) : Written s [] [] s := by
  unfold cursorInside at hs
  have hw : wordsNeeded s.off.toNat 0 ≤ s.nw.toNat := by unfold wordsNeeded; omega
  refine ⟨?_, rfl, fun a _ => ?_⟩
  · rw [elemBits_nil, Nat.max_eq_left hw]
    simp
  · rw [elemBits_nil, if_neg (by omega)]

/-- Fields written one list after the other are the fields of both lists. -/
theorem Written.append {s t u : State} {a b : List FieldDesc} {xs ys : List Int} (h1 : Written s a xs t)
    (h2 : Written t b ys u) (hs : cursorInside s) (hc : s.off.toNat + (elemBits a + elemBits b) ≤ 792) :
    Written s (a ++ b) (xs ++ ys) u := by
  have ho := h1.off (by omega)
  have hn := h1.nw hs (by omega)
  have hs' := hs
  unfold cursorInside at hs'
  have hw : wordsNeeded (s.off.toNat + elemBits a) (elemBits b) = wordsNeeded s.off.toNat (elemBits a + elemBits b) := by
    unfold wordsNeeded; congr 1; omega
  have hle : wordsNeeded s.off.toNat (elemBits a) ≤ wordsNeeded s.off.toNat (elemBits a + elemBits b) := by
    unfold wordsNeeded; omega
  refine ⟨?_, ?_, fun x hx => ?_⟩
  · have e2 := h2.state
    have e1 := h1.state
    rw [ho, hn, hw] at e2
    rw [e2, e1]
    simp only [elemBits_append, Nat.add_assoc]
    rw [Nat.max_assoc, Nat.max_eq_right hle]
  · have h3 := h2.values
    rw [ho] at h3
    rw [fieldValues_append, h3]
    congr 1
    rw [← h1.values]
    apply fieldValues_congr
    intro x hx1 hx2
    rw [h2.frame x (by rw [ho]; omega), if_neg]
    rw [hn]
    have : x / 24 < wordsNeeded s.off.toNat (elemBits a) := by unfold wordsNeeded; omega
    omega
  · rw [elemBits_append] at hx ⊢
    rw [h2.frame x (by rw [ho]; omega), h1.frame x (by omega), ho, hn, hw]
    by_cases c1 : s.nw.toNat ≤ x / 24
    · by_cases c2 : x / 24 < wordsNeeded s.off.toNat (elemBits a)
      · rw [if_neg (by omega), if_pos ⟨c1, c2⟩, if_pos ⟨c1, by omega⟩]
      · by_cases c3 : x / 24 < wordsNeeded s.off.toNat (elemBits a + elemBits b)
        · rw [if_pos (by omega), if_pos ⟨c1, c3⟩]
        · rw [if_neg (by omega), if_neg (by omega), if_neg (by omega)]
    · rw [if_neg (by omega), if_neg (by omega), if_neg (by omega)]

/-! ### One field -/

theorem memRead_of_bits (dw : Memory 24) (o n u : Nat) (hu : u < 2 ^ n)
    (h : ∀ a, o ≤ a → a < o + n → bitAt dw a = u.testBit (n - 1 - (a - o))) : memRead dw o n = u := by
  apply Nat.eq_of_testBit_eq
  intro k
  rw [testBit_memRead]
  by_cases hk : k < n
  · rw [h _ (by omega) (by omega), show n - 1 - (o + (n - 1 - k) - o) = k by omega]; simp [hk]
  · rw [Nat.testBit_lt_two_pow (Nat.lt_of_lt_of_le hu (Nat.pow_le_pow_right (by omega) (by omega)))]
    simp [hk]

/-- A `cur_write` that succeeds writes one unscaled field. -/
theorem written_of_curWrite (s t : State) (x : Int) (w : Nat) (sgn : Bool) (hw : 1 ≤ w)
    (h : curWrite s x w sgn = .ok t) : Written s [⟨w, sgn, 1⟩] [x] t := by
  obtain ⟨hf, _, _⟩ := (curWrite_ok_iff s x w sgn t).1 h
  obtain ⟨h1, h2⟩ := curWrite_spec s x w sgn t h
  refine ⟨by simpa using h1, ?_, fun a ha => ?_⟩
  · have : memRead t.dw s.off.toNat w = (x % (2 : Int) ^ w).toNat :=
      memRead_of_bits _ _ _ _ (emod_toNat_lt x w) fun a h3 h4 => by rw [h2, if_pos ⟨h3, h4⟩]
    simp [fieldValues, fieldValue, this, patternValue_of_fits w sgn x hw hf]
  · rw [h2]
    simp only [elemBits_cons, elemBits_nil, Nat.add_zero] at ha ⊢
    rw [if_neg ha]
    rfl

theorem representable_iff (fd : FieldDesc) (x : Int) :
    representable fd x = true ↔ x % (fd.mul : Int) = 0 ∧ fitsField fd.width fd.signed (x / (fd.mul : Int)) = true := by
  simp [representable]

/-- `write_field` succeeds exactly when the value is representable and the capacity suffices (R185, R91). -/
theorem writeField_ok (s : State) (fd : FieldDesc) (x : Int) (hwf : 1 ≤ fd.width)
    (hr : representable fd x = true) (hc : s.off.toNat + fd.width ≤ 792) :
    ∃ t, writeField s fd x = .ok t ∧ Written s [fd] [x] t := by
  obtain ⟨h1, h2⟩ := (representable_iff fd x).1 hr
  obtain ⟨t, ht⟩ : ∃ t, curWrite s (x / (fd.mul : Int)) fd.width fd.signed = .ok t :=
    ⟨_, (curWrite_ok_iff s _ _ _ _).2 ⟨h2, hc, rfl⟩⟩
  refine ⟨t, by unfold writeField; rw [if_neg (by omega)]; exact ht, ?_⟩
  have h3 := written_of_curWrite s t _ _ _ hwf ht
  refine ⟨h3.state, ?_, h3.frame⟩
  have h4 := h3.values
  simp only [fieldValues, List.cons.injEq, and_true] at h4 ⊢
  simp only [fieldValue, Nat.cast_one, mul_one] at h4 ⊢
  rw [h4]
  exact Int.ediv_mul_cancel (Int.dvd_of_emod_eq_zero h1)

/-- The ways `write_field` fails. -/
theorem writeField_error_iff (s : State) (fd : FieldDesc) (x : Int) (e : ErrKind) :
    writeField s fd x = .error e ↔
      (representable fd x = false ∧ e = .fieldOverflow) ∨
        (representable fd x = true ∧ 792 < s.off.toNat + fd.width ∧ e = .truncated) := by
  unfold writeField representable
  by_cases h : x % (fd.mul : Int) = 0
  · rw [if_neg (by omega), curWrite_error_iff]; simp [h]
  · rw [if_pos h]; simp [h]; exact ⟨Eq.symm, Eq.symm⟩

/-! ### Fields from consecutive entries of `V` -/

theorem payloadValue_congr (s t : State) (h : t.v = s.v) (j : Nat) : payloadValue t j = payloadValue s j := by
  unfold payloadValue; rw [h]

theorem Written.v {s t : State} {fds : List FieldDesc} {xs : List Int} (h : Written s fds xs t) : t.v = s.v := by
  rw [h.state]

theorem Written.nv {s t : State} {fds : List FieldDesc} {xs : List Int} (h : Written s fds xs t) : t.nv = s.nv := by
  rw [h.state]

/-- Writing the fields `fds` from `V[j], V[j+1], ..`, every value representable, within the capacity. -/
theorem writeTuple_ok (s : State) (fds : List FieldDesc) (j : Nat) (hwf : ∀ fd ∈ fds, 1 ≤ fd.width)
    (hs : cursorInside s) (hc : s.off.toNat + elemBits fds ≤ 792)
    (hr : ∀ i fd, fds[i]? = some fd → representable fd (payloadValue s (j + i)) = true) :
    ∃ t, writeTuple s fds j = .ok t ∧
      Written s fds ((List.range fds.length).map fun i => payloadValue s (j + i)) t := by
  induction fds generalizing s j with
  | nil => exact ⟨s, rfl, Written.nil s hs⟩
  | cons fd fds ih =>
    rw [elemBits_cons] at hc
    obtain ⟨t, ht, hw⟩ := writeField_ok s fd (payloadValue s j) (hwf fd (by simp)) (hr 0 fd rfl) (by omega)
    have e1 : elemBits [fd] = fd.width := by simp
    have hto := hw.off (by rw [e1]; omega)
    rw [e1] at hto
    obtain ⟨u, hu, hw2⟩ := ih t (j + 1) (fun f hf => hwf f (by simp [hf])) (hw.inside hs (by rw [e1]; omega))
      (by rw [hto]; omega)
      (fun i f hf => by
        rw [payloadValue_congr s t hw.v, show j + 1 + i = j + (i + 1) by omega]
        exact hr (i + 1) f (by simpa using hf))
    refine ⟨u, by rw [writeTuple, ht, ok_bind]; exact hu, ?_⟩
    have h3 := Written.append hw hw2 hs (by rw [e1]; omega)
    have e2 : (List.range (fd :: fds).length).map (fun i => payloadValue s (j + i)) =
        [payloadValue s j] ++ (List.range fds.length).map (fun i => payloadValue t (j + 1 + i)) := by
      rw [List.length_cons, List.range_succ_eq_map, List.map_cons, List.map_map]
      simp only [Nat.add_zero, List.singleton_append, List.cons.injEq, true_and]
      apply List.map_congr_left
      intro i _
      simp only [Function.comp, payloadValue_congr s t hw.v]
      congr 1; omega
    rw [e2]
    exact h3

/-- Where the writing of fields fails, within the capacity, a value is not representable, and the error is FieldOverflow. -/
theorem writeTuple_error (s : State) (fds : List FieldDesc) (j : Nat) (hwf : ∀ fd ∈ fds, 1 ≤ fd.width)
    (hs : cursorInside s) (hc : s.off.toNat + elemBits fds ≤ 792) (e : ErrKind) (h : writeTuple s fds j = .error e) :
    e = .fieldOverflow ∧ ∃ i fd, fds[i]? = some fd ∧ representable fd (payloadValue s (j + i)) = false := by
  induction fds generalizing s j with
  | nil => simp [writeTuple] at h
  | cons fd fds ih =>
    rw [elemBits_cons] at hc
    rw [writeTuple, bind_error_iff] at h
    rcases h with h | ⟨t, ht, h⟩
    · rcases (writeField_error_iff _ _ _ _).1 h with ⟨h1, h2⟩ | ⟨_, h2, _⟩
      · exact ⟨h2, 0, fd, rfl, h1⟩
      · omega
    · have hr : representable fd (payloadValue s j) = true := by
        by_contra hn
        have := (writeField_error_iff s fd (payloadValue s j) .fieldOverflow).2 (.inl ⟨by simpa using hn, rfl⟩)
        rw [ht] at this; cases this
      obtain ⟨t', ht', hw⟩ := writeField_ok s fd (payloadValue s j) (hwf fd (by simp)) hr (by omega)
      rw [ht] at ht'
      cases ht'
      have e1 : elemBits [fd] = fd.width := by simp
      have hto := hw.off (by rw [e1]; omega)
      rw [e1] at hto
      obtain ⟨h1, i, f, h2, h3⟩ := ih t (j + 1) (fun f hf => hwf f (by simp [hf]))
        (hw.inside hs (by rw [e1]; omega)) (by rw [hto]; omega) h
      refine ⟨h1, i + 1, f, by simpa using h2, ?_⟩
      rw [payloadValue_congr s t hw.v, show j + 1 + i = j + (i + 1) by omega] at h3
      exact h3

theorem writeTuple_append (s : State) (a b : List FieldDesc) (j : Nat) :
    writeTuple s (a ++ b) j = writeTuple s a j >>= fun t => writeTuple t b (j + a.length) := by
  induction a generalizing s j with
  | nil => rfl
  | cons fd a ih =>
    rw [List.cons_append, writeTuple, writeTuple]
    cases writeField s fd (payloadValue s j) with
    | error e => rfl
    | ok t =>
      simp only [ok_bind]
      rw [ih]
      simp only [List.length_cons, show j + 1 + a.length = j + (a.length + 1) by omega]

/-- Writing `k` tuples is writing the fields of all of them in order. -/
theorem writeTuples_eq (s : State) (fds : List FieldDesc) (k j : Nat) :
    writeTuples s fds k j = writeTuple s (List.replicate k fds).flatten j := by
  induction k generalizing s j with
  | zero => rfl
  | succ k ih =>
    rw [writeTuples, List.replicate_succ, List.flatten_cons, writeTuple_append]
    cases writeTuple s fds j with
    | error e => rfl
    | ok r => simp only [ok_bind]; exact ih _ _

/-- Whatever a field's writing does, it keeps `V` and `NV`. -/
theorem writeTuple_keeps (s t : State) (fds : List FieldDesc) (j : Nat) (h : writeTuple s fds j = .ok t) :
    t.v = s.v ∧ t.nv = s.nv := by
  induction fds generalizing s j with
  | nil => cases h; exact ⟨rfl, rfl⟩
  | cons fd fds ih =>
    rw [writeTuple, bind_ok_iff] at h
    obtain ⟨u, hu, h⟩ := h
    have h1 := ih u (j + 1) h
    unfold writeField at hu
    split at hu
    · cases hu
    · have h2 := (curWrite_spec _ _ _ _ _ hu).1
      have hv : u.v = s.v := by rw [h2]
      have hn : u.nv = s.nv := by rw [h2]
      rw [h1.1, h1.2]; exact ⟨hv, hn⟩

/-! ### The canonical form is kept -/

theorem wf_writeField (s t : State) (fd : FieldDesc) (x : Int) (h : writeField s fd x = .ok t)
    (hw : Memory.wf 33 s.dw) : Memory.wf 33 t.dw := by
  unfold writeField at h
  split at h
  · cases h
  · exact wf_curWrite _ _ _ _ _ h hw

theorem wf_writeTuple (s t : State) (fds : List FieldDesc) (j : Nat) (h : writeTuple s fds j = .ok t)
    (hw : Memory.wf 33 s.dw) : Memory.wf 33 t.dw := by
  induction fds generalizing s j with
  | nil => cases h; exact hw
  | cons f fds ih =>
    rw [writeTuple, bind_ok_iff] at h
    obtain ⟨v, hv, h⟩ := h
    exact ih v _ h (wf_writeField s v f _ hv hw)

theorem wf_writeItems (s t : State) (items : List Item) (vals : List Int) (j : Nat)
    (h : writeItems s items vals j = .ok t) (hw : Memory.wf 33 s.dw) : Memory.wf 33 t.dw := by
  induction items generalizing s vals j with
  | nil => cases h; exact hw
  | cons it items ih =>
    cases it with
    | field fd =>
      simp only [writeItems] at h
      rw [bind_ok_iff] at h
      obtain ⟨v, hv, h⟩ := h
      exact ih v _ _ h (wf_writeField s v fd _ hv hw)
    | group src fds =>
      simp only [writeItems, writeTuples_eq] at h
      rw [bind_ok_iff] at h
      obtain ⟨v, hv, h⟩ := h
      exact ih v _ _ h (wf_writeTuple s v _ _ hv hw)

theorem wf_writeHeader (s t : State) (h : writeHeader s = .ok t) (hw : Memory.wf 33 s.dw) : Memory.wf 33 t.dw := by
  unfold writeHeader at h
  simp only [bind_ok_iff] at h
  obtain ⟨a, h1, b, h2, c, h3, d, h4, e, h5, f, h6, h7⟩ := h
  have h0 : Memory.wf 33 ({ s with nw := 0, off := 0 } : State).dw := hw
  exact wf_curWrite _ _ _ _ _ h7 <| wf_curWrite _ _ _ _ _ h6 <| wf_curWrite _ _ _ _ _ h5 <|
    wf_curWrite _ _ _ _ _ h4 <| wf_curWrite _ _ _ _ _ h3 <| wf_curWrite _ _ _ _ _ h2 <| wf_curWrite _ _ _ _ _ h1 h0

end Sys2Proof.Machine
end

