-- ==== Sys2Proof/Laws/Layout.lean ====
section
/-! SUPPORT. The layout pass of REPACK (spec/44_repacker.md R182) against the flat payload. -/

namespace Sys2Proof.Machine

/-- The layout pass from an item on: it succeeds exactly for counts that agree with the values, that their sources can hold,
and that account for all `NV` entries; it then answers the bits. -/
theorem layoutItems_ok_iff (s : State) (d pre items : List Item) (kp : List Nat) (vals : List Int) (j bits b : Nat)
    (hd : d = pre ++ items) (hwf : itemsWellFormed d pre.length items = true) (hk : kp.length = groupsIn pre)
    (hj : j = (expandItems pre kp).length) (hjn : j ≤ s.nv.toNat) (hv : valsMatch pre kp vals (payloadValue s)) :
    layoutItems s d items vals j bits = .ok b ↔
      ∃ ks, countsAgree d (kp ++ ks) (payloadValue s) items ks = true ∧ admissibleCounts d items ks ∧
        j + (expandItems items ks).length = s.nv.toNat ∧ bits + elemBits (expandItems items ks) = b := by
  induction items generalizing pre kp vals j bits with
  | nil =>
    simp only [layoutItems, countsAgree, admissibleCounts, List.isEmpty_iff, exists_eq_left]
    simp only [expandItems_nil, List.length_nil, elemBits_nil, Nat.add_zero, true_and]
    split
    · rename_i h; simp [h]
    · rename_i h; simp only [Except.ok.injEq]; exact ⟨fun e => ⟨by omega, e⟩, fun e => e.2⟩
  | cons it items ih =>
    rw [itemsWellFormed_cons] at hwf
    cases it with
    | field fd =>
      rw [layoutItems]
      split
      · rename_i h
        simp only [expandItems_field, List.length_cons]
        constructor
        · intro h'; cases h'
        · rintro ⟨ks, _, _, h1, _⟩; omega
      · rename_i h
        have e1 : expandItems (pre ++ [.field fd]) kp = expandItems pre kp ++ [fd] := by
          have := expandItems_append pre [.field fd] kp [] hk
          simpa using this
        rw [hj]
        rw [ih (pre ++ [.field fd]) kp _ _ _ (by simp [hd]) (by simpa using hwf.2)
          (by simp [groupsIn_append, groupsIn, hk]) (by rw [e1]; simp) (by omega)
          (valsMatch_field pre kp vals _ fd hv)]
        simp only [expandItems_field, List.length_cons, elemBits_cons, countsAgree, admissibleCounts, Nat.add_assoc,
          Nat.add_comm 1]
    | group src fds =>
      obtain ⟨hne, hall, hsrc, hrem⟩ := itemWellFormed_group d _ _ src fds hwf.1
      have hlen : 0 < fds.length := List.length_pos_iff.2 hne
      rw [layoutItems, bind_ok_iff]
      -- which count the pass takes
      have hcount : ∀ k ks, countsAgree d (kp ++ k :: ks) (payloadValue s) (.group src fds :: items) (k :: ks) = true →
          admissibleCounts d (.group src fds :: items) (k :: ks) →
          j + (k * fds.length + (expandItems items ks).length) = s.nv.toNat →
          layoutGroupCount s d vals fds j src = .ok k := by
        intro k ks ha hadm hlenq
        simp only [countsAgree, Bool.and_eq_true] at ha
        cases src with
        | const n => have := ha.1; simp at this; subst this; rfl
        | field q =>
          obtain ⟨fd, hq, hlt, hs, hm⟩ := hsrc q rfl
          have h1 := valsMatch_source pre (.group (.field q) fds :: items) kp (k :: ks) vals _ q fd hlt (hd ▸ hq) hk hv
          rw [← hd] at h1
          have h2 := ha.1
          simp only [beq_iff_eq] at h2
          rw [← h1] at h2
          have h3 : k ≤ 2 ^ sourceWidth d q - 1 := hadm.1
          have hp : 1 ≤ 2 ^ sourceWidth d q := Nat.one_le_two_pow
          simp only [layoutGroupCount]
          rw [if_neg, ← h2]
          · rfl
          · rw [← h2]
            have : ((k : Nat) : Int) ≤ ((2 ^ sourceWidth d q - 1 : Nat) : Int) := by exact_mod_cast h3
            push_cast [hp] at this
            omega
        | remaining =>
          have hl := hrem rfl
          simp only [List.isEmpty_iff] at hl
          subst hl
          simp only [expandItems_nil, List.length_nil, Nat.add_zero] at hlenq
          simp only [layoutGroupCount]
          rw [show s.nv.toNat - j = k * fds.length by omega, if_neg (by rw [Nat.mul_mod_left]; simp),
            Nat.mul_div_cancel _ hlen]
      have hback : ∀ k, layoutGroupCount s d vals fds j src = .ok k → ∀ ks,
          (match src with
           | .const n => k == n
           | .field q => (k : Int) == payloadValue s (entryOfItem d (kp ++ k :: ks) q)
           | .remaining => true) = true ∧
          (match src with
           | .const n => k = n
           | .field q => k ≤ 2 ^ sourceWidth d q - 1
           | .remaining => True) := by
        intro k hkk ks
        cases src with
        | const n => simp only [layoutGroupCount, Except.ok.injEq] at hkk; subst hkk; simp
        | remaining => simp
        | field q =>
          obtain ⟨fd, hq, hlt, hs, hm⟩ := hsrc q rfl
          have h1 := valsMatch_source pre (.group (.field q) fds :: items) kp (k :: ks) vals _ q fd hlt (hd ▸ hq) hk hv
          rw [← hd] at h1
          simp only [layoutGroupCount] at hkk
          have hp : 1 ≤ 2 ^ sourceWidth d q := Nat.one_le_two_pow
          split at hkk
          · cases hkk
          · rename_i hr
            simp only [Except.ok.injEq] at hkk
            simp only [beq_iff_eq]
            rw [← h1]
            have hr1 : (0 : Int) ≤ vals.getD q 0 := by omega
            have hr2 : vals.getD q 0 ≤ (2 : Int) ^ sourceWidth d q - 1 := by omega
            refine ⟨by omega, ?_⟩
            have : ((k : Nat) : Int) ≤ ((2 ^ sourceWidth d q - 1 : Nat) : Int) := by
              push_cast [hp]; omega
            exact_mod_cast this
      have hrec : ∀ k, j + k * fds.length ≤ s.nv.toNat → (layoutItems s d items (vals ++ [0]) (j + k * fds.length)
            (bits + k * elemBits fds) = .ok b ↔
          ∃ ks, countsAgree d (kp ++ k :: ks) (payloadValue s) items ks = true ∧ admissibleCounts d items ks ∧
            j + k * fds.length + (expandItems items ks).length = s.nv.toNat ∧
            bits + k * elemBits fds + elemBits (expandItems items ks) = b) := by
        intro k hle
        have := ih (pre ++ [.group src fds]) (kp ++ [k]) (vals ++ [0]) (j + k * fds.length) (bits + k * elemBits fds)
          (by simp [hd]) (by simpa using hwf.2) (by simp [groupsIn_append, groupsIn, hk])
          (by rw [expandItems_append _ _ _ _ hk, hj]; simp) hle (valsMatch_group pre kp vals _ src fds k hk hv)
        simpa using this
      constructor
      · rintro ⟨k, hkk, h⟩
        split at h
        · cases h
        · rename_i hle
          obtain ⟨ks, h1, h2, h3, h4⟩ := (hrec k (by omega)).1 h
          obtain ⟨h5, h6⟩ := hback k hkk ks
          refine ⟨k :: ks, ?_, ?_, by simp; omega, by simp; omega⟩
          · simp only [countsAgree, Bool.and_eq_true]; cases src <;> exact ⟨h5, h1⟩
          · cases src <;> exact ⟨h6, h2⟩
      · rintro ⟨ks, h1, h2, h3, h4⟩
        cases ks with
        | nil => simp [countsAgree] at h1
        | cons k ks =>
          simp only [expandItems_group, List.length_append, length_flatten_replicate, elemBits_append,
            elemBits_flatten_replicate] at h3 h4
          refine ⟨k, hcount k ks h1 h2 h3, ?_⟩
          rw [if_neg (by omega)]
          simp only [countsAgree, Bool.and_eq_true] at h1
          exact (hrec k (by omega)).2 ⟨ks, h1.2, h2.2, by omega, by omega⟩

/-- The layout pass of a message against its descriptor. -/
theorem layout_ok_iff (s : State) (d : Descriptor) (b : Nat) (hwf : itemsWellFormed d 0 d = true) :
    layout s d = .ok b ↔
      ∃ ks, countsAgree d ks (payloadValue s) d ks = true ∧ admissibleCounts d d ks ∧
        (expandItems d ks).length = s.nv.toNat ∧ elemBits (expandItems d ks) = b := by
  unfold layout
  rw [layoutItems_ok_iff s d [] d [] [] 0 0 b rfl hwf rfl rfl (by omega) (valsMatch_nil _)]
  simp

/-- The layout pass over items without a `Remaining` group, with counts that agree with the values and that their sources can
hold: BadLength where they need more entries than NV; else it goes on behind them (R182). -/
theorem layoutItems_prefix (s : State) (d pre mid items : List Item) (kp ks : List Nat) (vals : List Int) (j bits : Nat)
    (hd : d = pre ++ (mid ++ items)) (hwf : itemsWellFormed d pre.length (mid ++ items) = true)
    (hk : kp.length = groupsIn pre) (hj : j = (expandItems pre kp).length) (hjn : j ≤ s.nv.toNat)
    (hv : valsMatch pre kp vals (payloadValue s)) (hr : ∀ fds, Item.group .remaining fds ∉ mid)
    (ha : countsAgree d (kp ++ ks) (payloadValue s) mid ks = true) (hadm : admissibleCounts d mid ks) :
    (s.nv.toNat < j + (expandItems mid ks).length → layoutItems s d (mid ++ items) vals j bits = .error .badLength) ∧
    (j + (expandItems mid ks).length ≤ s.nv.toNat →
      ∃ vals', valsMatch (pre ++ mid) (kp ++ ks) vals' (payloadValue s) ∧
        layoutItems s d (mid ++ items) vals j bits =
          layoutItems s d items vals' (j + (expandItems mid ks).length) (bits + elemBits (expandItems mid ks))) := by
  induction mid generalizing pre kp ks vals j bits with
  | nil =>
    have hks : ks = [] := hadm
    subst hks
    simp only [List.nil_append, expandItems_nil, List.length_nil, elemBits_nil, Nat.add_zero]
    exact ⟨fun h => by omega, fun _ => ⟨vals, by simpa using hv, rfl⟩⟩
  | cons it mid ih =>
    rw [List.cons_append, itemsWellFormed_cons] at hwf
    have hr' : ∀ fds, Item.group .remaining fds ∉ mid := fun fds h => hr fds (by simp [h])
    cases it with
    | field fd =>
      rw [List.cons_append, layoutItems]
      simp only [expandItems_field, List.length_cons, elemBits_cons]
      by_cases hf : s.nv.toNat ≤ j
      · rw [if_pos hf]; exact ⟨fun _ => rfl, fun h => by omega⟩
      · rw [if_neg hf]
        have e1 : expandItems (pre ++ [.field fd]) kp = expandItems pre kp ++ [fd] := by
          have := expandItems_append pre [.field fd] kp [] hk
          simpa using this
        have := ih (pre ++ [.field fd]) kp ks (vals ++ [payloadValue s j]) (j + 1) (bits + fd.width) (by simp [hd])
          (by simpa using hwf.2) (by simp [groupsIn_append, groupsIn, hk]) (by rw [e1]; simp [hj]) (by omega)
          (by rw [hj]; exact valsMatch_field pre kp vals _ fd hv) hr' ha hadm
        refine ⟨fun h => this.1 (by omega), fun h => ?_⟩
        obtain ⟨v', hv', he⟩ := this.2 (by omega)
        refine ⟨v', by simpa using hv', ?_⟩
        rw [he]; congr 1 <;> omega
    | group src fds =>
      obtain ⟨_, _, hsrc, _⟩ := itemWellFormed_group d _ _ src fds hwf.1
      cases ks with
      | nil => simp [countsAgree] at ha
      | cons k ks =>
        simp only [countsAgree, Bool.and_eq_true] at ha
        have hcount : layoutGroupCount s d vals fds j src = .ok k := by
          cases src with
          | const n => have := ha.1; simp at this; subst this; rfl
          | field q =>
            obtain ⟨fd, hq, hlt, hs, hm⟩ := hsrc q rfl
            rw [List.cons_append] at hd
            have h1 := valsMatch_source pre (.group (.field q) fds :: (mid ++ items)) kp (k :: ks) vals _ q fd hlt
              (hd ▸ hq) hk hv
            rw [← hd] at h1
            have h2 := ha.1
            simp only [beq_iff_eq] at h2
            rw [← h1] at h2
            have h3 : k ≤ 2 ^ sourceWidth d q - 1 := hadm.1
            have hp : 1 ≤ 2 ^ sourceWidth d q := Nat.one_le_two_pow
            simp only [layoutGroupCount]
            rw [if_neg, ← h2]
            · rfl
            · rw [← h2]
              have : ((k : Nat) : Int) ≤ ((2 ^ sourceWidth d q - 1 : Nat) : Int) := by exact_mod_cast h3
              push_cast [hp] at this
              omega
          | remaining => exact absurd (List.mem_cons_self ..) (hr fds)
        rw [List.cons_append, layoutItems, hcount, ok_bind]
        simp only [expandItems_group, List.length_append, length_flatten_replicate, elemBits_append,
          elemBits_flatten_replicate]
        by_cases hf : s.nv.toNat < j + k * fds.length
        · rw [if_pos hf]; exact ⟨fun _ => rfl, fun h => by omega⟩
        · rw [if_neg hf]
          have hadm2 : admissibleCounts d mid ks := by cases src <;> exact hadm.2
          have := ih (pre ++ [.group src fds]) (kp ++ [k]) ks (vals ++ [0]) (j + k * fds.length)
            (bits + k * elemBits fds) (by simp [hd]) (by simpa using hwf.2) (by simp [groupsIn_append, groupsIn, hk])
            (by rw [expandItems_append _ _ _ _ hk, hj]; simp) (by omega)
            (valsMatch_group pre kp vals _ src fds k hk hv) hr' (by simpa using ha.2) hadm2
          refine ⟨fun h => this.1 (by omega), fun h => ?_⟩
          obtain ⟨v', hv', he⟩ := this.2 (by omega)
          refine ⟨v', by simpa using hv', ?_⟩
          rw [he]; congr 1 <;> omega

/-- The layout pass fails with BadLength or FieldOverflow. -/
theorem layoutItems_error (s : State) (d : Descriptor) (items : List Item) (vals : List Int) (j bits : Nat) (e : ErrKind)
    (h : layoutItems s d items vals j bits = .error e) : e = .badLength ∨ e = .fieldOverflow := by
  induction items generalizing vals j bits with
  | nil => rw [layoutItems] at h; split at h <;> cases h; exact .inl rfl
  | cons it items ih =>
    cases it with
    | field fd =>
      rw [layoutItems] at h
      split at h
      · cases h; exact .inl rfl
      · exact ih _ _ _ h
    | group src fds =>
      rw [layoutItems, bind_error_iff] at h
      rcases h with h | ⟨k, _, h⟩
      · cases src with
        | const n => cases h
        | field q => simp only [layoutGroupCount] at h; split at h <;> cases h; exact .inr rfl
        | remaining => simp only [layoutGroupCount] at h; split at h <;> cases h; exact .inl rfl
      · split at h
        · cases h; exact .inl rfl
        · exact ih _ _ _ h

/-- The write pass, with the counts of the layout pass, writes the fields of the flat payload in order (R185). -/
theorem writeItems_eq (s : State) (d pre items : List Item) (kp ks : List Nat) (vals : List Int) (j : Nat)
    (val : Nat → Int) (hval : ∀ i, payloadValue s i = val i)
    (hd : d = pre ++ items) (hwf : itemsWellFormed d pre.length items = true) (hk : kp.length = groupsIn pre)
    (hj : j = (expandItems pre kp).length) (hv : valsMatch pre kp vals val)
    (ha : countsAgree d (kp ++ ks) val items ks = true) (hn : j + (expandItems items ks).length = s.nv.toNat) :
    writeItems s items vals j = writeTuple s (expandItems items ks) j := by
  induction items generalizing s pre kp ks vals j with
  | nil => rfl
  | cons it items ih =>
    rw [itemsWellFormed_cons] at hwf
    cases it with
    | field fd =>
      simp only [expandItems_field, List.length_cons] at hn
      simp only [writeItems, expandItems_field, writeTuple]
      cases ht : writeField s fd (payloadValue s j) with
      | error e => rfl
      | ok t =>
        obtain ⟨h1, h2⟩ := writeTuple_keeps s t [fd] j (by simp [writeTuple, ht])
        simp only [ok_bind]
        have e1 : expandItems (pre ++ [.field fd]) kp = expandItems pre kp ++ [fd] := by
          have := expandItems_append pre [.field fd] kp [] hk
          simpa using this
        rw [hval j, hj]
        exact ih t (pre ++ [.field fd]) kp ks _ _
          (fun i => by rw [payloadValue_congr s t h1, hval]) (by simp [hd])
          (by simpa using hwf.2) (by simp [groupsIn_append, groupsIn, hk]) (by rw [e1]; simp)
          (valsMatch_field pre kp vals val fd hv) ha (by rw [h2]; omega)
    | group src fds =>
      obtain ⟨hne, hall, hsrc, hrem⟩ := itemWellFormed_group d _ _ src fds hwf.1
      have hlen : 0 < fds.length := List.length_pos_iff.2 hne
      cases ks with
      | nil => simp [countsAgree] at ha
      | cons k ks =>
        simp only [countsAgree, Bool.and_eq_true] at ha
        simp only [expandItems_group, List.length_append, length_flatten_replicate] at hn
        have hkk : writeGroupCount s vals fds j src = k := by
          cases src with
          | const n => have := ha.1; simp at this; subst this; rfl
          | field q =>
            obtain ⟨fd, hq, hlt, hs, hm⟩ := hsrc q rfl
            have h1 := valsMatch_source pre (.group (.field q) fds :: items) kp (k :: ks) vals _ q fd hlt (hd ▸ hq) hk hv
            rw [← hd] at h1
            have h2 := ha.1
            simp only [beq_iff_eq] at h2
            simp only [writeGroupCount, h1, ← h2]; rfl
          | remaining =>
            have hl := hrem rfl
            simp only [List.isEmpty_iff] at hl
            subst hl
            simp only [expandItems_nil, List.length_nil, Nat.add_zero] at hn
            simp only [writeGroupCount]
            rw [show s.nv.toNat - j = k * fds.length by omega, Nat.mul_div_cancel _ hlen]
        simp only [writeItems, hkk, writeTuples_eq, expandItems_group, writeTuple_append, length_flatten_replicate]
        cases ht : writeTuple s (List.replicate k fds).flatten j with
        | error e => rfl
        | ok t =>
          obtain ⟨h1, h2⟩ := writeTuple_keeps s t _ j ht
          simp only [ok_bind]
          exact ih t (pre ++ [.group src fds]) (kp ++ [k]) ks (vals ++ [0]) _
            (fun i => by rw [payloadValue_congr s t h1, hval]) (by simp [hd])
            (by simpa using hwf.2) (by simp [groupsIn_append, groupsIn, hk])
            (by rw [expandItems_append _ _ _ _ hk, hj]; simp)
            (valsMatch_group pre kp vals val src fds k hk hv) (by simpa using ha.2) (by rw [h2]; omega)

end Sys2Proof.Machine
end

