-- ==== Sys2Proof/Laws/PerInstr.lean ====
section
/-! SUPPORT. A family of lemmas, one for each constructor of `Instr`: the encoder's word matches the row of
spec/opcode_table.json under the row's mask, every operand at every value. -/

namespace Sys2Proof.Laws.MatchesTable

/-- The mask and the match of the command's row in spec/opcode_table.json. -/
def row : Instr → Word × Word
  | .nop => (0xFFFFFFFF, 0x00000000)
  | .rd _ _ => (0xFF0FFC00, 0x01000000)
  | .wr _ _ _ => (0xFF0FFC00, 0x02000000)
  | .cread _ _ => (0xFFFFFEE0, 0x10000000)
  | .cwrite _ _ _ => (0xFFFFFEE0, 0x11000000)
  | .pmatch _ => (0xFFFFFFC0, 0x20000000)
  | .lcheck _ _ => (0xFFFFC0E0, 0x21000000)
  | .strip => (0xFFFFFFFF, 0x30000000)
  | .unpack => (0xFFFFFFFF, 0x31000000)
  | .sealRaw => (0xFFFFFFFF, 0x38000000)
  | .repack => (0xFFFFFFFF, 0x39000000)
  | .decode => (0xFFFFFFFF, 0x40000000)
  | .reset => (0xFFFFFFFF, 0xFF000000)

/-- The command word of a command matches its row of the opcode table. -/
def Statement (i : Instr) : Prop := (encode i).cw &&& (row i).1 = (row i).2

theorem formatA (op : BitVec 8) (space : BitVec 4) (idx : BitVec 10) :
    encodeA op space idx &&& 0xFF0FFC00#32 = op ++ 0#24 := by
  apply BitVec.eq_of_getLsbD_eq
  intro i hi
  simp only [encodeA, BitVec.getLsbD_and, BitVec.getLsbD_append]
  interval_cases i <;> simp

theorem formatC (op : BitVec 8) (sgn : Bool) (width : BitVec 5) :
    encodeC op sgn width &&& 0xFFFFFEE0#32 = op ++ 0#24 := by
  apply BitVec.eq_of_getLsbD_eq
  intro i hi
  simp only [encodeC, BitVec.getLsbD_and, BitVec.getLsbD_append]
  interval_cases i <;> simp

theorem formatL (op : BitVec 8) (mtype : BitVec 6) (count : BitVec 5) :
    encodeL op mtype count &&& 0xFFFFC0E0#32 = op ++ 0#24 := by
  apply BitVec.eq_of_getLsbD_eq
  intro i hi
  simp only [encodeL, BitVec.getLsbD_and, BitVec.getLsbD_append]
  interval_cases i <;> simp

theorem nop : Statement .nop := by unfold Statement; decide
theorem rd (space : BitVec 4) (idx : BitVec 10) : Statement (.rd space idx) := formatA 0x01 space idx
theorem wr (space : BitVec 4) (idx : BitVec 10) (data : Word) : Statement (.wr space idx data) := formatA 0x02 space idx
theorem cread (sgn : Bool) (width : BitVec 5) : Statement (.cread sgn width) := formatC 0x10 sgn width
theorem cwrite (sgn : Bool) (width : BitVec 5) (data : Word) : Statement (.cwrite sgn width data) := formatC 0x11 sgn width
theorem pmatch (widx : BitVec 6) : Statement (.pmatch widx) := by revert widx; unfold Statement; decide
theorem lcheck (mtype : BitVec 6) (count : BitVec 5) : Statement (.lcheck mtype count) := formatL 0x21 mtype count
theorem strip : Statement .strip := by unfold Statement; decide
theorem unpack : Statement .unpack := by unfold Statement; decide
theorem sealRaw : Statement .sealRaw := by unfold Statement; decide
theorem repack : Statement .repack := by unfold Statement; decide
theorem decode : Statement .decode := by unfold Statement; decide
theorem reset : Statement .reset := by unfold Statement; decide

end Sys2Proof.Laws.MatchesTable
end

