-- ==== Sys2Proof/Laws/RepackRun.lean ====
section
/-! SUPPORT. REPACK as a whole (spec/44_repacker.md R184 to R188): the header, when the TYPED path succeeds, what it and the
OPAQUE path make. -/

namespace Sys2Proof.Machine

/-! ### The header -/

/-- The seven header fields (R84), as unsigned fields. -/
def headerFields : List FieldDesc :=
  [⟨8, false, 1⟩, ⟨6, false, 1⟩, ⟨10, false, 1⟩, ⟨13, false, 1⟩, ⟨3, false, 1⟩, ⟨5, false, 1⟩, ⟨3, false, 1⟩]

@[simp] theorem elemBits_headerFields : elemBits headerFields = 48 := rfl

/-- What the header fields of a message hold. -/
def headerValues (s : State) : List Int :=
  [s.cfg.preamble.toNat, s.mtype.toNat, s.stid.toNat, s.zcnt.toNat, s.seq.toNat, s.len.toNat, s.health.toNat]

/-- A fresh sequence (R184). -/
def emptied (s : State) : State := { s with nw := 0, off := 0 }

theorem cursorInside_emptied (s : State) : cursorInside (emptied s) := by simp [cursorInside, emptied]

theorem curWrite_nat (s : State) (n w : Nat) (hw : 1 ≤ w) (hn : n < 2 ^ w) (hc : s.off.toNat + w ≤ 792) :
    ∃ t, curWrite s (n : Int) w false = .ok t ∧ Written s [⟨w, false, 1⟩] [(n : Int)] t := by
  have hf : fitsField w false (n : Int) = true := by
    have : ((n : Nat) : Int) < ((2 ^ w : Nat) : Int) := by exact_mod_cast hn
    push_cast at this
    simp [fitsField]; omega
  have h := (curWrite_ok_iff s (n : Int) w false _).2 ⟨hf, hc, rfl⟩
  exact ⟨_, h, written_of_curWrite s _ _ w false hw h⟩

/-- The header is always written, in the seven fields (R184). -/
theorem writeHeader_ok (s : State) :
    ∃ t, writeHeader s = .ok t ∧ Written (emptied s) headerFields (headerValues s) t := by
  have h0 := cursorInside_emptied s
  obtain ⟨a, ha, w1⟩ := curWrite_nat (emptied s) s.cfg.preamble.toNat 8 (by omega) s.cfg.preamble.isLt (by simp [emptied])
  have o1 := w1.off (by simp [emptied])
  have i1 := w1.inside h0 (by simp [emptied])
  have e1 := w1.state
  simp [emptied] at o1
  obtain ⟨b, hb, w2⟩ := curWrite_nat a s.mtype.toNat 6 (by omega) s.mtype.isLt (by omega)
  have v2 := Written.append w1 w2 h0 (by simp [emptied])
  have o2 := v2.off (by simp [emptied])
  have e2 := v2.state
  simp [emptied] at o2
  obtain ⟨c, hc, w3⟩ := curWrite_nat b s.stid.toNat 10 (by omega) s.stid.isLt (by omega)
  have v3 := Written.append v2 w3 h0 (by simp [emptied])
  have o3 := v3.off (by simp [emptied])
  have e3 := v3.state
  simp [emptied] at o3
  obtain ⟨d, hd, w4⟩ := curWrite_nat c s.zcnt.toNat 13 (by omega) s.zcnt.isLt (by omega)
  have v4 := Written.append v3 w4 h0 (by simp [emptied])
  have o4 := v4.off (by simp [emptied])
  have e4 := v4.state
  simp [emptied] at o4
  obtain ⟨e, he, w5⟩ := curWrite_nat d s.seq.toNat 3 (by omega) s.seq.isLt (by omega)
  have v5 := Written.append v4 w5 h0 (by simp [emptied])
  have o5 := v5.off (by simp [emptied])
  have e5 := v5.state
  simp [emptied] at o5
  obtain ⟨f, hf, w6⟩ := curWrite_nat e s.len.toNat 5 (by omega) s.len.isLt (by omega)
  have v6 := Written.append v5 w6 h0 (by simp [emptied])
  have o6 := v6.off (by simp [emptied])
  have e6 := v6.state
  simp [emptied] at o6
  obtain ⟨g, hg, w7⟩ := curWrite_nat f s.health.toNat 3 (by omega) s.health.isLt (by omega)
  have v7 := Written.append v6 w7 h0 (by simp [emptied])
  refine ⟨g, ?_, v7⟩
  unfold writeHeader
  show curWrite (emptied s) s.cfg.preamble.toNat 8 false >>= _ = _
  rw [ha, ok_bind]
  rw [show a.mtype = s.mtype by rw [e1]; rfl, hb, ok_bind]
  rw [show b.stid = s.stid by rw [e2]; rfl, hc, ok_bind]
  rw [show c.zcnt = s.zcnt by rw [e3]; rfl, hd, ok_bind]
  rw [show d.seq = s.seq by rw [e4]; rfl, he, ok_bind]
  rw [show e.len = s.len by rw [e5]; rfl, hf, ok_bind]
  rw [show f.health = s.health by rw [e6]; rfl, hg]

theorem slice_of_memRead (dw : Memory 24) (i k n : Nat) (x : BitVec n) (h : k + n ≤ 24)
    (hr : memRead dw (24 * i + k) n = x.toNat) : (dw.read i).extractLsb' (24 - k - n) n = x := by
  rw [memRead_in_word dw i k n h] at hr
  exact BitVec.eq_of_toNat_eq hr

/-- The header words of a sequence that carries the header fields of a message (R84). -/
theorem header_words (dw : Memory 24) (s : State) (h : fieldValues dw headerFields 0 = headerValues s) :
    (dw.read 0).extractLsb' 16 8 = s.cfg.preamble ∧ (dw.read 0).extractLsb' 10 6 = s.mtype ∧
      (dw.read 0).extractLsb' 0 10 = s.stid ∧ (dw.read 1).extractLsb' 11 13 = s.zcnt ∧
      (dw.read 1).extractLsb' 8 3 = s.seq ∧ (dw.read 1).extractLsb' 3 5 = s.len ∧
      (dw.read 1).extractLsb' 0 3 = s.health := by
  simp only [headerFields, headerValues, fieldValues, fieldValue, patternValue, Bool.false_and, Bool.false_eq_true,
    if_false, Nat.cast_one, mul_one, List.cons.injEq, Nat.cast_inj, and_true] at h
  obtain ⟨h1, h2, h3, h4, h5, h6, h7⟩ := h
  exact ⟨slice_of_memRead dw 0 0 8 _ (by omega) h1, slice_of_memRead dw 0 8 6 _ (by omega) h2,
    slice_of_memRead dw 0 14 10 _ (by omega) h3, slice_of_memRead dw 1 0 13 _ (by omega) h4,
    slice_of_memRead dw 1 13 3 _ (by omega) h5, slice_of_memRead dw 1 16 5 _ (by omega) h6,
    slice_of_memRead dw 1 21 3 _ (by omega) h7⟩

/-! ### The TYPED path -/

/-- Every value is representable in its field. -/
def allRepresentable (fds : List FieldDesc) (val : Nat → Int) : Prop :=
  ∀ j fd, fds[j]? = some fd → representable fd (val j) = true

/-- Counts that agree with representable values are counts their sources can hold. -/
theorem admissibleCounts_of_representable (d : Descriptor) (counts : List Nat) (val : Nat → Int) (p : Nat)
    (items : List Item) (ks : List Nat) (hwf : itemsWellFormed d p items = true) (hl : counts.length = groupsIn d)
    (hr : allRepresentable (expandItems d counts) val) (ha : countsAgree d counts val items ks = true) :
    admissibleCounts d items ks := by
  induction items generalizing p ks with
  | nil => simpa [countsAgree, admissibleCounts] using ha
  | cons it items ih =>
    rw [itemsWellFormed_cons] at hwf
    cases it with
    | field fd => exact ih _ ks hwf.2 ha
    | group src fds =>
      obtain ⟨_, _, hsrc, _⟩ := itemWellFormed_group d _ _ src fds hwf.1
      cases ks with
      | nil => simp [countsAgree] at ha
      | cons k ks =>
        simp only [countsAgree, Bool.and_eq_true] at ha
        refine ⟨?_, ih _ ks hwf.2 ha.2⟩
        cases src with
        | const n => simpa using ha.1
        | remaining => trivial
        | field q =>
          obtain ⟨fd, hq, _, hs, hm⟩ := hsrc q rfl
          have hlt : q < d.length := (List.getElem?_eq_some_iff.1 hq).1
          have hd : d = d.take q ++ .field fd :: d.drop (q + 1) := by
            have := List.getElem?_eq_some_iff.1 hq
            rw [← this.2, List.getElem_cons_drop, List.take_append_drop]
          have hg := groupsIn_take_le d q
          have hsplit : counts = counts.take (groupsIn (d.take q)) ++ counts.drop (groupsIn (d.take q)) :=
            (List.take_append_drop _ _).symm
          have hl' : (counts.take (groupsIn (d.take q))).length = groupsIn (d.take q) := by simp; omega
          have he := expandItems_append (d.take q) (.field fd :: d.drop (q + 1)) _
            (counts.drop (groupsIn (d.take q))) hl'
          rw [← hd, ← hsplit, expandItems_field] at he
          have hen : entryOfItem d counts q =
              (expandItems (d.take q) (counts.take (groupsIn (d.take q)))).length := by
            unfold entryOfItem
            conv => lhs; rw [hsplit]
            rw [expandItems_extra _ _ _ (by omega)]
          have h1 := hr (entryOfItem d counts q) fd (by rw [he, hen]; simp)
          have h2 := ha.1
          simp only [beq_iff_eq] at h2
          rw [representable_iff, ← h2, hm] at h1
          have h3 := h1.2
          simp only [fitsField, hs, Bool.false_eq_true, if_false, Nat.cast_one, Int.ediv_one, decide_eq_true_eq] at h3
          simp only [sourceWidth, hq]
          have hp : 1 ≤ 2 ^ fd.width := Nat.one_le_two_pow
          have : ((k : Nat) : Int) ≤ ((2 ^ fd.width - 1 : Nat) : Int) := by push_cast [hp]; omega
          exact_mod_cast this

theorem checkLen_ok_iff (s : State) (bits : Nat) : checkLen s bits = .ok () ↔ bits = 24 * s.len.toNat := by
  unfold checkLen
  split
  · rename_i h; exact ⟨(fun e => nomatch e), fun e => absurd e h⟩
  · rename_i h; exact ⟨fun _ => by omega, fun _ => rfl⟩

/-- The TYPED path accepts a message that fits its descriptor; it makes the header and the payload, and seals them. -/
theorem repackTyped_ok (s : State) (d : Descriptor) (ks : List Nat) (hd : descOf s.cfg s.mtype = some d)
    (hwf : itemsWellFormed d 0 d = true) (ha : countsAgree d ks (payloadValue s) d ks = true)
    (hn : (expandItems d ks).length = s.nv.toNat) (hb : elemBits (expandItems d ks) = 24 * s.len.toNat)
    (hr : allRepresentable (expandItems d ks) (payloadValue s)) :
    ∃ u, repackTyped s = .ok (sealWords u (2 + s.len.toNat)) ∧
      Written (emptied s) (headerFields ++ expandItems d ks)
        (headerValues s ++ (List.range (expandItems d ks).length).map (payloadValue s)) u := by
  have hks := countsAgree_length _ _ _ _ _ ha
  have hlen := s.len.isLt
  have hadm := admissibleCounts_of_representable d ks _ 0 d ks hwf hks hr ha
  have hlay := (layout_ok_iff s d (24 * s.len.toNat) hwf).2 ⟨ks, ha, hadm, hn, hb⟩
  obtain ⟨t, ht, hw⟩ := writeHeader_ok s
  have h0 := cursorInside_emptied s
  have ho := hw.off (by simp [emptied])
  have hi := hw.inside h0 (by simp [emptied])
  simp [emptied] at ho
  have hpv : ∀ i, payloadValue t i = payloadValue s i := fun i => payloadValue_congr s t (by rw [hw.v]; rfl) i
  have hfw : ∀ fd ∈ expandItems d ks, 1 ≤ fd.width := fun fd hfd =>
    (fieldWellFormed_width fd (expandItems_wellFormed d 0 d ks hwf fd hfd)).1
  obtain ⟨u, hu, hw2⟩ := writeTuple_ok t (expandItems d ks) 0 hfw hi (by omega)
    (fun i fd hif => by rw [Nat.zero_add, hpv]; exact hr i fd hif)
  have hall := Written.append hw hw2 h0 (by simp [emptied]; omega)
  have hnw := hall.nw h0 (by simp [emptied]; omega)
  have hnu : u.nw.toNat = 2 + s.len.toNat := by
    rw [hnw]; simp [emptied, wordsNeeded, hb]; omega
  refine ⟨u, ?_, ?_⟩
  · unfold repackTyped
    rw [hd]
    simp only
    rw [hlay, ok_bind, (checkLen_ok_iff s _).2 rfl, ok_bind, ht, ok_bind,
      writeItems_eq t d [] d [] ks [] 0 (payloadValue s) hpv rfl hwf rfl rfl (valsMatch_nil _) ha
        (by rw [Nat.zero_add, hn, hw.nv]; rfl),
      hu, ok_bind, hnu]
  · have e : (List.range (expandItems d ks).length).map (fun i => payloadValue t (0 + i)) =
        (List.range (expandItems d ks).length).map (payloadValue s) :=
      List.map_congr_left fun i _ => by rw [Nat.zero_add, hpv]
    rw [e] at hall
    exact hall

/-- What `write_field` writes in order is representable, every value in its field (R185). -/
theorem representable_of_writeTuple (t u : State) (fds : List FieldDesc) (j : Nat) (h : writeTuple t fds j = .ok u)
    (i : Nat) (fd : FieldDesc) (hfd : fds[i]? = some fd) : representable fd (payloadValue t (j + i)) = true := by
  induction fds generalizing t j i with
  | nil => simp at hfd
  | cons f fds ih =>
    rw [writeTuple, bind_ok_iff] at h
    obtain ⟨v, hv, h⟩ := h
    cases i with
    | zero =>
      simp at hfd
      subst hfd
      by_contra hn
      have := (writeField_error_iff t f (payloadValue t j) .fieldOverflow).2 (.inl ⟨by simpa using hn, rfl⟩)
      rw [hv] at this; cases this
    | succ i =>
      have hk := writeTuple_keeps t v [f] j (by simp [writeTuple, hv])
      have := ih v (j + 1) h i (by simpa using hfd)
      rwa [payloadValue_congr t v hk.1, show j + 1 + i = j + (i + 1) by omega] at this

/-- A message whose layout fits LEN but with a value that is not representable in its field is FieldOverflow (R185). -/
theorem repackTyped_overflow (s : State) (d : Descriptor) (ks : List Nat) (hd : descOf s.cfg s.mtype = some d)
    (hwf : itemsWellFormed d 0 d = true) (ha : countsAgree d ks (payloadValue s) d ks = true)
    (hadm : admissibleCounts d d ks) (hn : (expandItems d ks).length = s.nv.toNat)
    (hb : elemBits (expandItems d ks) = 24 * s.len.toNat)
    (hr : ¬ allRepresentable (expandItems d ks) (payloadValue s)) : repackTyped s = .error .fieldOverflow := by
  have hlay := (layout_ok_iff s d (24 * s.len.toNat) hwf).2 ⟨ks, ha, hadm, hn, hb⟩
  obtain ⟨t, ht, hw⟩ := writeHeader_ok s
  have ho := hw.off (by simp [emptied])
  have hi := hw.inside (cursorInside_emptied s) (by simp [emptied])
  simp [emptied] at ho
  have hlen := s.len.isLt
  have hpv : ∀ i, payloadValue t i = payloadValue s i := fun i => payloadValue_congr s t (by rw [hw.v]; rfl) i
  have hfw : ∀ fd ∈ expandItems d ks, 1 ≤ fd.width := fun fd hfd =>
    (fieldWellFormed_width fd (expandItems_wellFormed d 0 d ks hwf fd hfd)).1
  unfold repackTyped
  rw [hd]
  simp only
  rw [hlay, ok_bind, (checkLen_ok_iff s _).2 rfl, ok_bind, ht, ok_bind,
    writeItems_eq t d [] d [] ks [] 0 (payloadValue s) hpv rfl hwf rfl rfl (valsMatch_nil _) ha
      (by rw [Nat.zero_add, hn, hw.nv]; rfl)]
  cases hwt : writeTuple t (expandItems d ks) 0 with
  | error e => rw [(writeTuple_error t _ 0 hfw hi (by omega) e hwt).1]; rfl
  | ok u =>
    refine absurd (fun i fd hfd => ?_) hr
    have := representable_of_writeTuple t u _ 0 hwt i fd hfd
    rwa [Nat.zero_add, hpv] at this

/-- The TYPED path accepts no other message, and fails with UnsupportedType, BadLength or FieldOverflow only. -/
theorem repackTyped_cases (s : State) (hc : configWellFormed s.cfg = true) :
    (descOf s.cfg s.mtype = none ∧ repackTyped s = .error .unsupportedType) ∨
      (∃ d ks, descOf s.cfg s.mtype = some d ∧ itemsWellFormed d 0 d = true ∧
        countsAgree d ks (payloadValue s) d ks = true ∧ (expandItems d ks).length = s.nv.toNat ∧
        elemBits (expandItems d ks) = 24 * s.len.toNat ∧ allRepresentable (expandItems d ks) (payloadValue s)) ∨
      (∃ d e, descOf s.cfg s.mtype = some d ∧ repackTyped s = .error e ∧ (e = .badLength ∨ e = .fieldOverflow)) := by
  cases hd : descOf s.cfg s.mtype with
  | none => exact .inl ⟨rfl, by unfold repackTyped; rw [hd]⟩
  | some d =>
    right
    have hwf := descriptorWellFormed_of_descOf _ _ _ hc hd
    have hun : repackTyped s = (do
      let bits ← layout s d
      checkLen s bits
      let s ← writeHeader s
      let s ← writeItems s d [] 0
      .ok (sealWords s s.nw.toNat)) := by unfold repackTyped; rw [hd]
    cases hl : layout s d with
    | error e =>
      exact .inr ⟨d, e, rfl, by rw [hun, hl]; rfl, layoutItems_error s d d [] 0 0 e hl⟩
    | ok bits =>
      obtain ⟨ks, h1, h2, h3, h4⟩ := (layout_ok_iff s d bits hwf).1 hl
      by_cases hb : bits = 24 * s.len.toNat
      · by_cases hr : allRepresentable (expandItems d ks) (payloadValue s)
        · exact .inl ⟨d, ks, rfl, hwf, h1, h3, by omega, hr⟩
        · exact .inr ⟨d, .fieldOverflow, rfl, repackTyped_overflow s d ks hd hwf h1 h2 h3 (by omega) hr, .inr rfl⟩
      · refine .inr ⟨d, .badLength, rfl, ?_, .inl rfl⟩
        rw [hun, hl, ok_bind]
        unfold checkLen
        rw [if_pos hb]; rfl

/-! ### The OPAQUE path -/

/-- The OPAQUE path always succeeds: a sealed header, then the preserved containers and their true data (R186). -/
theorem repackOpaque_ok (s : State) :
    ∃ u, Written (emptied s) headerFields (headerValues s) u ∧
      repackOpaque s = .ok { sealWords u 2 with
        rw := (sealWords u 2).rw.fill 2 s.len.toNat (fun i => s.opq.read i),
        dw := u.dw.fill 2 s.len.toNat (fun i => stripWord (s.opq.read i)),
        nw := BitVec.ofNat 6 (2 + s.len.toNat) } := by
  obtain ⟨t, ht, hw⟩ := writeHeader_ok s
  refine ⟨t, hw, ?_⟩
  have hl : t.len = s.len := by rw [hw.state]; rfl
  have hq : t.opq = s.opq := by rw [hw.state]; rfl
  unfold repackOpaque
  rw [ht, ok_bind]
  simp only [sealWords, hl, hq]

/-- All that REPACK can write: every field of the message registers, `V`, `OPQ` and `CTX0` is kept. -/
theorem repackRun_frame (s t : State) (hc : configWellFormed s.cfg = true) (h : repackRun s = .ok t) :
    t = { s with nw := t.nw, off := t.off, lim := t.lim, rw := t.rw, dw := t.dw } := by
  unfold repackRun at h
  rw [bind_ok_iff] at h
  obtain ⟨u, hu, h⟩ := h
  have hk : u = { s with nw := u.nw, off := u.off, lim := u.lim, rw := u.rw, dw := u.dw } := by
    split at hu
    · rcases repackTyped_cases s hc with ⟨_, he⟩ | ⟨d, ks, h1, h2, h3, h4, h5, h6⟩ | ⟨d, e, _, he, _⟩
      · rw [he] at hu; cases hu
      · obtain ⟨v, hv, hw⟩ := repackTyped_ok s d ks h1 h2 h3 h4 h5 h6
        rw [hv] at hu
        cases hu
        rw [hw.state]; rfl
      · rw [he] at hu; cases hu
    · obtain ⟨v, hw, hv⟩ := repackOpaque_ok s
      rw [hv] at hu
      cases hu
      rw [hw.state]; rfl
  cases h
  rw [hk]; rfl

end Sys2Proof.Machine
end

