-- ==== Sys2Proof/Laws/State.lean ====
section
/-! SUPPORT. One lemma per field for each named update of the state (Machine/Ops.lean), all true by unfolding. -/

namespace Sys2Proof.Machine

variable (s : State) (err : BitVec 4) (dout : Word) (c : Command) (nbits w : Nat)

/-! ### A response -/

@[simp] theorem State.respond_nw : (s.respond err dout).nw = s.nw := rfl
@[simp] theorem State.respond_off : (s.respond err dout).off = s.off := rfl
@[simp] theorem State.respond_lim : (s.respond err dout).lim = s.lim := rfl
@[simp] theorem State.respond_ctx0 : (s.respond err dout).ctx0 = s.ctx0 := rfl
@[simp] theorem State.respond_tag : (s.respond err dout).tag = s.tag := rfl
@[simp] theorem State.respond_mtype : (s.respond err dout).mtype = s.mtype := rfl
@[simp] theorem State.respond_stid : (s.respond err dout).stid = s.stid := rfl
@[simp] theorem State.respond_zcnt : (s.respond err dout).zcnt = s.zcnt := rfl
@[simp] theorem State.respond_seq : (s.respond err dout).seq = s.seq := rfl
@[simp] theorem State.respond_len : (s.respond err dout).len = s.len := rfl
@[simp] theorem State.respond_health : (s.respond err dout).health = s.health := rfl
@[simp] theorem State.respond_nv : (s.respond err dout).nv = s.nv := rfl
@[simp] theorem State.respond_rw : (s.respond err dout).rw = s.rw := rfl
@[simp] theorem State.respond_dw : (s.respond err dout).dw = s.dw := rfl
@[simp] theorem State.respond_v : (s.respond err dout).v = s.v := rfl
@[simp] theorem State.respond_opq : (s.respond err dout).opq = s.opq := rfl
@[simp] theorem State.respond_cfg : (s.respond err dout).cfg = s.cfg := rfl
@[simp] theorem State.respond_cmds : (s.respond err dout).cmds = s.cmds := rfl
@[simp] theorem State.respond_resps : (s.respond err dout).resps = s.resps ++ [⟨err, dout⟩] := rfl
@[simp] theorem State.respond_draws : (s.respond err dout).draws = s.draws := rfl

/-! ### Reset of the state of R20 -/

@[simp] theorem State.clear_nw : s.clear.nw = 0 := rfl
@[simp] theorem State.clear_off : s.clear.off = 0 := rfl
@[simp] theorem State.clear_lim : s.clear.lim = 0 := rfl
@[simp] theorem State.clear_ctx0 : s.clear.ctx0 = 0 := rfl
@[simp] theorem State.clear_tag : s.clear.tag = .noMessage := rfl
@[simp] theorem State.clear_mtype : s.clear.mtype = 0 := rfl
@[simp] theorem State.clear_stid : s.clear.stid = 0 := rfl
@[simp] theorem State.clear_zcnt : s.clear.zcnt = 0 := rfl
@[simp] theorem State.clear_seq : s.clear.seq = 0 := rfl
@[simp] theorem State.clear_len : s.clear.len = 0 := rfl
@[simp] theorem State.clear_health : s.clear.health = 0 := rfl
@[simp] theorem State.clear_nv : s.clear.nv = 0 := rfl
@[simp] theorem State.clear_rw : s.clear.rw = [] := rfl
@[simp] theorem State.clear_dw : s.clear.dw = [] := rfl
@[simp] theorem State.clear_v : s.clear.v = [] := rfl
@[simp] theorem State.clear_opq : s.clear.opq = [] := rfl
@[simp] theorem State.clear_cfg : s.clear.cfg = s.cfg := rfl
@[simp] theorem State.clear_cmds : s.clear.cmds = s.cmds := rfl
@[simp] theorem State.clear_resps : s.clear.resps = s.resps := rfl
@[simp] theorem State.clear_draws : s.clear.draws = s.draws := rfl

/-! ### The command port -/

@[simp] theorem State.dropCommand_nw : s.dropCommand.nw = s.nw := rfl
@[simp] theorem State.dropCommand_off : s.dropCommand.off = s.off := rfl
@[simp] theorem State.dropCommand_lim : s.dropCommand.lim = s.lim := rfl
@[simp] theorem State.dropCommand_ctx0 : s.dropCommand.ctx0 = s.ctx0 := rfl
@[simp] theorem State.dropCommand_tag : s.dropCommand.tag = s.tag := rfl
@[simp] theorem State.dropCommand_mtype : s.dropCommand.mtype = s.mtype := rfl
@[simp] theorem State.dropCommand_stid : s.dropCommand.stid = s.stid := rfl
@[simp] theorem State.dropCommand_zcnt : s.dropCommand.zcnt = s.zcnt := rfl
@[simp] theorem State.dropCommand_seq : s.dropCommand.seq = s.seq := rfl
@[simp] theorem State.dropCommand_len : s.dropCommand.len = s.len := rfl
@[simp] theorem State.dropCommand_health : s.dropCommand.health = s.health := rfl
@[simp] theorem State.dropCommand_nv : s.dropCommand.nv = s.nv := rfl
@[simp] theorem State.dropCommand_rw : s.dropCommand.rw = s.rw := rfl
@[simp] theorem State.dropCommand_dw : s.dropCommand.dw = s.dw := rfl
@[simp] theorem State.dropCommand_v : s.dropCommand.v = s.v := rfl
@[simp] theorem State.dropCommand_opq : s.dropCommand.opq = s.opq := rfl
@[simp] theorem State.dropCommand_cfg : s.dropCommand.cfg = s.cfg := rfl
@[simp] theorem State.dropCommand_cmds : s.dropCommand.cmds = s.cmds.tail := rfl
@[simp] theorem State.dropCommand_resps : s.dropCommand.resps = s.resps := rfl
@[simp] theorem State.dropCommand_draws : s.dropCommand.draws = s.draws := rfl

@[simp] theorem issueFirst_nw : (issueFirst s c).nw = s.nw := rfl
@[simp] theorem issueFirst_off : (issueFirst s c).off = s.off := rfl
@[simp] theorem issueFirst_lim : (issueFirst s c).lim = s.lim := rfl
@[simp] theorem issueFirst_ctx0 : (issueFirst s c).ctx0 = s.ctx0 := rfl
@[simp] theorem issueFirst_tag : (issueFirst s c).tag = s.tag := rfl
@[simp] theorem issueFirst_mtype : (issueFirst s c).mtype = s.mtype := rfl
@[simp] theorem issueFirst_stid : (issueFirst s c).stid = s.stid := rfl
@[simp] theorem issueFirst_zcnt : (issueFirst s c).zcnt = s.zcnt := rfl
@[simp] theorem issueFirst_seq : (issueFirst s c).seq = s.seq := rfl
@[simp] theorem issueFirst_len : (issueFirst s c).len = s.len := rfl
@[simp] theorem issueFirst_health : (issueFirst s c).health = s.health := rfl
@[simp] theorem issueFirst_nv : (issueFirst s c).nv = s.nv := rfl
@[simp] theorem issueFirst_rw : (issueFirst s c).rw = s.rw := rfl
@[simp] theorem issueFirst_dw : (issueFirst s c).dw = s.dw := rfl
@[simp] theorem issueFirst_v : (issueFirst s c).v = s.v := rfl
@[simp] theorem issueFirst_opq : (issueFirst s c).opq = s.opq := rfl
@[simp] theorem issueFirst_cfg : (issueFirst s c).cfg = s.cfg := rfl
@[simp] theorem issueFirst_cmds : (issueFirst s c).cmds = c :: s.cmds := rfl
@[simp] theorem issueFirst_resps : (issueFirst s c).resps = s.resps := rfl
@[simp] theorem issueFirst_draws : (issueFirst s c).draws = s.draws := rfl

/-! ### The two ways a command ends -/

theorem State.succeed_eq : s.succeed dout = { s with resps := s.resps ++ [⟨0#4, dout⟩] } := rfl

theorem State.raiseError_eq (e : ErrKind) :
    s.raiseError e = { s with resps := s.resps ++ [⟨errKindCode e, 0#32⟩] } := rfl

/-- A response ends a command with exactly the state it had, and one response more. -/
theorem State.respond_eq : s.respond err dout = { s with resps := s.resps ++ [⟨err, dout⟩] } := rfl

end Sys2Proof.Machine
end

