-- ==== Sys2Proof/Tests/Slice0.lean ====
section
/-! SUPPORT. The model's own tests: the well-formedness smoke test, words written out from spec/30_encoding.md R96 and R97,
one-step vectors of spec/95_test_vectors.md, and for every obligation with hypotheses a witness that meets them. -/

open Sys2Proof Sys2Proof.Machine Sys2Proof.Claims

namespace Sys2Proof.Tests

-- One theorem at a time: each `decide +kernel` waits for all before it, and a thread for each would take memory.
set_option Elab.async false

/-! ### The fixture of spec/95_test_vectors.md, and small builders -/

def u (n : Nat) : FieldDesc := ⟨n, false, 1⟩
def sg (n mul : Nat) : FieldDesc := ⟨n, true, mul⟩

def desc1 : Descriptor := [.group .remaining [u 1, u 2, u 5, sg 16 1, sg 8 1, u 8]]
def desc3 : Descriptor := [.field (sg 24 1), .field (sg 24 1), .field (sg 24 1), .field (u 24)]
def desc16 : Descriptor := [.group .remaining [u 8]]
def desc20 : Descriptor := [.field (u 8), .field (sg 16 5), .group (.field 0) [u 4, sg 12 2]]
def desc21 : Descriptor := [.group (.const 3) [u 3, sg 5 1], .field ⟨24, false, 128⟩]

/-- `DESC_EX` (section 1). -/
def cfgEx : Config :=
  { Config.default with
    desc := [(1, desc1), (3, desc3), (6, []), (16, desc16), (20, desc20), (21, desc21)] }

/-- The array whose first entries are the listed ones. -/
def entries (w : Nat) : (i : Nat) → List Int → Memory w
  | _, [] => []
  | i, x :: rest => (entries w (i + 1) rest).write i (BitVec.ofInt w x)

def base : State := { State.reset with cfg := cfgEx }

/-- A raw sequence as the host accumulates it. -/
def raw (ws : List Int) : State := { base with rw := entries 32 0 ws, nw := BitVec.ofNat 6 ws.length }

/-- A data view, with the read budget at its end. -/
def view (off : Nat) (ds : List Int) : State :=
  { base with dw := entries 24 0 ds, nw := BitVec.ofNat 6 ds.length, off := BitVec.ofNat 10 off,
              lim := BitVec.ofNat 10 (24 * ds.length) }

/-- A TYPED message of station 31, z-count 1000, sequence 5, health 0. -/
def typedMsg (mtype : BitVec 6) (len : BitVec 5) (vs : List Int) : State :=
  { base with tag := .typed, mtype := mtype, stid := 31, zcnt := 1000, seq := 5, len := len,
              nv := BitVec.ofNat 10 vs.length, v := entries 32 0 vs }

/-- The state a command leads to. -/
def after (i : Instr) (s : State) : State :=
  match exec i s with
  | .next t => t
  | _ => s

/-- The response of a command run where none has been given yet. -/
def answer (i : Instr) (s : State) : List (BitVec 4 × Word) := (after i s).resps.map fun r => (r.err, r.dout)

/-- Every command answers a next state. -/
theorem exec_after (i : Instr) (s : State) : exec i s = .next (after i s) := by
  have h : ∃ t, exec i s = .next t := by
    cases i <;> simp only [exec, execNop, execRd, execWr, execCread, execCwrite, execPmatch, execLcheck, execStrip,
      execUnpack, execSealRaw, execRepack, execDecode, execReset]
    all_goals repeat' split
    all_goals exact ⟨_, rfl⟩
  obtain ⟨t, h⟩ := h
  simp [after, h]

def typed16 : State := raw [0x199007C6, 0x87D1423F, 0xEE2BEB18]
def typed20 : State := raw [0x1994006A, 0x80000613, 0xFF0001B3, 0xF8003421, 0x40700099]
def shortOf3 : State := raw [0x198307E6, 0x87D14613, 0xFFFFFFAC, 0x000000A5, 0x7FFFFF20]
def opaque2 : State :=
  raw [0x19821363, 0xFF09B466, 0x84444471, 0x77777765, 0x7333333D, 0x6EEEEEF1, 0x6AAAAAA9]
/-- The largest message: type 16, 31 words of true data `0x010203` (UR3 row 10). -/
def largest : State :=
  { raw [0x199007C6, 0x87D17E1E] with nw := 33, rw :=
      (entries 32 0 [0x199007C6, 0x87D17E1E]).fill 2 31 fun i => if i % 2 = 0 then 0x804080CD else 0x7FBF7F32 }

/-! ### Well-formedness refuses each ill-formed operand (R98 c, d, e) -/

theorem test_wf_fixture : configWellFormed cfgEx = true := by decide
theorem test_wf_reservedSpace : (Instr.rd 5 0).operandFault = some .reservedSpace := by decide
theorem test_wf_indexPastEnd :
    [Instr.rd 0 12, .rd 1 33, .wr 2 33 0, .wr 3 744 0, .rd 4 31].map Instr.operandFault =
      List.replicate 5 (some .indexPastEnd) := by decide
theorem test_wf_badWidth :
    [Instr.cread false 0, .cread true 25, .cwrite false 0 1, .cwrite true 25 1].map Instr.operandFault =
      List.replicate 4 (some .badWidth) := by decide
theorem test_wf_badWordIndex : (Instr.pmatch 33).operandFault = some .badWordIndex := by decide
theorem test_wf_boundary :
    [Instr.rd 0 11, .rd 1 32, .wr 2 32 0, .wr 3 743 0, .rd 4 30, .cread false 1, .cwrite true 24 0, .pmatch 32,
      .lcheck 63 31].all Instr.wellFormed = true := by decide

/-! ### Decoding: words written out from R96 and R97 (and the examples of the command rules) -/

theorem test_decode_nop : decode ⟨0b00000000_000000000000000000000000#32, 0⟩ = .ok .nop := by decide
theorem test_decode_rd : decode ⟨0b00000001_0011_0000000000_0000000101#32, 9⟩ = .ok (.rd 3 5) := by decide
theorem test_decode_wr : decode ⟨0b00000010_0001_0000000000_0000000010#32, 0xEE2BEB18⟩ = .ok (.wr 1 2 0xEE2BEB18) := by
  decide
theorem test_decode_cread : decode ⟨0b00010000_000000000000000_1_000_01000#32, 9⟩ = .ok (.cread true 8) := by decide
theorem test_decode_cwrite : decode ⟨0b00010001_000000000000000_0_000_11000#32, 7⟩ = .ok (.cwrite false 24 7) := by
  decide
theorem test_decode_pmatch : decode ⟨0b00100000_000000000000000000_100000#32, 0⟩ = .ok (.pmatch 32) := by decide
theorem test_decode_lcheck : decode ⟨0b00100001_0000000000_010000_000_00001#32, 0⟩ = .ok (.lcheck 16 1) := by decide
theorem test_decode_strip : decode ⟨0b00110000_000000000000000000000000#32, 0⟩ = .ok .strip := by decide
theorem test_decode_unpack : decode ⟨0b00110001_000000000000000000000000#32, 0⟩ = .ok .unpack := by decide
theorem test_decode_seal : decode ⟨0b00111000_000000000000000000000000#32, 0⟩ = .ok .sealRaw := by decide
theorem test_decode_repack : decode ⟨0b00111001_000000000000000000000000#32, 0⟩ = .ok .repack := by decide
theorem test_decode_decode : decode ⟨0b01000000_000000000000000000000000#32, 0⟩ = .ok .decode := by decide
theorem test_decode_reset : decode ⟨0b11111111_000000000000000000000000#32, 0⟩ = .ok .reset := by decide
/-- Program P6, rows 12, 13, 15, 16, 17, 19, 20, 21. -/
theorem test_decode_refuses :
    ([0x03000000, 0x31000001, 0x10000208, 0x21004000, 0x01000400, 0x20000040, 0xFF000001, 0x00000001] :
      List Word).map (fun cw => decode ⟨cw, 0⟩) =
      .error .unassignedOpcode :: List.replicate 7 (.error .mustBeZeroBitSet) := by decide
/-- The first word is bits 31..0 and DATA bits 63..32; the bits from `nbits` on are zero. -/
theorem test_decodeTableWord :
    decodeTableWord 64 0xEE2BEB18_02100002 = some (.wr 1 2 0xEE2BEB18) ∧
    decodeTableWord 32 0xEE2BEB18_02100002 = some (.wr 1 2 0) := by decide
theorem test_step_after_reset :
    (match step (State.reset.withFetchWord 64 0x00000021_02000000) with
     | .next t => decide (t = { State.reset with nw := 33, resps := [⟨0, 0⟩] })
     | _ => false) = true := by decide

/-! ### One step of each command, with the vectors of spec/95_test_vectors.md -/

theorem test_nop : (after .nop typed16) = { typed16 with resps := [⟨0, 0⟩] } := by decide

/-- Program P6, rows 5, 6, 7, 18; table CR1's `DW`. -/
theorem test_rd :
    ([.rd 1 33, .rd 4 31, .rd 3 744, .rd 0 12, .rd 2 0, .rd 0 0] : List Instr).map
      (answer · (view 0 [0x66041F, 0x800001, 0xFFFFFF])) =
      [[(7, 0)], [(7, 0)], [(7, 0)], [(7, 0)], [(0, 0x66041F)], [(0, 3)]] := by decide

/-- Program P6, rows 2, 3, 4. -/
theorem test_wr_refused :
    ([.wr 0 0 34, .wr 0 4 3, .wr 2 0 0x1000000] : List Instr).map (answer · base) =
      [[(7, 0)], [(7, 0)], [(7, 0)]] := by decide
theorem test_wr : (after (.wr 3 743 0xFFFFFFDD) base) = { base with v := [(743, -35)], resps := [⟨0, 0⟩] } := by decide

/-- Table CR1, rows 9 and 10: across a word boundary, unsigned and signed. -/
theorem test_cread :
    answer (.cread false 8) (view 20 [0x66041F, 0x800001, 0xFFFFFF]) = [(0, 0xF8)] ∧
    answer (.cread true 8) (view 20 [0x66041F, 0x800001, 0xFFFFFF]) = [(0, 0xFFFFFFF8)] ∧
    (after (.cread true 8) (view 20 [0x66041F, 0x800001, 0xFFFFFF])).off = 28 := by decide
/-- Table CR1, rows 16 and 18: the last bit, and the end of the budget. -/
theorem test_cread_budget :
    answer (.cread true 1) (view 71 [0x66041F, 0x800001, 0xFFFFFF]) = [(0, 0xFFFFFFFF)] ∧
    answer (.cread false 1) (view 72 [0x66041F, 0x800001, 0xFFFFFF]) = [(1, 0)] := by decide

/-- Table CW1, row 4. -/
theorem test_cwrite :
    (after (.cwrite true 8 0xFFFFFF80) (view 20 [0x66041F])) =
      { view 20 [0x660418] with nw := 2, off := 28, resps := [⟨0, 0⟩] } := by decide
/-- Table CW2: range before capacity, then capacity. -/
theorem test_cwrite_errors :
    answer (.cwrite false 8 256) { base with off := 790 } = [(2, 0)] ∧
    answer (.cwrite false 13 0) { base with off := 780 } = [(1, 0)] ∧
    answer (.cwrite true 8 128) base = [(2, 0)] := by decide

/-- Table PM1: both polarities, and a pattern under the wrong flag. -/
theorem test_pmatch :
    ([0x19800000, 0x66400000, 0x59800000, 0x26400000] : List Int).map (fun w => answer (.pmatch 0) (raw [w])) =
      [[(0, 1)], [(0, 1)], [(0, 0)], [(0, 0)]] := by decide

/-- Table LC1. -/
theorem test_lcheck :
    ([.lcheck 20 3, .lcheck 20 2, .lcheck 1 5, .lcheck 1 4, .lcheck 21 2, .lcheck 3 5, .lcheck 63 31] :
      List Instr).map (answer · base) =
      [[(0, 1)], [(0, 0)], [(0, 1)], [(0, 0)], [(0, 1)], [(0, 0)], [(0, 1)]] := by decide

/-- Table ST1. -/
theorem test_strip :
    (after .strip (raw [0x198107DB, 0x667EF80D, 0x40000000])).dw =
      entries 24 0 [0x66041F, 0x66041F, 0xFFFFFF] := by decide

/-- Table SE1, rows 0 and 1. -/
theorem test_seal :
    (after .sealRaw (view 0 [0x66041F, 0x123456, 0xABCDEF])).rw =
      entries 32 0 [0x198107DB, 0xFB72EA7E, 0xAAF37BCF] := by decide +kernel
theorem test_seal_inverted :
    (after .sealRaw { view 0 [0x66041F, 0x123456, 0xABCDEF] with ctx0 := 1 }).rw =
      entries 32 0 [0x667EF80D, 0x7B72EA57, 0xD50C8419] := by decide +kernel

/-- Vector UR3, row 11: a counted group, scaled and signed fields. -/
theorem test_unpack_typed :
    let t := after .unpack typed20
    t.tag = .typed ∧ t.nv = 8 ∧ t.v = entries 32 0 [3, -35, 1, -2, 2, -4, 3, -6] ∧ t.mtype = 20 ∧ t.stid = 1 ∧
      t.off = 120 ∧ t.lim = 120 := by decide +kernel
/-- Vector UR3, row 18. -/
theorem test_unpack_opaque :
    let t := after .unpack opaque2
    t.tag = .opaqueRaw ∧ t.stid = 77 ∧ t.zcnt = 123 ∧ t.seq = 1 ∧ t.health = 6 ∧ t.nv = 0 ∧ t.off = 168 ∧
      t.opq = entries 32 0 [0x84444471, 0x77777765, 0x7333333D, 0x6EEEEEF1, 0x6AAAAAA9] := by decide +kernel

/-- Table RP1, row 7 (the example of R186). -/
theorem test_repack_typed :
    let t := after .repack { typedMsg 21 2 [1, -1, 2, -16, 7, 15, 128] with ctx0 := 1 }
    t.rw = entries 32 0 [0x666AF816, 0x87D14405, 0x702BC403, 0xFFFFFFAC] ∧ t.nw = 4 ∧ t.off = 96 ∧ t.lim = 96 := by
  decide +kernel
/-- Table RP3: a value that is no multiple of its scale, and a length that does not fit (RP2). -/
theorem test_repack_errors :
    answer .repack (typedMsg 21 2 [1, -1, 2, -16, 7, 15, 127]) = [(2, 0)] ∧
    answer .repack (typedMsg 21 3 [1, -1, 2, -16, 7, 15, 128]) = [(3, 0)] := by decide

/-- Table DE1. -/
theorem test_decode :
    answer .decode (raw [0x267EF81B]) = [(6, 3)] ∧ answer .decode typed16 = [(0, 1)] ∧
    answer .decode { typed16 with nw := 2 } = [(0, 0)] ∧ answer .decode { typed16 with nw := 4 } = [(4, 2)] := by decide
/-- Vector UR3, row 2, of which DECODE needs the header only. -/
theorem test_decode_badLength : answer .decode { shortOf3 with nw := 2 } = [(3, 2)] := by decide

theorem test_reset : (after .reset typed20) = { base with resps := [⟨0, 0⟩] } := by decide

/-! ### Witnesses: for each obligation with hypotheses or several clauses, a state and operands that meet them, each clause
at boundary values. Every `exec i s = .next t` is met by `t = after i s` (`exec_after`). -/

/-- The response list of a command run where none has been given yet. -/
def ends (i : Instr) (s : State) (code : BitVec 4) : Bool := decide ((after i s).resps = s.resps ++ [⟨code, 0⟩])

theorem ends_iff (i : Instr) (s : State) (code : BitVec 4) (h : ends i s code = true) :
    exec i s = .next (after i s) ∧ (after i s).resps = s.resps ++ [⟨code, 0#32⟩] :=
  ⟨exec_after i s, by simpa [ends] using h⟩

theorem exists_of_toOption_isSome {ε α : Type} (x : Except ε α) (h : x.toOption.isSome = true) : ∃ t, x = .ok t := by
  cases x with
  | ok t => exact ⟨t, rfl⟩
  | error e => simp [Except.toOption] at h

def opaqueMsg : State := after .unpack opaque2
def typedMsg21 : State := typedMsg 21 2 [1, -1, 2, -16, 7, 15, 128]
/-- UR3 row 19: the shortest opaque message. -/
def opaqueEmpty : State := raw [0x19BFFFD7, 0xC0003E0B]
/-- A table with a scalar before a `Remaining` group. -/
def cfgPre : Config := { Config.default with desc := [(9, [.field (u 5), .group .remaining [u 19, u 24]])] }

theorem witness_EncodeOfDecode :
    decode ⟨0x023002E7, 5⟩ = .ok (.wr 3 743 5) ∧ decode ⟨0x11000118, 6⟩ = .ok (.cwrite true 24 6) ∧
    decode ⟨0x20000020, 7⟩ = .ok (.pmatch 32) := by decide

/-- `legalWord` is decidable. -/
abbrev decideLegal (cw : Word) : Decidable (legalWord cw) := by dsimp only [legalWord]; infer_instance

theorem legal_of (cw : Word) (h : @decide _ (decideLegal cw) = true) : legalWord cw :=
  @of_decide_eq_true _ (decideLegal cw) h
theorem illegal_of (cw : Word) (h : @decide _ (decideLegal cw) = false) : ¬ legalWord cw :=
  @of_decide_eq_false _ (decideLegal cw) h

/-- Each operand at the last legal value and at the first illegal one. -/
theorem witness_LegalWordsDecodeWellFormed :
    (legalWord 0x0100000B ∧ legalWord 0x013002E7 ∧ legalWord 0x10000118 ∧ legalWord 0x20000020 ∧
      legalWord 0x21003F1F) ∧
    ¬ legalWord 0x0100000C ∧ ¬ legalWord 0x013002E8 ∧ ¬ legalWord 0x10000119 ∧ ¬ legalWord 0x10000100 ∧
    ¬ legalWord 0x20000021 ∧ ¬ legalWord 0x21004000 ∧ ¬ legalWord 0x01500000 :=
  ⟨⟨legal_of _ rfl, legal_of _ rfl, legal_of _ rfl, legal_of _ rfl, legal_of _ rfl⟩,
    illegal_of _ rfl, illegal_of _ rfl, illegal_of _ rfl, illegal_of _ rfl, illegal_of _ rfl, illegal_of _ rfl,
    illegal_of _ rfl⟩

theorem witness_IllegalWordRefused :
    { base with cmds := [⟨0x10000119, 0⟩] }.cmds = [⟨0x10000119, 0⟩] ∧ ¬ legalWord 0x10000119 ∧
    ¬ legalWord 0x31000001 :=
  ⟨rfl, illegal_of _ rfl, illegal_of _ rfl⟩

theorem witness_StepRunsDecodedCommand :
    { typed16 with cmds := [⟨0x31000000, 0⟩, ⟨0x39000000, 0⟩] }.cmds = ⟨0x31000000, 0⟩ :: [⟨0x39000000, 0⟩] ∧
    decode ⟨0x31000000, 0⟩ = .ok .unpack := by decide

theorem witness_IdleKeepsAllState : typed16.cmds = [] := rfl

theorem witness_EveryCommandAnsweredOnce :
    { typed16 with cmds := [⟨0x31000000, 0⟩, ⟨3, 0⟩] }.cmds = ⟨0x31000000, 0⟩ :: [⟨3, 0⟩] := rfl

theorem witness_StepKeepsLegal :
    { typed16 with cmds := [⟨0x31000000, 0⟩] }.legal ∧
    step { typed16 with cmds := [⟨0x31000000, 0⟩] } = .next (after .unpack typed16) :=
  ⟨by decide +kernel, exec_after .unpack typed16⟩

/-- The last bit of the array, the last whole word, and a field over a word boundary. -/
theorem witness_MemWriteThenMemRead :
    (∀ p ∈ [(791, 1, 1), (768, 24, 2 ^ 24 - 1), (0, 1, 0), (23, 24, 5)],
      1 ≤ p.2.1 ∧ p.2.1 ≤ 24 ∧ p.1 + p.2.1 ≤ 792 ∧ p.2.2 < 2 ^ p.2.1) ∧
    memRead (memWrite [] 23 24 5) 23 24 = 5 := by decide +kernel

/-- The three branches: widths 0 and 25; the field one bit past the budget; the field ending at it. -/
theorem witness_CreadReadsField :
    ((0#5).toNat = 0 ∧ 24 < (25#5).toNat) ∧ (view 49 [1, 2, 3]).lim.toNat < (view 49 [1, 2, 3]).off.toNat + 24 ∧
    ¬ (view 48 [1, 2, 3]).lim.toNat < (view 48 [1, 2, 3]).off.toNat + 24 ∧
    answer (.cread false 24) (view 49 [1, 2, 3]) = [(1, 0)] ∧ answer (.cread false 24) (view 48 [1, 2, 3]) = [(0, 3)] ∧
    answer (.cread false 25) (view 0 [1]) = [(7, 0)] := by decide

/-- The four clauses: widths 0 and 25; a value one above the range; a field ending at bit 793; one ending at bit 792. -/
theorem witness_CwriteWritesField :
    answer (.cwrite false 0 0) base = [(7, 0)] ∧ answer (.cwrite true 25 0) base = [(7, 0)] ∧
    answer (.cwrite true 8 128) { base with off := 784 } = [(2, 0)] ∧
    answer (.cwrite false 8 256) { base with off := 785 } = [(2, 0)] ∧
    answer (.cwrite true 8 127) { base with off := 785 } = [(1, 0)] ∧
    answer (.cwrite true 8 127) { base with off := 784 } = [(0, 0)] ∧
    (∀ k, 8 - 1 ≤ k → k < 32 → (127#32).getLsbD k = (127#32).getLsbD (8 - 1)) ∧
    ¬ (∀ k, 8 - 1 ≤ k → k < 32 → (128#32).getLsbD k = (128#32).getLsbD (8 - 1)) ∧
    (∀ k, 8 ≤ k → k < 32 → (255#32).getLsbD k = false) ∧ ¬ (∀ k, 8 ≤ k → k < 32 → (256#32).getLsbD k = false) := by
  have h : ∀ k : Nat, k < 32 ↔ k ∈ List.range 32 := fun k => by simp
  refine ⟨by decide, by decide, by decide, by decide, by decide, by decide, ?_, ?_, ?_, ?_⟩
  · intro k h1 h2; interval_cases k <;> rfl
  · intro h; exact absurd (h 8 (by decide) (by decide)) (by decide)
  · intro k h1 h2; interval_cases k <;> rfl
  · intro h; exact absurd (h 8 (by decide) (by decide)) (by decide)

theorem witness_CursorWriteReadInverse :
    (view 20 [0x66041F, 0]).legal ∧ (∃ t, curWrite (view 20 [0x66041F, 0]) (-128) 8 true = .ok t) ∧
    (view 20 [0x66041F, 0]).off.toNat + 8 ≤ (28#10).toNat ∧
    (∃ t, curRead (view 24 [0x66041F, 0x800001]) 24 true = .ok (-8388607, t)) ∧
    (view 24 [0x66041F, 0x800001]).off.toNat + 24 ≤ 24 * (view 24 [0x66041F, 0x800001]).nw.toNat :=
  ⟨by decide +kernel, exists_of_toOption_isSome _ (by decide +kernel), by decide, ⟨_, rfl⟩, by decide⟩

theorem witness_LcheckSearchesCounts :
    answer (.lcheck 2 31) base = [(0, 1)] ∧ answer (.lcheck 20 31) base = [(0, 1)] ∧
    answer (.lcheck 20 30) base = [(0, 0)] ∧ admissibleCounts desc20 desc20 [45] ∧
    elemBits (expandItems desc20 [45]) = 24 * 31 := by
  refine ⟨by decide +kernel, by decide +kernel, by decide +kernel, ?_, by decide +kernel⟩
  simp [admissibleCounts, desc20, sourceWidth, u]

/-- The first clause for types 3 and 6; the second for type 1, for a type with a scalar first, and its boundary counts. -/
theorem witness_LcheckExactFit :
    descOf cfgEx 3 = some desc3 ∧ fixedLayout desc3 ∧ fixedBits desc3 = 24 * (4#5).toNat ∧
    descOf cfgEx 6 = some [] ∧ fixedLayout [] ∧ fixedBits [] = 24 * (0#5).toNat ∧
    descOf cfgEx 1 = some desc1 ∧ desc1 = [] ++ [.group .remaining [u 1, u 2, u 5, sg 16 1, sg 8 1, u 8]] ∧
    descOf cfgPre 9 = some ([.field (u 5)] ++ [.group .remaining [u 19, u 24]]) ∧ fixedLayout [.field (u 5)] ∧
    answer (.lcheck 9 2) { base with cfg := cfgPre } = [(0, 1)] ∧
    answer (.lcheck 9 0) { base with cfg := cfgPre } = [(0, 0)] := by
  refine ⟨by decide, ?_, by decide, by decide, ?_, by decide, by decide, by decide, by decide, ?_, by decide, by decide⟩
  · intro it h src fds e; subst e; simp [desc3] at h
  · intro it h; simp at h
  · intro it h src fds e; subst e; simp at h

/-- The five clauses, at the boundaries of the word count: NW = 1; one word short; one word over; the right count for a
type it does not fit; success. -/
theorem witness_UnpackRefusesWrongLength :
    typed16.legal ∧ declaredCount typed16 = 1 ∧
    ends .unpack { typed16 with nw := 1 } 1 = true ∧ ends .unpack { typed16 with nw := 2 } 1 = true ∧
    ends .unpack { typed16 with nw := 4 } 4 = true ∧ ends .unpack typed16 0 = true ∧
    shortOf3.legal ∧ shortOf3.nw.toNat = 2 + declaredCount shortOf3 ∧
    (descOf shortOf3.cfg (declaredType shortOf3)).isSome ∧
    lcheck shortOf3.cfg (BitVec.ofNat 5 (declaredCount shortOf3)) (declaredType shortOf3) = false ∧
    ends .unpack shortOf3 3 = true := by
  decide +kernel

theorem witness_UnpackFailureDiscardsMessage :
    typed16.legal ∧ exec .unpack { typed16 with nw := 4 } = .next (after .unpack { typed16 with nw := 4 }) ∧
    (after .unpack { typed16 with nw := 4 }).resps = [] ++ [⟨4#4, 0#32⟩] ∧
    (after .unpack { typed16 with nw := 1 }).resps = [] ++ [⟨1#4, 0#32⟩] :=
  ⟨by decide +kernel, exec_after _ _, by decide +kernel, by decide +kernel⟩

theorem witness_UnpackKeepsUnknownTypeVerbatim :
    ∀ s ∈ [opaque2, opaqueEmpty], s.legal ∧ 2 ≤ s.nw.toNat ∧ s.nw.toNat = 2 + declaredCount s ∧
      descOf s.cfg (declaredType s) = none := by decide +kernel

/-- The values and data words of UR3 row 11. -/
def vals20 (j : Nat) : Int := [3, -35, 1, -2, 2, -4, 3, -6].getD j 0
def dw20 : Memory 24 := entries 24 0 [0x665001, 0x000018, 0x03FFF9, 0x1FFF2F, 0xFE3FFD]

theorem witness_UnpackDecodesTypedPayload :
    typed20.legal ∧ 2 ≤ typed20.nw.toNat ∧ typed20.nw.toNat = 2 + declaredCount typed20 ∧
    descOf typed20.cfg (declaredType typed20) = some desc20 ∧
    (∀ i, i < typed20.nw.toNat → dw20.read i = trueData (typed20.rw.read i)) ∧
    countsAgree desc20 [3] vals20 desc20 [3] = true ∧ carries dw20 (expandItems desc20 [3]) vals20 = true ∧
    elemBits (expandItems desc20 [3]) = 24 * declaredCount typed20 := by decide +kernel

/-- UR3 rows 12, 13 and 14: six elements in the place of three; none; three in the place of none. -/
def tooMany20 : State := raw [0x1994006A, 0x80000613, 0xFE400189, 0x78003408, 0x3F8FFF4F]
def tooFew20 : State := raw [0x1994006A, 0x80000613, 0xFFC001A4, 0x07FFCBDE, 0xBF8FFF66]
def noRoom20 : State := raw [0x1994006A, 0x8000023F, 0xFF0001B3]

/-- The values the data words have for a payload. -/
def valuesIn (dw : Memory 24) (fds : List FieldDesc) (j : Nat) : Int :=
  match fds[j]? with
  | some fd => fieldValue dw fd (fieldOffset fds j)
  | none => 0

theorem witness_UnpackCodeFollowsPayloadSize :
    ∀ p ∈ [(typed20, 3, 0#4), (tooMany20, 6, 1#4), (tooFew20, 0, 4#4), (noRoom20, 3, 1#4)],
      p.1.legal ∧ 2 ≤ p.1.nw.toNat ∧ p.1.nw.toNat = 2 + declaredCount p.1 ∧
      descOf p.1.cfg (declaredType p.1) = some desc20 ∧
      lcheck p.1.cfg (BitVec.ofNat 5 (declaredCount p.1)) (declaredType p.1) = true ∧
      walkFinds p.1 desc20 [p.2.1] (valuesIn (after .strip p.1).dw (expandItems desc20 [p.2.1])) (after .strip p.1).dw ∧
      ends .unpack p.1 p.2.2 = true := by
  unfold walkFinds; decide +kernel

theorem witness_UnpackTypedIsWellShaped :
    typed20.legal ∧ exec .unpack typed20 = .next (after .unpack typed20) ∧ (after .unpack typed20).tag = .typed :=
  ⟨by decide +kernel, exec_after _ _, by decide +kernel⟩

/-- Three tuples, and the 93 of the largest message. -/
theorem witness_UnpackYieldsEveryTuple :
    ∀ p ∈ [(typed16, 3), (largest, 93)], p.1.legal ∧ 2 ≤ p.1.nw.toNat ∧ p.1.nw.toNat = 2 + declaredCount p.1 ∧
      descOf p.1.cfg (declaredType p.1) = some [.group .remaining [u 8]] ∧
      24 * declaredCount p.1 = p.2 * elemBits [u 8] := by decide +kernel

theorem witness_RepackWithoutMessageRefused : base.tag = .noMessage := rfl

theorem witness_RepackUnknownTypedUnsupported : (typedMsg 2 0 []).tag = .typed ∧
    descOf (typedMsg 2 0 []).cfg (typedMsg 2 0 []).mtype = none := by decide

theorem witness_RepackFailureKeepsMessage :
    (typedMsg 21 2 [1]).legal ∧ ends .repack (typedMsg 21 2 [1]) 3 = true ∧ ends .repack (typedMsg 2 0 []) 5 = true ∧
    ends .repack (typedMsg 16 1 [256, 0, 0]) 2 = true := by decide +kernel

theorem witness_RepackOpaqueVerbatim :
    ∀ s ∈ [opaqueMsg, { base with tag := .opaqueRaw, len := 31 }], s.legal ∧ s.tag = .opaqueRaw := by decide +kernel

theorem witness_RepackEncodesTypedPayload :
    typedMsg21.legal ∧ typedMsg21.tag = .typed ∧ descOf typedMsg21.cfg typedMsg21.mtype = some desc21 ∧
    countsAgree desc21 [3] (payloadValue typedMsg21) desc21 [3] = true ∧
    (expandItems desc21 [3]).length = typedMsg21.nv.toNat ∧
    elemBits (expandItems desc21 [3]) = 24 * typedMsg21.len.toNat ∧
    ∀ j fd, (expandItems desc21 [3])[j]? = some fd → representable fd (payloadValue typedMsg21 j) = true := by
  refine ⟨by decide +kernel, by decide, by decide, by decide +kernel, by decide +kernel, by decide +kernel, ?_⟩
  intro j fd h
  have hj : j < 7 := (List.getElem?_eq_some_iff.mp h).1
  have hall : ∀ j < 7, ∀ fd ∈ (expandItems desc21 [3])[j]?, representable fd (payloadValue typedMsg21 j) = true := by
    decide +kernel
  exact hall j hj fd h

theorem witness_RepackAcceptsOnlyWellShaped :
    typedMsg21.legal ∧ typedMsg21.tag = .typed ∧ ends .repack typedMsg21 0 = true := by decide +kernel

theorem noRemaining_desc20 : ∀ fds, Item.group .remaining fds ∉ desc20 := by
  intro fds h; simp [desc20] at h

theorem noRemaining_scalars : ∀ fds, Item.group .remaining fds ∉ [Item.field (u 8), .field (sg 16 5)] := by
  intro fds h; simp at h

/-- The four clauses: one entry short; one too many; part of a tuple left; a count one above its field's range, and -1. -/
theorem witness_RepackRefusesImpossibleLayout :
    let short := typedMsg 20 3 [3, -35, 1, -2, 2, -4, 3]
    let long := typedMsg 20 3 [3, -35, 1, -2, 2, -4, 3, -6, 0]
    let part := typedMsg 1 5 [0, 1, 7, -1234, 12]
    (short.legal ∧ layoutReaches short desc20 desc20 [3] ∧ (expandItems desc20 [3]).length = short.nv.toNat + 1 ∧
      ends .repack short 3 = true) ∧
    (long.legal ∧ layoutReaches long desc20 desc20 [3] ∧ (expandItems desc20 [3]).length + 1 = long.nv.toNat ∧
      ends .repack long 3 = true) ∧
    (part.legal ∧ layoutReaches part desc1 [] [] ∧ (part.nv.toNat - 0) % 6 ≠ 0 ∧ ends .repack part 3 = true) ∧
    ∀ x ∈ [(256 : Int), -1], (typedMsg 20 3 [x, -35]).legal ∧
      layoutReaches (typedMsg 20 3 [x, -35]) desc20 [.field (u 8), .field (sg 16 5)] [] ∧
      (payloadValue (typedMsg 20 3 [x, -35]) (entryOfItem desc20 [] 0) < 0 ∨
        (2 : Int) ^ sourceWidth desc20 0 - 1 < payloadValue (typedMsg 20 3 [x, -35]) (entryOfItem desc20 [] 0)) ∧
      ends .repack (typedMsg 20 3 [x, -35]) 2 = true := by
  refine ⟨⟨by decide +kernel, ⟨noRemaining_desc20, by decide +kernel, ?_⟩, by decide +kernel, by decide +kernel⟩,
    ⟨by decide +kernel, ⟨noRemaining_desc20, by decide +kernel, ?_⟩, by decide +kernel, by decide +kernel⟩,
    ⟨by decide +kernel, ⟨fun fds h => by simp at h, by decide, rfl⟩, by decide +kernel, by decide +kernel⟩, ?_⟩
  · simp [admissibleCounts, desc20, sourceWidth, u]
  · simp [admissibleCounts, desc20, sourceWidth, u]
  · intro x hx
    simp only [List.mem_cons, List.not_mem_nil, or_false] at hx
    rcases hx with rfl | rfl
    · exact ⟨by decide +kernel, ⟨noRemaining_scalars, by decide, rfl⟩, by decide +kernel, by decide +kernel⟩
    · exact ⟨by decide +kernel, ⟨noRemaining_scalars, by decide, rfl⟩, by decide +kernel, by decide +kernel⟩

/-- The three clauses: LEN one off, with a bad value too; the right LEN with a value that is no multiple of its scale (RP3);
all well. -/
theorem witness_RepackCodeFollowsLengthThenValues :
    let bad := typedMsg 21 2 [1, -1, 2, -16, 7, 15, 127]
    (∀ s ∈ [typedMsg21, bad, { bad with len := 3 }, { bad with len := 1 }], s.legal ∧ s.tag = .typed ∧
      descOf s.cfg s.mtype = some desc21 ∧ countsAgree desc21 [3] (payloadValue s) desc21 [3] = true ∧
      (expandItems desc21 [3]).length = s.nv.toNat) ∧
    admissibleCounts desc21 desc21 [3] ∧ elemBits (expandItems desc21 [3]) = 24 * 2 ∧
    (expandItems desc21 [3])[6]? = some ⟨24, false, 128⟩ ∧
    representable ⟨24, false, 128⟩ (payloadValue bad 6) = false ∧
    ends .repack { bad with len := 3 } 3 = true ∧ ends .repack { bad with len := 1 } 3 = true ∧
    ends .repack bad 2 = true ∧ ends .repack typedMsg21 0 = true := by
  refine ⟨by decide +kernel, ?_, by decide +kernel, by decide +kernel, by decide +kernel, by decide +kernel,
    by decide +kernel, by decide +kernel, by decide +kernel⟩
  simp [admissibleCounts, desc21]

/-- Three tuples of 8 bits: one word is their number, none and two are not; and no tuple at all. -/
theorem witness_RepackOfTuplesNeedsExactLen :
    (∀ s ∈ [typedMsg 16 1 [71, 80, 83], typedMsg 16 0 [71, 80, 83], typedMsg 16 2 [71, 80, 83]], s.legal ∧
      s.tag = .typed ∧ descOf s.cfg s.mtype = some [.group .remaining [u 8]] ∧ s.nv.toNat = 3 * [u 8].length) ∧
    ends .repack (typedMsg 16 1 [71, 80, 83]) 0 = true ∧ ends .repack (typedMsg 16 0 [71, 80, 83]) 3 = true ∧
    ends .repack (typedMsg 16 2 [71, 80, 83]) 3 = true ∧
    (typedMsg 16 0 []).legal ∧ (typedMsg 16 0 []).nv.toNat = 0 * [u 8].length ∧
    ends .repack (typedMsg 16 0 []) 0 = true :=
  ⟨by decide +kernel, by decide +kernel, by decide +kernel, by decide +kernel, by decide +kernel, by decide +kernel,
    by decide +kernel⟩

theorem witness_RepackedPreambleMatches :
    typedMsg21.legal ∧ ends .repack typedMsg21 0 = true ∧ opaqueMsg.legal ∧
    (after .repack { opaqueMsg with ctx0 := 1 }).resps = opaqueMsg.resps ++ [⟨0, 0⟩] := by decide +kernel

theorem witness_UnpackAfterRepackRestoresMessage :
    typedMsg21.legal ∧ ends .repack typedMsg21 0 = true ∧ typedMsg21.tag ≠ .opaqueRaw ∧
    opaqueMsg.legal ∧ ends .repack opaqueMsg 0 = true ∧ opaqueMsg.tag = .opaqueRaw ∧
    descOf opaqueMsg.cfg opaqueMsg.mtype = none := by decide +kernel

theorem witness_RepackAfterUnpackRestoresWords :
    ∀ s ∈ [typed20, opaque2], s.legal ∧ ends .unpack s 0 = true ∧
      (trueData (s.rw.read 0)).extractLsb' 16 8 = s.cfg.preamble ∧
      (∀ i, i < s.nw.toNat →
        (s.rw.read i).extractLsb' 30 2 = (if i = 0 then s.ctx0 else (s.rw.read (i - 1)).extractLsb' 0 2) ∧
        trueData (s.rw.read i) = (after .unpack s).dw.read i ∧
        (s.rw.read i).extractLsb' 0 6 =
          parity s.cfg ((s.rw.read i).extractLsb' 31 1) ((s.rw.read i).extractLsb' 30 1)
            ((after .unpack s).dw.read i)) := by
  decide +kernel

/-- A TYPED and an OPAQUE sequence with a wrong parity bit. -/
theorem witness_RepackAfterUnpackRestoresData :
    ∀ s ∈ [{ typed20 with rw := typed20.rw.write 3 0xF8003420 }, { opaque2 with rw := opaque2.rw.write 1 0xFF09B467 }],
      s.legal ∧ ends .unpack s 0 = true ∧ (trueData (s.rw.read 0)).extractLsb' 16 8 = s.cfg.preamble ∧
      (after .repack { after .unpack s with ctx0 := 3 }).resps = [⟨0, 0⟩, ⟨0, 0⟩] := by decide +kernel

/-- The six branches, in order. -/
theorem witness_DecodeClassifiesSequence :
    answer .decode base = [(0, 0)] ∧ answer .decode (raw [0x267EF81B]) = [(6, 3)] ∧
    answer .decode { typed16 with nw := 1 } = [(0, 0)] ∧ answer .decode { shortOf3 with nw := 2 } = [(3, 2)] ∧
    answer .decode { typed16 with nw := 2 } = [(0, 0)] ∧ answer .decode typed16 = [(0, 1)] ∧
    answer .decode { typed16 with nw := 4 } = [(4, 2)] := by decide +kernel

theorem witness_OnlyNamedCommandsWrite :
    exec .unpack typed16 = .next (after .unpack typed16) ∧ (after .unpack typed16).v ≠ typed16.v ∧
    (after .unpack typed16).dw ≠ typed16.dw ∧ (after .repack typedMsg21).rw ≠ typedMsg21.rw :=
  ⟨exec_after _ _, by decide +kernel, by decide +kernel, by decide +kernel⟩

theorem witness_BadCommandChangesNothing :
    ends .repack { typed16 with tag := .noMessage } 7 = true ∧ ends (.wr 0 0 34) typed16 7 = true := by decide

theorem witness_ErrorCodesOfEachCommand :
    typed16.legal ∧ exec .unpack typed16 = .next (after .unpack typed16) ∧
    (after .unpack typed16).resps = typed16.resps ++ [⟨0, 0⟩] :=
  ⟨by decide +kernel, exec_after _ _, by decide +kernel⟩

theorem witness_RepeatedCommandIdempotent :
    typed16.legal ∧ typedMsg21.legal ∧ ends .strip typed16 0 = true ∧ ends .sealRaw typed16 0 = true ∧
    ends .unpack typed16 0 = true ∧ ends .repack typedMsg21 0 = true := by decide +kernel

/-- The same sequence in two states that differ in everything else. -/
def typed16' : State := { typed16 with off := 7, lim := 9, ctx0 := 2, tag := .opaqueRaw, nv := 5, v := [(0, 1)], dw := [(9, 1)] }

theorem witness_UnpackDependsOnSequenceOnly :
    typed16.legal ∧ typed16'.legal ∧ typed16.nw = typed16'.nw ∧
    (∀ i, i < typed16.nw.toNat → typed16.rw.read i = typed16'.rw.read i) ∧
    (∀ ty, descOf typed16.cfg ty = descOf typed16'.cfg ty) ∧ typed16.cfg.preamble = typed16'.cfg.preamble ∧
    exec .unpack typed16 = .next (after .unpack typed16) ∧ exec .unpack typed16' = .next (after .unpack typed16') ∧
    exec .decode typed16 = .next (after .decode typed16) ∧ exec .decode typed16' = .next (after .decode typed16') :=
  ⟨by decide +kernel, by decide +kernel, rfl, fun _ _ => rfl, fun _ => rfl, rfl, exec_after _ _, exec_after _ _,
    exec_after _ _, exec_after _ _⟩

/-- The same for each outcome of DECODE: INCOMPLETE, MESSAGE, INVALID, RESYNC. -/
theorem witness_DecodeOutcomes :
    ∀ p ∈ [(2#6, 0x199007C6#32, 0#32), (3, 0x199007C6, 1), (4, 0x199007C6, 2), (3, 0x267EF81B, 3)],
      let s := { typed16 with nw := p.1, rw := typed16.rw.write 0 p.2.1 }
      let s' := { typed16' with nw := p.1, rw := typed16.rw.write 0 p.2.1 }
      s.legal ∧ s'.legal ∧ (after .decode s).resps.map Response.dout = [p.2.2] ∧
        (after .decode s').resps.map Response.dout = [p.2.2] := by decide +kernel

/-- The same message in two states that differ in everything else. -/
def typedMsg21' : State := { typedMsg21 with off := 7, lim := 9, nw := 5, rw := [(3, 1)], dw := [(9, 1)] }

theorem witness_RepackDependsOnMessageOnly :
    typedMsg21.legal ∧ typedMsg21'.legal ∧ sameMessage typedMsg21 typedMsg21' ∧
    typedMsg21.ctx0 = typedMsg21'.ctx0 ∧ typedMsg21.cfg = typedMsg21'.cfg ∧ typedMsg21.tag ≠ .noMessage ∧
    exec .repack typedMsg21 = .next (after .repack typedMsg21) ∧
    exec .repack typedMsg21' = .next (after .repack typedMsg21') :=
  ⟨by decide +kernel, by decide +kernel, ⟨rfl, ⟨rfl, rfl, rfl, rfl, rfl, rfl⟩, fun _ => ⟨rfl, fun _ _ => rfl⟩, fun _ _ _ => rfl⟩,
    rfl, rfl, by decide, exec_after _ _, exec_after _ _⟩

end Sys2Proof.Tests
end

section
/-! The reset of the block (spec/10_state.md R44, spec/46_host_access.md R213). -/

namespace Sys2Proof.Machine

/-! ### The command word of RESET -/

theorem decode_of_opcode_0xFF (cw data : Word) (h : (cwField cw 24 8).toNat = 0xFF) :
    decode ⟨cw, data⟩ = decodeN cw .reset := by
  simp only [decode, h]

/-- DATA takes no part: RESET has the word of format N (R96). -/
theorem decode_reset_word (data : Word) : decode ⟨0xFF000000#32, data⟩ = .ok .reset := by
  have hop : (cwField 0xFF000000#32 24 8).toNat = 0xFF := by decide
  have hmbz : (0xFF000000#32).toNat % 2 ^ 24 = 0 := by decide
  rw [decode_of_opcode_0xFF _ data hop, decodeN_eq, if_pos hmbz]

/-! ### What RESET leaves -/

/-- Clearing forgets all but the configuration and the model's own fields: the rest is that of power-on. -/
theorem State.clear_eq_reset (s : State) :
    s.clear = { State.reset with cfg := s.cfg, cmds := s.cmds, resps := s.resps, draws := s.draws } := rfl

theorem exec_reset (s : State) : exec .reset s = .next (s.clear.succeed 0) := rfl

theorem exec_reset_eq (s : State) :
    exec .reset s = .next { State.reset with
      cfg := s.cfg, cmds := s.cmds, draws := s.draws, resps := s.resps ++ [⟨0#4, 0#32⟩] } := by
  rw [exec_reset, State.succeed_eq, State.clear_eq_reset]
  rfl

/-! ### The arrays at power-on: no entry is listed, and an entry that is not listed reads as 0 -/

@[simp] theorem State.read_reset_rw (a : Nat) : State.reset.rw.read a = 0 := Memory.read_nil a
@[simp] theorem State.read_reset_dw (a : Nat) : State.reset.dw.read a = 0 := Memory.read_nil a
@[simp] theorem State.read_reset_v (a : Nat) : State.reset.v.read a = 0 := Memory.read_nil a
@[simp] theorem State.read_reset_opq (a : Nat) : State.reset.opq.read a = 0 := Memory.read_nil a

/-- Settles O11: RESET clears to the power-on state, whose registers are zero as it lists them and whose arrays are
empty. -/
theorem resetZeroesEverything : Obligations.ResetZeroesEverything := by
  unfold Obligations.ResetZeroesEverything
  exact ⟨decode_reset_word, fun s => ⟨_, exec_reset_eq s, rfl⟩,
    rfl, rfl, rfl, rfl, rfl, rfl, rfl, rfl, rfl, rfl, rfl, rfl,
    State.read_reset_rw, State.read_reset_dw, State.read_reset_v, State.read_reset_opq⟩

end Sys2Proof.Machine
end

section
/-! The commands of the Bit Cursor, CREAD and CWRITE (spec/40_bit_cursor.md R122, R123). -/

namespace Sys2Proof.Machine

/-! ### The command words of format C -/

theorem cwField_opcode_encodeC (op : BitVec 8) (sgn : Bool) (width : BitVec 5) :
    (cwField (encodeC op sgn width) 24 8).toNat = op.toNat := by
  have hsgn := Bool.toNat_lt sgn
  rw [toNat_cwField, toNat_encodeC]
  omega

/-- The format's two operands are read back as they were laid out (R96). -/
theorem decodeC_encodeC (op : BitVec 8) (sgn : Bool) (width : BitVec 5) (mk : Bool → BitVec 5 → Instr) :
    decodeC (encodeC op sgn width) mk = .ok (mk sgn width) := by
  have hsgn := Bool.toNat_lt sgn
  have hbit : (encodeC op sgn width).toNat.testBit 8 = sgn := by
    rw [toNat_encodeC, Nat.testBit_eq_decide_div_mod_eq,
      show (op.toNat * 2 ^ 24 + sgn.toNat * 2 ^ 8 + width.toNat) / 2 ^ 8 % 2 = sgn.toNat by omega]
    cases sgn <;> rfl
  have hwidth : BitVec.ofNat 5 (encodeC op sgn width).toNat = width := by
    apply BitVec.eq_of_toNat_eq
    rw [BitVec.toNat_ofNat, toNat_encodeC]
    omega
  rw [decodeC_ok_iff, hbit, hwidth, toNat_encodeC]
  exact ⟨by omega, by omega, rfl⟩

theorem decode_cread_word (sgn : Bool) (width : BitVec 5) (data : Word) :
    decode ⟨encodeC 0x10 sgn width, data⟩ = .ok (.cread sgn width) := by
  have hop : (cwField (encodeC 0x10 sgn width) 24 8).toNat = 0x10 := cwField_opcode_encodeC 0x10 sgn width
  simp only [decode, hop]
  exact decodeC_encodeC 0x10 sgn width .cread

theorem decode_cwrite_word (sgn : Bool) (width : BitVec 5) (data : Word) :
    decode ⟨encodeC 0x11 sgn width, data⟩ = .ok (.cwrite sgn width data) := by
  have hop : (cwField (encodeC 0x11 sgn width) 24 8).toNat = 0x11 := cwField_opcode_encodeC 0x11 sgn width
  simp only [decode, hop]
  exact decodeC_encodeC 0x11 sgn width (fun sgn width => .cwrite sgn width data)

/-! ### How a command ends, by what its cursor operation answers -/

section
variable {s t : State} {sgn : Bool} {width : BitVec 5} {data : Word} {e : ErrKind}

theorem illegalWidth_eq_false (hw : 1 ≤ width.toNat) (hw' : width.toNat ≤ 24) : illegalWidth width = false := by
  rw [← Bool.not_eq_true, illegalWidth_iff]
  omega

theorem exec_cread_illegalWidth (h : width.toNat = 0 ∨ 24 < width.toNat) :
    exec (.cread sgn width) s = .next (s.raiseError .badCommand) :=
  if_pos ((illegalWidth_iff width).2 h)

theorem exec_cread_ok {x : Int} (hw : 1 ≤ width.toNat) (hw' : width.toNat ≤ 24)
    (h : curRead s width.toNat sgn = .ok (x, t)) :
    exec (.cread sgn width) s = .next (t.succeed (BitVec.ofInt 32 x)) := by
  simp [exec, execCread, illegalWidth_eq_false hw hw', h]

theorem exec_cread_error (hw : 1 ≤ width.toNat) (hw' : width.toNat ≤ 24)
    (h : curRead s width.toNat sgn = .error e) : exec (.cread sgn width) s = .next (s.raiseError e) := by
  simp [exec, execCread, illegalWidth_eq_false hw hw', h]

/-- DATA as CWRITE reads it: signed for `sgn = 1`, unsigned for `sgn = 0` (R123). -/
abbrev dataValue (sgn : Bool) (data : Word) : Int := if sgn then data.toInt else (data.toNat : Int)

theorem exec_cwrite_illegalWidth (h : width.toNat = 0 ∨ 24 < width.toNat) :
    exec (.cwrite sgn width data) s = .next (s.raiseError .badCommand) :=
  if_pos ((illegalWidth_iff width).2 h)

theorem exec_cwrite_ok (hw : 1 ≤ width.toNat) (hw' : width.toNat ≤ 24)
    (h : curWrite s (dataValue sgn data) width.toNat sgn = .ok t) :
    exec (.cwrite sgn width data) s = .next (t.succeed 0) := by
  simp [exec, execCwrite, illegalWidth_eq_false hw hw', h]

theorem exec_cwrite_error (hw : 1 ≤ width.toNat) (hw' : width.toNat ≤ 24)
    (h : curWrite s (dataValue sgn data) width.toNat sgn = .error e) :
    exec (.cwrite sgn width data) s = .next (s.raiseError e) := by
  simp [exec, execCwrite, illegalWidth_eq_false hw hw', h]

end

/-! ### CREAD -/

/-- The bits of a field in DOUT: the field's, its first the most significant, then its zero or sign extension (R122). -/
theorem getLsbD_ofInt_field (dw : Memory 24) (o w : Nat) (sgn : Bool) (k : Nat) (hw : 1 ≤ w) (hk : k < 32) :
    (BitVec.ofInt 32 (patternValue w sgn (memRead dw o w))).getLsbD k =
      if k < w then bitAt dw (o + (w - 1 - k)) else sgn && bitAt dw o := by
  rw [getLsbD_ofInt_patternValue w sgn _ k hw (memRead_lt dw o w) hk, testBit_memRead, testBit_memRead,
    show o + (w - 1 - (w - 1)) = o by omega]
  split
  · next hkw => simp [hkw]
  · simp [show w - 1 < w by omega]

/-- `OFF` as the cursor computes it, in the 10 bits of the register. -/
theorem ofNat_off_add_width (off : BitVec 10) (width : BitVec 5) :
    BitVec.ofNat 10 (off.toNat + width.toNat) = off + width.setWidth 10 := by
  bv_omega

/-- Settles O17: CREAD answers as `cur_read` does, whose value's bits are those of the field. -/
theorem creadReadsField : Obligations.CreadReadsField := by
  unfold Obligations.CreadReadsField
  refine ⟨decode_cread_word, fun s sgn width => ?_⟩
  intro w
  by_cases hw : w = 0 ∨ 24 < w
  · rw [if_pos hw]
    exact exec_cread_illegalWidth hw
  rw [if_neg hw]
  by_cases hlim : s.lim.toNat < s.off.toNat + w
  · rw [if_pos hlim]
    exact exec_cread_error (by omega) (by omega) ((curRead_error_iff s w sgn _).2 ⟨hlim, rfl⟩)
  · rw [if_neg hlim, ← ofNat_off_add_width]
    have hread := (curRead_ok_iff s w sgn _ _).2 ⟨Nat.le_of_not_lt hlim, rfl, rfl⟩
    exact ⟨_, exec_cread_ok (by omega) (by omega) hread,
      fun k hk => getLsbD_ofInt_field s.dw s.off.toNat w sgn k (by omega) hk⟩

/-! ### CWRITE -/

/-- Settles O18: CWRITE answers as `cur_write` does, whose range check is the one on the bits of DATA and whose field is
the low bits of DATA. -/
theorem cwriteWritesField : Obligations.CwriteWritesField := by
  unfold Obligations.CwriteWritesField
  refine ⟨decode_cwrite_word, fun s sgn width data => ?_⟩
  intro w fits need
  have hfits (hw : 1 ≤ w) (hw' : w ≤ 24) : fitsField w sgn (dataValue sgn data) = true ↔ fits :=
    fitsField_data_iff data sgn w hw (by omega)
  refine ⟨exec_cwrite_illegalWidth, fun hw hw' hf => ?_, fun hw hw' hf hcap => ?_, fun hw hw' hf hcap => ?_⟩
  · have hrange : fitsField w sgn (dataValue sgn data) = false := by rwa [← Bool.not_eq_true, hfits hw hw']
    exact exec_cwrite_error hw hw' ((curWrite_error_iff s _ w sgn _).2 (.inl ⟨hrange, rfl⟩))
  · have hrange := (hfits hw hw').2 hf
    exact exec_cwrite_error hw hw' ((curWrite_error_iff s _ w sgn _).2 (.inr ⟨hrange, hcap, rfl⟩))
  · have hwrite := (curWrite_ok_iff s _ w sgn _).2 ⟨(hfits hw hw').2 hf, hcap, rfl⟩
    obtain ⟨hstate, hbits⟩ := curWrite_spec s _ w sgn _ hwrite
    refine ⟨_, (exec_cwrite_ok hw hw' hwrite).trans (by rw [hstate]; rfl), fun a => ?_⟩
    rw [hbits a]
    split
    · exact emod_testBit_data data sgn w _ (by omega) (by omega)
    · rfl

end Sys2Proof.Machine
end

section
/-! The command of the Preamble Validator, PMATCH (spec/41_preamble_validator.md R140, R141). -/

namespace Sys2Proof.Machine

/-! ### The command word of format W -/

theorem cwField_opcode_encodeW (op : BitVec 8) (widx : BitVec 6) :
    (cwField (encodeW op widx) 24 8).toNat = op.toNat := by
  rw [toNat_cwField, toNat_encodeW]
  omega

/-- The format's operand is read back as it was laid out (R96). -/
theorem decodeW_encodeW (op : BitVec 8) (widx : BitVec 6) (mk : BitVec 6 → Instr) :
    decodeW (encodeW op widx) mk = .ok (mk widx) := by
  have hwidx : BitVec.ofNat 6 (encodeW op widx).toNat = widx := by
    apply BitVec.eq_of_toNat_eq
    rw [BitVec.toNat_ofNat, toNat_encodeW]
    omega
  rw [decodeW_ok_iff, hwidx, toNat_encodeW]
  exact ⟨by omega, rfl⟩

theorem decode_pmatch_word (widx : BitVec 6) (data : Word) :
    decode ⟨encodeW 0x20 widx, data⟩ = .ok (.pmatch widx) := by
  have hop : (cwField (encodeW 0x20 widx) 24 8).toNat = 0x20 := cwField_opcode_encodeW 0x20 widx
  simp only [decode, hop]
  exact decodeW_encodeW 0x20 widx .pmatch

/-! ### The test, on the bits of the container as transmitted -/

/-- The byte R140 tests is bits 29..22 of the container, complemented under the inverted flag (R82). -/
theorem stripWord_leadingByte (w : RawWord) :
    (stripWord w).extractLsb' 16 8 = if w.getLsbD 30 then ~~~(w.extractLsb' 22 8) else w.extractLsb' 22 8 := by
  apply BitVec.eq_of_getLsbD_eq
  intro i hi
  rw [stripWord_eq, BitVec.getLsbD_extractLsb']
  have hlt : 16 + i < 24 := by omega
  have hbit : 6 + (16 + i) = 22 + i := by omega
  split <;> simp [hi, hlt, hbit]

/-- The complement can stand on either side: R140's test in the form of its second sentence. -/
theorem pmatch_iff (cfg : Config) (w : RawWord) :
    pmatch cfg w = true ↔ w.extractLsb' 22 8 = if w.getLsbD 30 then ~~~cfg.preamble else cfg.preamble := by
  rw [pmatch, decide_eq_true_iff, stripWord_leadingByte]
  split
  · exact BitVec.not_eq_comm
  · rfl

/-! ### How the command ends -/

theorem exec_pmatch_badIndex {s : State} {widx : BitVec 6} (h : 32 < widx.toNat) :
    exec (.pmatch widx) s = .next (s.raiseError .badCommand) :=
  if_pos h

theorem exec_pmatch_entry {s : State} {widx : BitVec 6} (h : ¬ 32 < widx.toNat) :
    exec (.pmatch widx) s = .next (s.succeed (boolResult (pmatch s.cfg (s.rw.read widx.toNat)))) :=
  if_neg h

/-- Settles O20: by the index, and for an index of `RW` by the outcome of the test, in the form `pmatch_iff` gives it. -/
theorem pmatchComparesEitherPolarity : Obligations.PmatchComparesEitherPolarity := by
  unfold Obligations.PmatchComparesEitherPolarity
  refine ⟨decode_pmatch_word, fun s widx => ?_⟩
  intro w
  by_cases hidx : 32 < widx.toNat
  · rw [if_pos hidx]
    exact exec_pmatch_badIndex hidx
  rw [if_neg hidx, exec_pmatch_entry hidx, State.succeed_eq, boolResult,
    if_congr (pmatch_iff s.cfg w) rfl rfl, apply_ite (Response.mk 0#4)]

end Sys2Proof.Machine
end

section
/-! The command of the Length Validator, LCHECK (spec/42_length_validator.md R150, R151). -/

namespace Sys2Proof.Machine

/-! ### The command word of format L -/

theorem cwField_opcode_encodeL (op : BitVec 8) (mtype : BitVec 6) (count : BitVec 5) :
    (cwField (encodeL op mtype count) 24 8).toNat = op.toNat := by
  rw [toNat_cwField, toNat_encodeL]
  omega

/-- The format's two operands are read back as they were laid out (R96). -/
theorem decodeL_encodeL (op : BitVec 8) (mtype : BitVec 6) (count : BitVec 5) (mk : BitVec 6 → BitVec 5 → Instr) :
    decodeL (encodeL op mtype count) mk = .ok (mk mtype count) := by
  have hmtype : BitVec.ofNat 6 ((encodeL op mtype count).toNat / 2 ^ 8) = mtype := by
    apply BitVec.eq_of_toNat_eq
    rw [BitVec.toNat_ofNat, toNat_encodeL]
    omega
  have hcount : BitVec.ofNat 5 (encodeL op mtype count).toNat = count := by
    apply BitVec.eq_of_toNat_eq
    rw [BitVec.toNat_ofNat, toNat_encodeL]
    omega
  rw [decodeL_ok_iff, hmtype, hcount, toNat_encodeL]
  exact ⟨by omega, by omega, rfl⟩

theorem decode_lcheck_word (mtype : BitVec 6) (count : BitVec 5) (data : Word) :
    decode ⟨encodeL 0x21 mtype count, data⟩ = .ok (.lcheck mtype count) := by
  have hop : (cwField (encodeL 0x21 mtype count) 24 8).toNat = 0x21 := cwField_opcode_encodeL 0x21 mtype count
  simp only [decode, hop]
  exact decodeL_encodeL 0x21 mtype count .lcheck

/-! ### What the command answers -/

/-- `lcheck_iff` with its two ways to pass set apart: no descriptor, or counts that fill (R150). -/
theorem lcheck_iff_unknown_or_fills (cfg : Config) (c : BitVec 5) (t : BitVec 6) :
    lcheck cfg c t = true ↔ descOf cfg t = none ∨ ∃ d ks, descOf cfg t = some d ∧ admissibleCounts d d ks ∧
      elemBits (expandItems d ks) = 24 * c.toNat := by
  rw [lcheck_iff]
  cases descOf cfg t with
  | none => simp
  | some d => simp

theorem exec_lcheck (s : State) (mtype : BitVec 6) (count : BitVec 5) :
    exec (.lcheck mtype count) s = .next (s.succeed (boolResult (lcheck s.cfg count mtype))) := rfl

/-- Settles O21: the answer is that of `lcheck`, whose search finds every admissible filling. -/
theorem lcheckSearchesCounts : Obligations.LcheckSearchesCounts := by
  unfold Obligations.LcheckSearchesCounts
  refine ⟨decode_lcheck_word, fun s mtype count => ⟨lcheck s.cfg count mtype, ?_, ?_⟩⟩
  · rw [exec_lcheck, State.succeed_eq, boolResult]
  · exact lcheck_iff_unknown_or_fills s.cfg count mtype

end Sys2Proof.Machine
end

section
/-! The commands of the Unpacker, STRIP (spec/43_unpacker.md R160, R161) and UNPACK of a type without a descriptor (R162
to R165, R168). -/

namespace Sys2Proof.Machine

open Sys2Proof.Claims

/-! ### The command word of format N -/

theorem cwField_opcode_encodeN (op : BitVec 8) : (cwField (encodeN op) 24 8).toNat = op.toNat := by
  rw [toNat_cwField, toNat_encodeN]
  omega

theorem decodeN_encodeN (op : BitVec 8) (i : Instr) : decodeN (encodeN op) i = .ok i := by
  rw [decodeN_eq, toNat_encodeN, if_pos (Nat.mul_mod_left _ _)]

theorem decode_strip_word (data : Word) : decode ⟨encodeN 0x30, data⟩ = .ok .strip := by
  have hop : (cwField (encodeN 0x30) 24 8).toNat = 0x30 := cwField_opcode_encodeN 0x30
  simp only [decode, hop]
  exact decodeN_encodeN 0x30 .strip

/-! ### The terms of the claims in the terms of the model -/

theorem trueData_eq_stripWord (w : RawWord) : trueData w = stripWord w := (stripWord_eq w).symm

theorem declaredCount_eq (s : State) : declaredCount s = (headerCount (s.rw.read 1)).toNat := by
  rw [declaredCount, trueData_eq_stripWord, headerCount]

theorem declaredType_eq (s : State) : declaredType s = headerType (s.rw.read 0) := by
  rw [declaredType, trueData_eq_stripWord, headerType]

theorem read_stripWords_trueData (s : State) (i : Nat) :
    (stripWords s).dw.read i = if i < s.nw.toNat then trueData (s.rw.read i) else s.dw.read i := by
  rw [read_stripWords, trueData_eq_stripWord]

theorem headerOf_headerRead (s : State) :
    headerOf (headerRead s) (trueData (s.rw.read 0)) (trueData (s.rw.read 1)) := by
  rw [trueData_eq_stripWord, trueData_eq_stripWord]
  exact ⟨rfl, rfl, rfl, rfl, rfl, rfl⟩

/-! ### STRIP -/

theorem exec_strip_eq (s : State) :
    exec .strip s = .next { s with dw := (stripWords s).dw, resps := s.resps ++ [⟨0#4, 0#32⟩] } :=
  congrArg Host.Outcome.next (State.succeed_eq (stripWords s) 0)

/-- Settles O23: STRIP writes the `DW` of `strip()` and nothing else, and that is the data view. -/
theorem stripMakesDataView : Obligations.StripMakesDataView := by
  unfold Obligations.StripMakesDataView
  exact ⟨decode_strip_word, fun s => ⟨(stripWords s).dw, exec_strip_eq s, read_stripWords_trueData s⟩⟩

/-! ### UNPACK of a type without a descriptor -/

section
variable {s t : State}

theorem exec_unpack_ok (h : unpackRun s = .ok t) : exec .unpack s = .next (t.succeed 0) := by
  simp only [exec, execUnpack, unpackMessage, h, State.succeed]

/-- With exactly the declared words, the dispatch of R164 takes a type without a descriptor to the opaque path. -/
theorem unpackRun_unknownType (h2 : 2 ≤ s.nw.toNat) (hnw : s.nw.toNat = 2 + declaredCount s)
    (hdesc : descOf s.cfg (declaredType s) = none) : unpackRun s = .ok (unpackOpaque (headerRead s)) := by
  rw [declaredCount_eq] at hnw
  rw [declaredType_eq] at hdesc
  rw [unpackRun_eq, if_neg (by omega), if_neg (by omega), if_neg (by omega), hdesc]

/-- All that the opaque path writes: the header registers, the data view, the preserved words, the variant and the
cursor at the end of the sequence (R162 to R165). -/
theorem unpackOpaque_headerRead (hnw : s.nw.toNat = 2 + declaredCount s) :
    unpackOpaque (headerRead s) =
      { s with
        mtype := (headerRead s).mtype, stid := (headerRead s).stid, zcnt := (headerRead s).zcnt,
        seq := (headerRead s).seq, len := (headerRead s).len, health := (headerRead s).health,
        dw := (stripWords s).dw, opq := s.opq.fill 0 (declaredCount s) (fun i => s.rw.read (2 + i)),
        tag := .opaqueRaw, nv := 0,
        off := BitVec.ofNat 10 (24 * s.nw.toNat), lim := BitVec.ofNat 10 (24 * s.nw.toNat) } := by
  rw [hnw, declaredCount_eq]
  rfl

end

/-- Reading an array whose first `n` entries have been filled. -/
theorem Memory.read_fill_zero {w : Nat} (m : Memory w) (n : Nat) (f : Nat → BitVec w) (i : Nat) :
    (m.fill 0 n f).read i = if i < n then f i else m.read i := by
  simp only [Memory.read_fill, Nat.zero_le, true_and, Nat.zero_add, Nat.sub_zero]

/-- Settles O29: the sequence takes the opaque path, and each clause is read off the one equation for what that path
leaves. -/
theorem unpackKeepsUnknownTypeVerbatim : Obligations.UnpackKeepsUnknownTypeVerbatim := by
  unfold Obligations.UnpackKeepsUnknownTypeVerbatim
  intro s _ h2 hnw hdesc
  have hrun := unpackRun_unknownType h2 hnw hdesc
  rw [unpackOpaque_headerRead hnw] at hrun
  exact ⟨_, exec_unpack_ok hrun, State.succeed_eq .., headerOf_headerRead s, read_stripWords_trueData s,
    Memory.read_fill_zero s.opq (declaredCount s) _⟩

end Sys2Proof.Machine
end

section
/-! The command of the Repacker that seals the data view, SEAL (spec/44_repacker.md R180, R181). -/

namespace Sys2Proof.Machine

open Sys2Proof.Claims

theorem decode_sealRaw_word (data : Word) : decode ⟨encodeN 0x38, data⟩ = .ok .sealRaw := by
  have hop : (cwField (encodeN 0x38) 24 8).toNat = 0x38 := cwField_opcode_encodeN 0x38
  simp only [decode, hop]
  exact decodeN_encodeN 0x38 .sealRaw

/-! ### The clauses of `sealedFrom` for one container -/

theorem trueData_sealWord (cfg : Config) (ctx : BitVec 2) (d : DataWord) : trueData (sealWord cfg ctx d) = d := by
  rw [trueData_eq_stripWord, stripWord_sealWord]

/-- A field of a field is a field of the word. -/
theorem extractLsb'_extractLsb'_add {w : Nat} (x : BitVec w) (a k m n : Nat) (h : k + n ≤ m) :
    (x.extractLsb' a m).extractLsb' k n = x.extractLsb' (a + k) n := by
  ext i hi
  simp [show k + i < m by omega, Nat.add_assoc]

/-- The parity of a sealed container is `PAR` of the context bits the container itself carries (R180). -/
theorem sealWord_parity_of_own_context (cfg : Config) (ctx : BitVec 2) (d : DataWord) :
    (sealWord cfg ctx d).extractLsb' 0 6 =
      parity cfg ((sealWord cfg ctx d).extractLsb' 31 1) ((sealWord cfg ctx d).extractLsb' 30 1) d := by
  rw [← extractLsb'_extractLsb'_add _ 30 1 2 1 (by decide), ← extractLsb'_extractLsb'_add _ 30 0 2 1 (by decide),
    sealWord_context, sealWord_parity]

/-! ### SEAL -/

/-- What `seal(n)` leaves in `RW` obeys `seal` (R180): each word is a container sealed under the bits before it. -/
theorem sealedFrom_sealedRw (cfg : Config) (ctx0 : BitVec 2) (dw : Memory 24) (rw : Memory 32) (n : Nat) :
    sealedFrom cfg ctx0 dw (sealedRw cfg ctx0 dw rw n) n := by
  intro i hi
  have hword := read_sealedRw cfg ctx0 dw rw n i hi
  refine ⟨?context, ?data, ?parity⟩
  case context =>
    rw [hword]
    exact sealWord_context ..
  case data =>
    rw [hword]
    exact trueData_sealWord ..
  case parity =>
    rw [hword]
    exact sealWord_parity_of_own_context ..

theorem exec_sealRaw_eq (s : State) :
    exec .sealRaw s =
      .next { s with rw := sealedRw s.cfg s.ctx0 s.dw s.rw s.nw.toNat, resps := s.resps ++ [⟨0#4, 0#32⟩] } :=
  congrArg Host.Outcome.next (State.succeed_eq (sealWords s s.nw.toNat) 0)

/-- Settles O24: SEAL writes the `RW` of `seal(NW)` and nothing else, whose words below `NW` obey `seal` and whose others
are kept. -/
theorem sealChainsContext : Obligations.SealChainsContext := by
  unfold Obligations.SealChainsContext
  refine ⟨decode_sealRaw_word, fun s => ⟨_, exec_sealRaw_eq s, ?_, ?_⟩⟩
  · exact sealedFrom_sealedRw s.cfg s.ctx0 s.dw s.rw s.nw.toNat
  · exact read_sealedRw_ge s.cfg s.ctx0 s.dw s.rw s.nw.toNat

end Sys2Proof.Machine
end

section
/-! The command of the Decode Adapter, DECODE (spec/45_decode_adapter.md R200, R201). -/

namespace Sys2Proof.Machine

open Sys2Proof.Claims

theorem decode_decode_word (data : Word) : decode ⟨encodeN 0x40, data⟩ = .ok .decode := by
  have hop : (cwField (encodeN 0x40) 24 8).toNat = 0x40 := cwField_opcode_encodeN 0x40
  simp only [decode, hop]
  exact decodeN_encodeN 0x40 .decode

/-! ### The tests of the classification in the terms of the claims -/

theorem not_pmatch_iff (cfg : Config) (w : RawWord) :
    (!pmatch cfg w) = true ↔ (trueData w).extractLsb' 16 8 ≠ cfg.preamble := by
  rw [Bool.not_eq_true', pmatch, decide_eq_false_iff_not, trueData_eq_stripWord]

theorem headerCount_eq (s : State) : headerCount (s.rw.read 1) = BitVec.ofNat 5 (declaredCount s) := by
  rw [declaredCount_eq, BitVec.ofNat_toNat, BitVec.setWidth_eq]

/-- The early length check of R200: it fails a known type only. -/
theorem earlyLengthCheck_iff (s : State) :
    ((descOf s.cfg (headerType (s.rw.read 0))).isSome &&
        !lcheck s.cfg (headerCount (s.rw.read 1)) (headerType (s.rw.read 0))) = true ↔
      (descOf s.cfg (declaredType s)).isSome ∧
        lcheck s.cfg (BitVec.ofNat 5 (declaredCount s)) (declaredType s) = false := by
  rw [← declaredType_eq, headerCount_eq, Bool.and_eq_true, Bool.not_eq_true']

/-! ### The outcome of a sequence that is handed to UNPACK -/

/-- The status of a complete message, by the error UNPACK met in it (R200). -/
def unpackStatus : Option ErrKind → Status
  | none => .message
  | some _ => .invalid

theorem errCode_eq_zero_iff (e : Option ErrKind) : errCode e = 0#4 ↔ e = none := by
  cases e with
  | none => simp [errCode]
  | some e => cases e <;> simp [errCode, errKindCode]

/-- The error code determines the status beside it (R201). -/
theorem statusCode_unpackStatus (e : Option ErrKind) :
    statusCode (unpackStatus e) = if errCode e = 0#4 then 1#32 else 2#32 := by
  rw [if_congr (errCode_eq_zero_iff e) rfl rfl]
  cases e <;> rfl

/-- UNPACK answers only at its end: what runs before its response appends none. -/
theorem unpackMessage_resps (s : State) : (unpackMessage s).1.resps = s.resps := by
  rw [unpackMessage_frame]

/-! ### The classification -/

/-- DECODE up to its response, by the tests of R200 in their order. -/
theorem decodeSequence_eq (s : State) :
    decodeSequence s =
      if s.nw = 0 then (s, none, .incomplete)
      else if (trueData (s.rw.read 0)).extractLsb' 16 8 ≠ s.cfg.preamble then
        (noMessage s, some .preambleMismatch, .resync)
      else if s.nw.toNat < 2 then (s, none, .incomplete)
      else if (descOf s.cfg (declaredType s)).isSome ∧
          lcheck s.cfg (BitVec.ofNat 5 (declaredCount s)) (declaredType s) = false then
        (noMessage s, some .badLength, .invalid)
      else if s.nw.toNat < 2 + declaredCount s then (s, none, .incomplete)
      else ((unpackMessage s).1, (unpackMessage s).2, unpackStatus (unpackMessage s).2) := by
  have hempty : s.nw.toNat = 0 ↔ s.nw = 0 := BitVec.toNat_inj (y := 0#6)
  simp only [decodeSequence, hempty, not_pmatch_iff, earlyLengthCheck_iff, ← declaredCount_eq]
  rcases unpackMessage s with ⟨u, _ | e⟩ <;> rfl

theorem exec_decode (s : State) :
    exec .decode s = .next ((decodeSequence s).1.respond (errCode (decodeSequence s).2.1)
      (statusCode (decodeSequence s).2.2)) := rfl

theorem exec_unpack (s : State) :
    exec .unpack s = .next ((unpackMessage s).1.respond (errCode (unpackMessage s).2) 0#32) := rfl

/-- Settles O42: the branches of DECODE are those of the rule, and the last one is UNPACK's own outcome, whose code
gives the status. -/
theorem decodeClassifiesSequence : Obligations.DecodeClassifiesSequence := by
  unfold Obligations.DecodeClassifiesSequence
  refine ⟨decode_decode_word, fun s => ?_⟩
  rw [exec_decode, decodeSequence_eq]
  split_ifs
  case neg =>
    refine ⟨_, errCode (unpackMessage s).2, exec_unpack s, ?_, ?_⟩
    · rw [State.respond_resps, unpackMessage_resps]
    · rw [statusCode_unpackStatus, State.respond_eq, unpackMessage_resps]
      rfl
  -- the early exits: the state of R200 with its response appended
  all_goals rfl

end Sys2Proof.Machine
end

section
/-! The system command without effect, NOP (spec/46_host_access.md R210). -/

namespace Sys2Proof.Machine

/-- The zero word is format N with the opcode of NOP (R96, R97), and DATA takes no part. -/
theorem decode_nop_word (data : Word) : decode ⟨0x00000000#32, data⟩ = .ok .nop := by
  have hword : 0x00000000#32 = encodeN 0x00 := by decide
  have hop : (cwField (encodeN 0x00) 24 8).toNat = 0x00 := cwField_opcode_encodeN 0x00
  simp only [decode, hword, hop]
  exact decodeN_encodeN 0x00 .nop

theorem exec_nop_eq (s : State) : exec .nop s = .next { s with resps := s.resps ++ [⟨0#4, 0#32⟩] } :=
  congrArg Host.Outcome.next (State.succeed_eq s 0)

/-- Settles O12: the zero word decodes to NOP, whose one effect is the response of a success. -/
theorem nopChangesNothing : Obligations.NopChangesNothing := by
  unfold Obligations.NopChangesNothing
  exact ⟨decode_nop_word, exec_nop_eq⟩

end Sys2Proof.Machine
end

section
/-! The command words (spec/30_encoding.md R96 to R98): the encoder and the decoder are inverse to each other, and which
words are legal. -/

namespace Sys2Proof.Machine

open Sys2Proof.Claims

/-! ### Decoding what the encoder laid out -/

theorem cwField_opcode_encodeA (op : BitVec 8) (space : BitVec 4) (idx : BitVec 10) :
    (cwField (encodeA op space idx) 24 8).toNat = op.toNat := by
  rw [toNat_cwField, toNat_encodeA]
  omega

/-- The format's two operands are read back as they were laid out (R96). -/
theorem decodeA_encodeA (op : BitVec 8) (space : BitVec 4) (idx : BitVec 10) (mk : BitVec 4 → BitVec 10 → Instr) :
    decodeA (encodeA op space idx) mk = .ok (mk space idx) := by
  have hspace : BitVec.ofNat 4 ((encodeA op space idx).toNat / 2 ^ 20) = space := by
    apply BitVec.eq_of_toNat_eq
    rw [BitVec.toNat_ofNat, toNat_encodeA]
    omega
  have hidx : BitVec.ofNat 10 (encodeA op space idx).toNat = idx := by
    apply BitVec.eq_of_toNat_eq
    rw [BitVec.toNat_ofNat, toNat_encodeA]
    omega
  rw [decodeA_ok_iff, hspace, hidx, toNat_encodeA]
  exact ⟨by omega, rfl⟩

theorem decode_rd_word (space : BitVec 4) (idx : BitVec 10) (data : Word) :
    decode ⟨encodeA 0x01 space idx, data⟩ = .ok (.rd space idx) := by
  have hop : (cwField (encodeA 0x01 space idx) 24 8).toNat = 0x01 := cwField_opcode_encodeA 0x01 space idx
  simp only [decode, hop]
  exact decodeA_encodeA 0x01 space idx .rd

theorem decode_wr_word (space : BitVec 4) (idx : BitVec 10) (data : Word) :
    decode ⟨encodeA 0x02 space idx, data⟩ = .ok (.wr space idx data) := by
  have hop : (cwField (encodeA 0x02 space idx) 24 8).toNat = 0x02 := cwField_opcode_encodeA 0x02 space idx
  simp only [decode, hop]
  exact decodeA_encodeA 0x02 space idx (fun space idx => .wr space idx data)

theorem decode_unpack_word (data : Word) : decode ⟨encodeN 0x31, data⟩ = .ok .unpack := by
  have hop : (cwField (encodeN 0x31) 24 8).toNat = 0x31 := cwField_opcode_encodeN 0x31
  simp only [decode, hop]
  exact decodeN_encodeN 0x31 .unpack

theorem decode_repack_word (data : Word) : decode ⟨encodeN 0x39, data⟩ = .ok .repack := by
  have hop : (cwField (encodeN 0x39) 24 8).toNat = 0x39 := cwField_opcode_encodeN 0x39
  simp only [decode, hop]
  exact decodeN_encodeN 0x39 .repack

/-- Settles O1: each command is laid out in its format, whose operands are read back, under its own opcode. -/
theorem decodeOfEncode : Obligations.DecodeOfEncode := by
  unfold Obligations.DecodeOfEncode
  intro i
  cases i with
  | nop => exact decode_nop_word 0
  | rd space idx => exact decode_rd_word space idx 0
  | wr space idx data => exact decode_wr_word space idx data
  | cread sgn width => exact decode_cread_word sgn width 0
  | cwrite sgn width data => exact decode_cwrite_word sgn width data
  | pmatch widx => exact decode_pmatch_word widx 0
  | lcheck mtype count => exact decode_lcheck_word mtype count 0
  | strip => exact decode_strip_word 0
  | unpack => exact decode_unpack_word 0
  | sealRaw => exact decode_sealRaw_word 0
  | repack => exact decode_repack_word 0
  | decode => exact decode_decode_word 0
  | reset => exact decode_reset_word 0

/-! ### Encoding what the decoder accepted -/

section
variable {cw : Word} {i : Instr} {op : BitVec 8}

theorem decodeN_inv (hop : cwField cw 24 8 = op) (h : decodeN cw i = .ok j) : j = i ∧ encodeN op = cw := by
  rw [decodeN_eq] at h
  split at h
  · next hz =>
    refine ⟨(Except.ok.inj h).symm, BitVec.eq_of_toNat_eq ?_⟩
    rw [toNat_encodeN, ← hop, toNat_cwField]
    omega
  · cases h

theorem decodeA_inv {mk : BitVec 4 → BitVec 10 → Instr} (hop : cwField cw 24 8 = op) (h : decodeA cw mk = .ok i) :
    ∃ space idx, i = mk space idx ∧ encodeA op space idx = cw := by
  obtain ⟨hz, rfl⟩ := (decodeA_ok_iff cw mk i).1 h
  refine ⟨_, _, rfl, BitVec.eq_of_toNat_eq ?_⟩
  rw [toNat_encodeA, ← hop, toNat_cwField, BitVec.toNat_ofNat, BitVec.toNat_ofNat]
  omega

theorem decodeC_inv {mk : Bool → BitVec 5 → Instr} (hop : cwField cw 24 8 = op) (h : decodeC cw mk = .ok i) :
    ∃ sgn width, i = mk sgn width ∧ encodeC op sgn width = cw := by
  obtain ⟨hz, hz', rfl⟩ := (decodeC_ok_iff cw mk i).1 h
  refine ⟨_, _, rfl, BitVec.eq_of_toNat_eq ?_⟩
  have hsgn : (cw.toNat.testBit 8).toNat = cw.toNat / 2 ^ 8 % 2 := by rw [Nat.toNat_testBit]
  rw [toNat_encodeC, ← hop, toNat_cwField, BitVec.toNat_ofNat, hsgn]
  omega

theorem decodeW_inv {mk : BitVec 6 → Instr} (hop : cwField cw 24 8 = op) (h : decodeW cw mk = .ok i) :
    ∃ widx, i = mk widx ∧ encodeW op widx = cw := by
  obtain ⟨hz, rfl⟩ := (decodeW_ok_iff cw mk i).1 h
  refine ⟨_, rfl, BitVec.eq_of_toNat_eq ?_⟩
  rw [toNat_encodeW, ← hop, toNat_cwField, BitVec.toNat_ofNat]
  omega

theorem decodeL_inv {mk : BitVec 6 → BitVec 5 → Instr} (hop : cwField cw 24 8 = op) (h : decodeL cw mk = .ok i) :
    ∃ mtype count, i = mk mtype count ∧ encodeL op mtype count = cw := by
  obtain ⟨hz, hz', rfl⟩ := (decodeL_ok_iff cw mk i).1 h
  refine ⟨_, _, rfl, BitVec.eq_of_toNat_eq ?_⟩
  rw [toNat_encodeL, ← hop, toNat_cwField, BitVec.toNat_ofNat, BitVec.toNat_ofNat]
  omega

end

/-- What the decoder accepts: the encoder's word for the command it gives, with DATA taken into the commands that use it. -/
theorem decode_inv {c : Command} {i : Instr} (h : decode c = .ok i) :
    (encode i).cw = c.cw ∧ (∀ space idx data, i = .wr space idx data → data = c.data) ∧
      (∀ sgn width data, i = .cwrite sgn width data → data = c.data) := by
  have hop (op : BitVec 8) (h : (cwField c.cw 24 8).toNat = op.toNat) : cwField c.cw 24 8 = op := BitVec.eq_of_toNat_eq h
  unfold decode at h
  split at h
  case h_1 hn => obtain ⟨rfl, he⟩ := decodeN_inv (hop 0x00 hn) h; exact ⟨he, nofun, nofun⟩
  case h_2 hn => obtain ⟨_, _, rfl, he⟩ := decodeA_inv (hop 0x01 hn) h; exact ⟨he, nofun, nofun⟩
  case h_3 hn =>
    obtain ⟨_, _, rfl, he⟩ := decodeA_inv (hop 0x02 hn) h
    exact ⟨he, fun _ _ _ e => by cases e; rfl, nofun⟩
  case h_4 hn => obtain ⟨_, _, rfl, he⟩ := decodeC_inv (hop 0x10 hn) h; exact ⟨he, nofun, nofun⟩
  case h_5 hn =>
    obtain ⟨_, _, rfl, he⟩ := decodeC_inv (hop 0x11 hn) h
    exact ⟨he, nofun, fun _ _ _ e => by cases e; rfl⟩
  case h_6 hn => obtain ⟨_, rfl, he⟩ := decodeW_inv (hop 0x20 hn) h; exact ⟨he, nofun, nofun⟩
  case h_7 hn => obtain ⟨_, _, rfl, he⟩ := decodeL_inv (hop 0x21 hn) h; exact ⟨he, nofun, nofun⟩
  case h_8 hn => obtain ⟨rfl, he⟩ := decodeN_inv (hop 0x30 hn) h; exact ⟨he, nofun, nofun⟩
  case h_9 hn => obtain ⟨rfl, he⟩ := decodeN_inv (hop 0x31 hn) h; exact ⟨he, nofun, nofun⟩
  case h_10 hn => obtain ⟨rfl, he⟩ := decodeN_inv (hop 0x38 hn) h; exact ⟨he, nofun, nofun⟩
  case h_11 hn => obtain ⟨rfl, he⟩ := decodeN_inv (hop 0x39 hn) h; exact ⟨he, nofun, nofun⟩
  case h_12 hn => obtain ⟨rfl, he⟩ := decodeN_inv (hop 0x40 hn) h; exact ⟨he, nofun, nofun⟩
  case h_13 hn => obtain ⟨rfl, he⟩ := decodeN_inv (hop 0xFF hn) h; exact ⟨he, nofun, nofun⟩
  case h_14 => cases h

/-- Settles O2: each format's fields determine its word, and DATA is taken over as it is. -/
theorem encodeOfDecode : Obligations.EncodeOfDecode := by
  unfold Obligations.EncodeOfDecode
  intro c i h
  obtain ⟨hcw, hwr, hcwrite⟩ := decode_inv h
  refine ⟨hcw, ?_⟩
  rintro (⟨space, idx, data, rfl⟩ | ⟨sgn, width, data, rfl⟩)
  · exact hwr space idx data rfl
  · exact hcwrite sgn width data rfl

/-- The encoder's word decodes whatever DATA is beside it, to a command with the same operands in it. -/
theorem decode_encode_cw (i : Instr) (data : Word) :
    ∃ j, decode ⟨(encode i).cw, data⟩ = .ok j ∧ j.wellFormed = i.wellFormed := by
  cases i with
  | nop => exact ⟨_, decode_nop_word data, rfl⟩
  | rd space idx => exact ⟨_, decode_rd_word space idx data, rfl⟩
  | wr space idx _ => exact ⟨_, decode_wr_word space idx data, rfl⟩
  | cread sgn width => exact ⟨_, decode_cread_word sgn width data, rfl⟩
  | cwrite sgn width _ => exact ⟨_, decode_cwrite_word sgn width data, rfl⟩
  | pmatch widx => exact ⟨_, decode_pmatch_word widx data, rfl⟩
  | lcheck mtype count => exact ⟨_, decode_lcheck_word mtype count data, rfl⟩
  | strip => exact ⟨_, decode_strip_word data, rfl⟩
  | unpack => exact ⟨_, decode_unpack_word data, rfl⟩
  | sealRaw => exact ⟨_, decode_sealRaw_word data, rfl⟩
  | repack => exact ⟨_, decode_repack_word data, rfl⟩
  | decode => exact ⟨_, decode_decode_word data, rfl⟩
  | reset => exact ⟨_, decode_reset_word data, rfl⟩

/-! ### Which command words are legal -/

/-- The ranges of R98 (c) as the statement writes them. -/
abbrev legalEntry (space idx : Nat) : Prop :=
  space = 0 ∧ idx < 12 ∨ space = 1 ∧ idx < 33 ∨ space = 2 ∧ idx < 33 ∨ space = 3 ∧ idx < 744 ∨ space = 4 ∧ idx < 31

theorem spaceFault_eq_none_iff (space : BitVec 4) (idx : BitVec 10) :
    spaceFault space idx = none ↔ legalEntry space.toNat idx.toNat := by
  unfold spaceFault spaceEntries legalEntry
  split
  · next h => split at h <;> simp_all
  · next n h => split at h <;> simp_all

theorem widthFault_eq_none_iff (width : BitVec 5) :
    widthFault width = none ↔ 1 ≤ width.toNat ∧ width.toNat ≤ 24 := by
  unfold widthFault
  split <;> simp <;> omega

theorem wellFormed_rd_iff (space : BitVec 4) (idx : BitVec 10) :
    (Instr.rd space idx).wellFormed = true ↔ legalEntry space.toNat idx.toNat := by
  rw [Instr.wellFormed, Option.isNone_iff_eq_none, Instr.operandFault, spaceFault_eq_none_iff]

theorem wellFormed_wr_iff (space : BitVec 4) (idx : BitVec 10) (data : Word) :
    (Instr.wr space idx data).wellFormed = true ↔ legalEntry space.toNat idx.toNat := wellFormed_rd_iff space idx

theorem wellFormed_cread_iff (sgn : Bool) (width : BitVec 5) :
    (Instr.cread sgn width).wellFormed = true ↔ 1 ≤ width.toNat ∧ width.toNat ≤ 24 := by
  rw [Instr.wellFormed, Option.isNone_iff_eq_none, Instr.operandFault, widthFault_eq_none_iff]

theorem wellFormed_cwrite_iff (sgn : Bool) (width : BitVec 5) (data : Word) :
    (Instr.cwrite sgn width data).wellFormed = true ↔ 1 ≤ width.toNat ∧ width.toNat ≤ 24 :=
  wellFormed_cread_iff sgn width

theorem wellFormed_pmatch_iff (widx : BitVec 6) : (Instr.pmatch widx).wellFormed = true ↔ widx.toNat ≤ 32 := by
  rw [Instr.wellFormed, Option.isNone_iff_eq_none, Instr.operandFault]
  split <;> simp <;> omega

/-- A field all of whose bits a mask keeps is a field of the masked word. -/
theorem cwField_and_mask (cw mask : Word) (lo n : Nat) (h : cwField mask lo n = BitVec.allOnes n) :
    cwField (cw &&& mask) lo n = cwField cw lo n := by
  unfold cwField at h ⊢
  rw [BitVec.extractLsb'_and, h, BitVec.and_allOnes]

/-- A word that matches a row of the opcode table under the row's mask has the row's opcode. -/
theorem opcode_of_masked {cw mask : Word} {op : BitVec 8} (h : cw &&& mask = op ++ 0#24)
    (hm : cwField mask 24 8 = BitVec.allOnes 8) : cwField cw 24 8 = op := by
  rw [← cwField_and_mask cw mask 24 8 hm, h, cwField_eq_iff, toNat_append_eq, BitVec.toNat_ofNat]
  omega

/-- The must-be-zero bits are those that a row's mask keeps below the opcode. -/
theorem mbz_of_masked {cw mask : Word} {op : BitVec 8} (h : cw &&& mask = op ++ 0#24) (lo n : Nat) (hn : lo + n ≤ 24)
    (hm : cwField mask lo n = BitVec.allOnes n) : cwField cw lo n = 0#n := by
  rw [← cwField_and_mask cw mask lo n hm, h]
  apply BitVec.eq_of_getLsbD_eq
  intro k hk
  rw [cwField, BitVec.getLsbD_extractLsb', BitVec.getLsbD_append]
  simp [hk, show lo + k < 24 by omega]

theorem masked_iff_encodeA (cw : Word) (op : BitVec 8) :
    cw &&& 0xFF0FFC00#32 = op ++ 0#24 ↔ ∃ space idx, encodeA op space idx = cw := by
  constructor
  · intro h
    have hop := opcode_of_masked h (by decide)
    have hz := mbz_of_masked h 10 10 (by decide) (by decide)
    obtain ⟨space, idx, _, he⟩ := decodeA_inv (mk := .rd) hop (if_pos hz)
    exact ⟨space, idx, he⟩
  · rintro ⟨space, idx, rfl⟩
    exact Laws.MatchesTable.formatA op space idx

theorem masked_iff_encodeC (cw : Word) (op : BitVec 8) :
    cw &&& 0xFFFFFEE0#32 = op ++ 0#24 ↔ ∃ sgn width, encodeC op sgn width = cw := by
  constructor
  · intro h
    have hop := opcode_of_masked h (by decide)
    have hz := mbz_of_masked h 9 15 (by decide) (by decide)
    have hz' := mbz_of_masked h 5 3 (by decide) (by decide)
    obtain ⟨sgn, width, _, he⟩ := decodeC_inv (mk := .cread) hop (if_pos ⟨hz, hz'⟩)
    exact ⟨sgn, width, he⟩
  · rintro ⟨sgn, width, rfl⟩
    exact Laws.MatchesTable.formatC op sgn width

theorem masked_iff_encodeW (cw : Word) (op : BitVec 8) :
    cw &&& 0xFFFFFFC0#32 = op ++ 0#24 ↔ ∃ widx, encodeW op widx = cw := by
  constructor
  · intro h
    have hop := opcode_of_masked h (by decide)
    have hz := mbz_of_masked h 6 18 (by decide) (by decide)
    obtain ⟨widx, _, he⟩ := decodeW_inv (mk := .pmatch) hop (if_pos hz)
    exact ⟨widx, he⟩
  · rintro ⟨widx, rfl⟩
    apply BitVec.eq_of_getLsbD_eq
    intro k hk
    simp only [encodeW, BitVec.getLsbD_and, BitVec.getLsbD_append]
    interval_cases k <;> simp

theorem masked_iff_encodeL (cw : Word) (op : BitVec 8) :
    cw &&& 0xFFFFC0E0#32 = op ++ 0#24 ↔ ∃ mtype count, encodeL op mtype count = cw := by
  constructor
  · intro h
    have hop := opcode_of_masked h (by decide)
    have hz := mbz_of_masked h 14 10 (by decide) (by decide)
    have hz' := mbz_of_masked h 5 3 (by decide) (by decide)
    obtain ⟨mtype, count, _, he⟩ := decodeL_inv (mk := .lcheck) hop (if_pos ⟨hz, hz'⟩)
    exact ⟨mtype, count, he⟩
  · rintro ⟨mtype, count, rfl⟩
    exact Laws.MatchesTable.formatL op mtype count

/-- The space and the index of a word of format A, as the statement cuts them out. -/
theorem legalEntry_encodeA (op : BitVec 8) (space : BitVec 4) (idx : BitVec 10) :
    (encodeA op space idx >>> 20).toNat % 16 = space.toNat ∧ (encodeA op space idx).toNat % 1024 = idx.toNat := by
  rw [BitVec.toNat_ushiftRight, Nat.shiftRight_eq_div_pow, toNat_encodeA]
  omega

theorem encodeC_width (op : BitVec 8) (sgn : Bool) (width : BitVec 5) :
    (encodeC op sgn width).toNat % 32 = width.toNat := by
  have hsgn := Bool.toNat_lt sgn
  rw [toNat_encodeC]
  omega

theorem encodeW_widx (op : BitVec 8) (widx : BitVec 6) : (encodeW op widx).toNat % 64 = widx.toNat := by
  rw [toNat_encodeW]
  omega

/-- The legal words are the encoder's words for the commands with legal operands. -/
theorem legalWord_iff (cw : Word) : legalWord cw ↔ ∃ i, (encode i).cw = cw ∧ i.wellFormed = true := by
  constructor
  · rintro (hn | ⟨ha, hr⟩ | ⟨hc, hr⟩ | ⟨hw, hr⟩ | hl)
    · simp only [List.mem_cons, List.not_mem_nil, or_false] at hn
      rcases hn with rfl | rfl | rfl | rfl | rfl | rfl | rfl
      exacts [⟨.nop, rfl, rfl⟩, ⟨.strip, rfl, rfl⟩, ⟨.unpack, rfl, rfl⟩, ⟨.sealRaw, rfl, rfl⟩, ⟨.repack, rfl, rfl⟩,
        ⟨.decode, rfl, rfl⟩, ⟨.reset, rfl, rfl⟩]
    · rcases ha with ha | ha
      · obtain ⟨space, idx, rfl⟩ := (masked_iff_encodeA cw 0x01).1 ha
        obtain ⟨hs, hi⟩ := legalEntry_encodeA 0x01 space idx
        rw [hs, hi] at hr
        exact ⟨.rd space idx, rfl, (wellFormed_rd_iff space idx).2 hr⟩
      · obtain ⟨space, idx, rfl⟩ := (masked_iff_encodeA cw 0x02).1 ha
        obtain ⟨hs, hi⟩ := legalEntry_encodeA 0x02 space idx
        rw [hs, hi] at hr
        exact ⟨.wr space idx 0, rfl, (wellFormed_wr_iff space idx 0).2 hr⟩
    · rcases hc with hc | hc
      · obtain ⟨sgn, width, rfl⟩ := (masked_iff_encodeC cw 0x10).1 hc
        rw [encodeC_width] at hr
        exact ⟨.cread sgn width, rfl, (wellFormed_cread_iff sgn width).2 hr⟩
      · obtain ⟨sgn, width, rfl⟩ := (masked_iff_encodeC cw 0x11).1 hc
        rw [encodeC_width] at hr
        exact ⟨.cwrite sgn width 0, rfl, (wellFormed_cwrite_iff sgn width 0).2 hr⟩
    · obtain ⟨widx, rfl⟩ := (masked_iff_encodeW cw 0x20).1 hw
      rw [encodeW_widx] at hr
      exact ⟨.pmatch widx, rfl, (wellFormed_pmatch_iff widx).2 hr⟩
    · obtain ⟨mtype, count, rfl⟩ := (masked_iff_encodeL cw 0x21).1 hl
      exact ⟨.lcheck mtype count, rfl, rfl⟩
  · rintro ⟨i, rfl, hi⟩
    cases i with
    | nop | strip | unpack | sealRaw | repack | decode | reset => exact .inl (by decide)
    | rd space idx =>
      obtain ⟨hs, hidx⟩ := legalEntry_encodeA 0x01 space idx
      refine .inr (.inl ⟨.inl (Laws.MatchesTable.rd space idx), ?_⟩)
      exact hs.symm ▸ hidx.symm ▸ (wellFormed_rd_iff space idx).1 hi
    | wr space idx data =>
      obtain ⟨hs, hidx⟩ := legalEntry_encodeA 0x02 space idx
      refine .inr (.inl ⟨.inr (Laws.MatchesTable.wr space idx data), ?_⟩)
      exact hs.symm ▸ hidx.symm ▸ (wellFormed_wr_iff space idx data).1 hi
    | cread sgn width =>
      refine .inr (.inr (.inl ⟨.inl (Laws.MatchesTable.cread sgn width), ?_⟩))
      exact (encodeC_width 0x10 sgn width).symm ▸ (wellFormed_cread_iff sgn width).1 hi
    | cwrite sgn width data =>
      refine .inr (.inr (.inl ⟨.inr (Laws.MatchesTable.cwrite sgn width data), ?_⟩))
      exact (encodeC_width 0x11 sgn width).symm ▸ (wellFormed_cwrite_iff sgn width data).1 hi
    | pmatch widx =>
      refine .inr (.inr (.inr (.inl ⟨Laws.MatchesTable.pmatch widx, ?_⟩)))
      exact (encodeW_widx 0x20 widx).symm ▸ (wellFormed_pmatch_iff widx).1 hi
    | lcheck mtype count => exact .inr (.inr (.inr (.inr (Laws.MatchesTable.lcheck mtype count))))

/-- Settles O3: both sides are the encoder's words for the commands with legal operands. -/
theorem legalWordsDecodeWellFormed : Obligations.LegalWordsDecodeWellFormed := by
  unfold Obligations.LegalWordsDecodeWellFormed
  intro c
  rw [legalWord_iff]
  constructor
  · rintro ⟨i, he, hi⟩
    obtain ⟨j, hj, hw⟩ := decode_encode_cw i c.data
    rw [he] at hj
    exact ⟨j, hj, hw.trans hi⟩
  · rintro ⟨i, h, hi⟩
    exact ⟨i, (decode_inv h).1, hi⟩

/-- Settles O5: each word is written out, and the decoder runs on it. -/
theorem sampleWordsDecode : Obligations.SampleWordsDecode := by
  unfold Obligations.SampleWordsDecode
  decide

end Sys2Proof.Machine
end

section
/-! The step (spec/00_scope.md R5), the illegal command words (spec/30_encoding.md R98), and host access to the entries
(spec/46_host_access.md R211, R212). -/

namespace Sys2Proof.Machine

open Sys2Proof.Claims

/-! ### The step -/

section
variable {s : State} {c : Command} {rest : List Command} {i : Instr}

theorem State.dropCommand_eq (h : s.cmds = c :: rest) : s.dropCommand = { s with cmds := rest } := by
  rw [State.dropCommand, h, List.tail_cons]

theorem step_idle (h : s.cmds = []) : step s = .next s := by
  simp only [step, nextCommand, h]

theorem step_of_decode (h : s.cmds = c :: rest) (hd : decode c = .ok i) : step s = exec i s.dropCommand := by
  simp only [step, nextCommand, h, hd]

theorem step_of_decode_error {e : DecodeError} (h : s.cmds = c :: rest) (hd : decode c = .error e) :
    step s = .next (s.dropCommand.raiseError .badCommand) := by
  simp only [step, nextCommand, h, hd, refuseCommand]

end

/-- Settles O6: the step of a pending command that decodes is `exec` on the port without it. -/
theorem stepRunsDecodedCommand : Obligations.StepRunsDecodedCommand := by
  unfold Obligations.StepRunsDecodedCommand
  intro s c rest i h hd
  rw [step_of_decode h hd, State.dropCommand_eq h]

/-- Settles O7: with nothing at the port the step is the idle one. -/
theorem idleKeepsAllState : Obligations.IdleKeepsAllState := by
  unfold Obligations.IdleKeepsAllState
  exact fun s h => step_idle h

/-- Settles O10: the registers are 0, the arrays empty, the table without entries. -/
theorem resetStateLegal : Obligations.ResetStateLegal := by
  unfold Obligations.ResetStateLegal
  have harrays : State.reset.arraysLegal :=
    ⟨Memory.wf_nil 33, Memory.wf_nil 33, Memory.wf_nil 744, Memory.wf_nil 31⟩
  exact ⟨by decide, harrays, by decide⟩

/-! ### Which entry an operand pair names -/

theorem ctlRegAt_isNone_iff (i : Nat) : ctlRegAt i = none ↔ 12 ≤ i := by
  constructor
  · intro h
    by_contra hlt
    have hi : i < 12 := by omega
    interval_cases i <;> cases h
  · intro h
    obtain ⟨k, rfl⟩ := Nat.exists_eq_add_of_le' h
    rfl

theorem entryAt_ctl (idx : BitVec 10) : entryAt 0 idx = (ctlRegAt idx.toNat).map .ctl := rfl
theorem entryAt_rw (idx : BitVec 10) : entryAt 1 idx = if idx.toNat < 33 then some (.rw idx.toNat) else none := rfl
theorem entryAt_dw (idx : BitVec 10) : entryAt 2 idx = if idx.toNat < 33 then some (.dw idx.toNat) else none := rfl
theorem entryAt_v (idx : BitVec 10) : entryAt 3 idx = if idx.toNat < 744 then some (.v idx.toNat) else none := rfl
theorem entryAt_opq (idx : BitVec 10) : entryAt 4 idx = if idx.toNat < 31 then some (.opq idx.toNat) else none := rfl

/-- No entry is named outside the ranges of R98 (c). -/
theorem entryAt_eq_none_of_fault (space : BitVec 4) (idx : BitVec 10) (h : ¬ legalEntry space.toNat idx.toNat) :
    entryAt space idx = none := by
  unfold legalEntry at h
  unfold entryAt
  split
  case h_1 => exact Option.map_eq_none_iff.2 ((ctlRegAt_isNone_iff idx.toNat).2 (by omega))
  case h_6 => rfl
  all_goals exact if_neg (by omega)

theorem entryAt_reserved (space : BitVec 4) (idx : BitVec 10) (h : 4 < space.toNat) : entryAt space idx = none :=
  entryAt_eq_none_of_fault space idx (by unfold legalEntry; omega)

/-! ### Illegal operands -/

/-- The meaning of a command tests its operands first (Log 11). -/
theorem exec_illegalOperand (i : Instr) (s : State) (h : i.wellFormed = false) :
    exec i s = .next (s.raiseError .badCommand) := by
  rw [← Bool.not_eq_true] at h
  cases i with
  | rd space idx =>
    rw [wellFormed_rd_iff] at h
    simp only [exec, execRd, entryAt_eq_none_of_fault space idx h]
  | wr space idx data =>
    rw [wellFormed_wr_iff] at h
    simp only [exec, execWr, entryAt_eq_none_of_fault space idx h]
  | cread sgn width =>
    rw [wellFormed_cread_iff] at h
    exact exec_cread_illegalWidth (by omega)
  | cwrite sgn width data =>
    rw [wellFormed_cwrite_iff] at h
    exact exec_cwrite_illegalWidth (by omega)
  | pmatch widx =>
    rw [wellFormed_pmatch_iff] at h
    exact exec_pmatch_badIndex (by omega)
  | nop | lcheck | strip | unpack | sealRaw | repack | decode | reset => exact absurd rfl h

/-- Settles O4: an illegal word is refused by the decoder, or decodes to a command that refuses its operands. -/
theorem illegalWordRefused : Obligations.IllegalWordRefused := by
  unfold Obligations.IllegalWordRefused
  intro s c rest h hc
  have hstep : step s = .next (s.dropCommand.raiseError .badCommand) := by
    cases hd : decode c with
    | error e => exact step_of_decode_error h hd
    | ok i =>
      have hi : i.wellFormed = false := by
        rw [← Bool.not_eq_true]
        exact fun hi => hc ((legalWordsDecodeWellFormed c).2 ⟨i, hd, hi⟩)
      rw [step_of_decode h hd, exec_illegalOperand i _ hi]
  rw [hstep, State.raiseError_eq, State.dropCommand_eq h]
  rfl

/-! ### RD -/

section
variable {s : State} {space : BitVec 4} {idx : BitVec 10} {e : Entry} {data : Word}

theorem exec_rd_entry (h : entryAt space idx = some e) :
    exec (.rd space idx) s = .next { s with resps := s.resps ++ [⟨0#4, readEntry s e⟩] } := by
  simp only [exec, execRd, h, State.succeed_eq]

theorem exec_rd_none (h : entryAt space idx = none) :
    exec (.rd space idx) s = .next { s with resps := s.resps ++ [⟨7#4, 0#32⟩] } := by
  simp only [exec, execRd, h, State.raiseError_eq, errKindCode]
  rfl

/-- RD of an array whose indices are those below a bound. -/
theorem exec_rd_array {n : Nat} (h : entryAt space idx = if idx.toNat < n then some e else none) :
    exec (.rd space idx) s = .next { s with resps := s.resps ++
      [if idx.toNat < n then ⟨0#4, readEntry s e⟩ else ⟨7#4, 0#32⟩] } := by
  by_cases hi : idx.toNat < n
  · rw [if_pos hi] at h
    rw [if_pos hi, exec_rd_entry h]
  · rw [if_neg hi] at h
    rw [if_neg hi, exec_rd_none h]

/-! ### WR -/

theorem exec_wr_entry (h : entryAt space idx = some e) (hv : legalValue data e = true) :
    exec (.wr space idx data) s = .next ((writeEntry s e data).succeed 0) := by
  simp only [exec, execWr, h, hv, if_true]

theorem exec_wr_illegalValue (h : entryAt space idx = some e) (hv : legalValue data e = false) :
    exec (.wr space idx data) s = .next { s with resps := s.resps ++ [⟨7#4, 0#32⟩] } := by
  simp only [exec, execWr, h, hv, Bool.false_eq_true, if_false, State.raiseError_eq, errKindCode]
  rfl

theorem exec_wr_none (h : entryAt space idx = none) :
    exec (.wr space idx data) s = .next { s with resps := s.resps ++ [⟨7#4, 0#32⟩] } := by
  simp only [exec, execWr, h, State.raiseError_eq, errKindCode]
  rfl

/-- WR of an array whose indices are those below a bound. -/
theorem exec_wr_array {n : Nat} (h : entryAt space idx = if idx.toNat < n then some e else none)
    (p : Prop) [Decidable p] (hv : legalValue data e = true ↔ p) :
    exec (.wr space idx data) s = .next (if idx.toNat < n ∧ p then (writeEntry s e data).succeed 0
      else { s with resps := s.resps ++ [⟨7#4, 0#32⟩] }) := by
  by_cases hi : idx.toNat < n
  · rw [if_pos hi] at h
    by_cases hp : p
    · rw [if_pos ⟨hi, hp⟩, exec_wr_entry h (hv.2 hp)]
    · rw [if_neg (fun hc => hp hc.2), exec_wr_illegalValue h (Bool.eq_false_iff.2 (mt hv.1 hp))]
  · rw [if_neg hi] at h
    rw [if_neg (fun hc => hi hc.1), exec_wr_none h]

/-- WR of an array of whole words, where every value is legal. -/
theorem exec_wr_wordArray {n : Nat} (h : entryAt space idx = if idx.toNat < n then some e else none)
    (hv : legalValue data e = true) :
    exec (.wr space idx data) s = .next (if idx.toNat < n then (writeEntry s e data).succeed 0
      else { s with resps := s.resps ++ [⟨7#4, 0#32⟩] }) := by
  have hwr := exec_wr_array (s := s) h True (iff_true_intro hv)
  simpa only [and_true] using hwr

/-- WR of a CTL register: the test is that of the register's maximum. -/
theorem exec_wr_ctl {r : CtlReg} (h : ctlRegAt idx.toNat = some r) :
    exec (.wr 0 idx data) s = .next (if data.toNat ≤ ctlMax r then (writeCtl s r data).succeed 0
      else { s with resps := s.resps ++ [⟨7#4, 0#32⟩] }) := by
  have he : entryAt 0 idx = some (.ctl r) := by rw [entryAt_ctl, h, Option.map_some]
  by_cases hv : data.toNat ≤ ctlMax r
  · rw [if_pos hv, exec_wr_entry he (decide_eq_true hv)]
    rfl
  · rw [if_neg hv, exec_wr_illegalValue he (decide_eq_false hv)]

end

/-- The registers in the order of R20, zero-extended. -/
def ctlWords (s : State) : List Word :=
  [s.nw.setWidth 32, s.off.setWidth 32, s.lim.setWidth 32, s.ctx0.setWidth 32, tagCode s.tag, s.mtype.setWidth 32,
    s.stid.setWidth 32, s.zcnt.setWidth 32, s.seq.setWidth 32, s.len.setWidth 32, s.health.setWidth 32,
    s.nv.setWidth 32]

theorem getElem?_ctlWords (s : State) (i : Nat) : (ctlWords s)[i]? = (ctlRegAt i).map (readCtl s) := by
  by_cases hi : i < 12
  · interval_cases i <;> rfl
  · rw [List.getElem?_eq_none (Nat.le_of_not_lt hi), (ctlRegAt_isNone_iff i).2 (Nat.le_of_not_lt hi), Option.map_none]

/-- RD of the registers: the list of them, at the index. -/
theorem exec_rd_ctl (s : State) (idx : BitVec 10) :
    exec (.rd 0 idx) s = .next { s with resps := s.resps ++
      [match (ctlWords s)[idx.toNat]? with
        | some x => ⟨0#4, x⟩
        | none => ⟨7#4, 0#32⟩] } := by
  rw [getElem?_ctlWords]
  cases h : ctlRegAt idx.toNat with
  | none => exact exec_rd_none (Option.map_eq_none_iff.2 h)
  | some r => exact exec_rd_entry (e := .ctl r) (by rw [entryAt_ctl, h, Option.map_some])

/-- WR of TAG: the maximum of R27 leaves the three variants. -/
theorem exec_wr_tag (s : State) (x : Word) :
    exec (.wr 0 4 x) s = .next
      (if x = 0 then { s with tag := .noMessage, resps := s.resps ++ [⟨0#4, 0#32⟩] }
       else if x = 1 then { s with tag := .typed, resps := s.resps ++ [⟨0#4, 0#32⟩] }
       else if x = 2 then { s with tag := .opaqueRaw, resps := s.resps ++ [⟨0#4, 0#32⟩] }
       else { s with resps := s.resps ++ [⟨7#4, 0#32⟩] }) := by
  rw [exec_wr_ctl (r := .tag) rfl]
  by_cases h0 : x = 0
  · subst h0; rfl
  by_cases h1 : x = 1
  · subst h1; rfl
  by_cases h2 : x = 2
  · subst h2; rfl
  have hbig : ¬ x.toNat ≤ ctlMax .tag := by
    have h0' : x.toNat ≠ 0 := fun h => h0 (BitVec.eq_of_toNat_eq h)
    have h1' : x.toNat ≠ 1 := fun h => h1 (BitVec.eq_of_toNat_eq h)
    have h2' : x.toNat ≠ 2 := fun h => h2 (BitVec.eq_of_toNat_eq h)
    simp only [ctlMax]
    omega
  rw [if_neg hbig, if_neg h0, if_neg h1, if_neg h2]

/-- Settles O13: the entry each space and index name, read. -/
theorem rdReadsEntry : Obligations.RdReadsEntry := by
  unfold Obligations.RdReadsEntry
  intro s idx
  exact ⟨exec_rd_ctl s idx, exec_rd_array (entryAt_rw idx), exec_rd_array (entryAt_dw idx),
    exec_rd_array (entryAt_v idx), exec_rd_array (entryAt_opq idx),
    fun space h => exec_rd_none (entryAt_reserved space idx h)⟩

/-- Settles O14: the one entry is written, read after write. -/
theorem wrWritesArrayEntry : Obligations.WrWritesArrayEntry := by
  unfold Obligations.WrWritesArrayEntry
  intro s idx data
  have hdw : legalValue data (.dw idx.toNat) = true ↔ data.toNat < 2 ^ 24 := by
    rw [legalValue, decide_eq_true_iff, ← BitVec.toNat_inj, BitVec.extractLsb'_toNat, Nat.shiftRight_eq_div_pow]
    have := data.isLt
    simp only [BitVec.toNat_ofNat]
    omega
  refine ⟨⟨_, Memory.read_write s.rw idx.toNat data, ?_⟩, ⟨_, Memory.read_write s.dw idx.toNat _, ?_⟩,
    ⟨_, Memory.read_write s.v idx.toNat data, ?_⟩, ⟨_, Memory.read_write s.opq idx.toNat data, ?_⟩,
    fun space h => exec_wr_none (entryAt_reserved space idx h)⟩
  · exact exec_wr_wordArray (s := s) (entryAt_rw idx) rfl
  · exact exec_wr_array (s := s) (entryAt_dw idx) _ hdw
  · exact exec_wr_wordArray (s := s) (entryAt_v idx) rfl
  · exact exec_wr_wordArray (s := s) (entryAt_opq idx) rfl

/-- Settles O15: each of the twelve registers at its index, and no register past them. -/
theorem wrWritesRegister : Obligations.WrWritesRegister := by
  unfold Obligations.WrWritesRegister
  intro s x ok bad
  exact ⟨exec_wr_ctl (r := .nw) rfl, exec_wr_ctl (r := .off) rfl, exec_wr_ctl (r := .lim) rfl,
    exec_wr_ctl (r := .ctx0) rfl, exec_wr_tag s x, exec_wr_ctl (r := .mtype) rfl, exec_wr_ctl (r := .stid) rfl,
    exec_wr_ctl (r := .zcnt) rfl, exec_wr_ctl (r := .seq) rfl, exec_wr_ctl (r := .len) rfl,
    exec_wr_ctl (r := .health) rfl, exec_wr_ctl (r := .nv) rfl,
    fun idx h => exec_wr_none (Option.map_eq_none_iff.2 ((ctlRegAt_isNone_iff idx.toNat).2 h))⟩

end Sys2Proof.Machine
end

section
/-! What each command can do, said once for all thirteen (`Ends`), and the rules of the whole machine that follow by going
through it: one response each (spec/30_encoding.md R95), which fields a command writes (spec/10_state.md R37, R41), which
codes it answers with (spec/60_exceptions.md R221 to R227). -/

namespace Sys2Proof.Machine

open Sys2Proof.Claims

/-! ### The writing passes of REPACK from any state -/

/-- Only the data view, the word count and the cursor have moved. -/
def onlyDataMoved (s t : State) : Prop := t = { s with dw := t.dw, nw := t.nw, off := t.off }

theorem onlyDataMoved.refl (s : State) : onlyDataMoved s s := rfl

theorem onlyDataMoved.trans {s t u : State} (h : onlyDataMoved s t) (h' : onlyDataMoved t u) : onlyDataMoved s u := by
  unfold onlyDataMoved at *
  rw [h', h]

section
variable {s t : State}

theorem onlyDataMoved_curWrite {x : Int} {w : Nat} {sgn : Bool} (h : curWrite s x w sgn = .ok t) : onlyDataMoved s t := by
  unfold onlyDataMoved
  rw [(curWrite_spec s x w sgn t h).1]

theorem onlyDataMoved_writeField {fd : FieldDesc} {x : Int} (h : writeField s fd x = .ok t) : onlyDataMoved s t := by
  unfold writeField at h
  split at h
  · cases h
  · exact onlyDataMoved_curWrite h

theorem onlyDataMoved_writeTuple {fds : List FieldDesc} {j : Nat} (h : writeTuple s fds j = .ok t) :
    onlyDataMoved s t := by
  induction fds generalizing s j with
  | nil => cases h; exact .refl _
  | cons fd fds ih =>
    rw [writeTuple, bind_ok_iff] at h
    obtain ⟨u, hu, h⟩ := h
    exact (onlyDataMoved_writeField hu).trans (ih h)

theorem onlyDataMoved_writeItems {items : List Item} {vals : List Int} {j : Nat}
    (h : writeItems s items vals j = .ok t) : onlyDataMoved s t := by
  induction items generalizing s vals j with
  | nil => cases h; exact .refl _
  | cons it items ih =>
    cases it with
    | field fd =>
      simp only [writeItems, bind_ok_iff] at h
      obtain ⟨u, hu, h⟩ := h
      exact (onlyDataMoved_writeField hu).trans (ih h)
    | group src fds =>
      simp only [writeItems, writeTuples_eq, bind_ok_iff] at h
      obtain ⟨u, hu, h⟩ := h
      exact (onlyDataMoved_writeTuple hu).trans (ih h)

theorem onlyDataMoved_writeHeader (h : writeHeader s = .ok t) : onlyDataMoved s t := by
  obtain ⟨u, hu, hw⟩ := writeHeader_ok s
  rw [h] at hu
  cases hu
  unfold onlyDataMoved
  rw [hw.state]
  rfl

/-- The errors a writing pass can meet. -/
def writeErrors (e : ErrKind) : Prop := e = .fieldOverflow ∨ e = .truncated

theorem curWrite_error {x : Int} {w : Nat} {sgn : Bool} {e : ErrKind} (h : curWrite s x w sgn = .error e) :
    writeErrors e := by
  rcases (curWrite_error_iff s x w sgn e).1 h with ⟨_, rfl⟩ | ⟨_, _, rfl⟩
  · exact .inl rfl
  · exact .inr rfl

theorem writeTuple_errors {fds : List FieldDesc} {j : Nat} {e : ErrKind} (h : writeTuple s fds j = .error e) :
    writeErrors e := by
  induction fds generalizing s j with
  | nil => cases h
  | cons fd fds ih =>
    rw [writeTuple, bind_error_iff] at h
    rcases h with h | ⟨u, _, h⟩
    · rcases (writeField_error_iff _ _ _ _).1 h with ⟨_, rfl⟩ | ⟨_, _, rfl⟩
      · exact .inl rfl
      · exact .inr rfl
    · exact ih h

theorem writeItems_errors {items : List Item} {vals : List Int} {j : Nat} {e : ErrKind}
    (h : writeItems s items vals j = .error e) : writeErrors e := by
  induction items generalizing s vals j with
  | nil => cases h
  | cons it items ih =>
    cases it with
    | field fd =>
      simp only [writeItems, bind_error_iff] at h
      rcases h with h | ⟨u, _, h⟩
      · exact writeTuple_errors (fds := [fd]) (j := j) (by rw [writeTuple, h]; rfl)
      · exact ih h
    | group src fds =>
      simp only [writeItems, writeTuples_eq, bind_error_iff] at h
      rcases h with h | ⟨u, _, h⟩
      · exact writeTuple_errors h
      · exact ih h

/-- A REPACK that succeeds keeps the message, `CTX0`, the configuration and the ports, from any state. -/
theorem repackRun_keeps (h : repackRun s = .ok t) :
    t = { s with nw := t.nw, off := t.off, lim := t.lim, rw := t.rw, dw := t.dw } := by
  rw [repackRun, bind_ok_iff] at h
  obtain ⟨u, hu, h⟩ := h
  have hk : u = { s with nw := u.nw, off := u.off, lim := u.lim, rw := u.rw, dw := u.dw } := by
    split at hu
    · unfold repackTyped at hu
      split at hu
      · cases hu
      · simp only [bind_ok_iff] at hu
        obtain ⟨_, _, _, _, v, hv, w, hw, hu⟩ := hu
        have hvw := (onlyDataMoved_writeHeader hv).trans (onlyDataMoved_writeItems hw)
        cases hu
        rw [hvw]
        rfl
    · obtain ⟨v, hw, hv⟩ := repackOpaque_ok s
      rw [hv] at hu
      cases hu
      rw [hw.state]
      rfl
  cases h
  rw [hk]
  rfl

/-- REPACK's own run meets no BadCommand: that is for a message that is not there (R186). -/
theorem repackRun_error {e : ErrKind} (h : repackRun s = .error e) : e ≠ .badCommand := by
  rw [repackRun, bind_error_iff] at h
  rcases h with h | ⟨u, _, h⟩
  · split at h
    · unfold repackTyped at h
      split at h
      · cases h; decide
      · simp only [bind_error_iff] at h
        rcases h with h | ⟨b, _, h | ⟨_, _, h | ⟨v, _, h | ⟨w, _, h⟩⟩⟩⟩
        · rcases layoutItems_error _ _ _ _ _ _ _ h with rfl | rfl <;> decide
        · unfold checkLen at h
          split at h <;> cases h
          decide
        · obtain ⟨v, hv, _⟩ := writeHeader_ok s
          rw [hv] at h
          cases h
        · rcases writeItems_errors h with rfl | rfl <;> decide
        · cases h
    · obtain ⟨v, _, hv⟩ := repackOpaque_ok s
      rw [hv] at h
      cases h
  · cases h

/-- The errors UNPACK can meet (R168). -/
theorem unpackRun_error {e : ErrKind} (h : unpackRun s = .error e) :
    e = .truncated ∨ e = .badLength ∨ e = .trailingBits := by
  rw [unpackRun_eq] at h
  split at h
  · cases h; exact .inl rfl
  split at h
  · cases h; exact .inl rfl
  split at h
  · cases h; exact .inr (.inr rfl)
  split at h
  · cases h
  split at h
  · split at h
    · cases h; exact .inl rfl
    split at h
    · cases h; exact .inr (.inr rfl)
    · cases h
  · cases h; exact .inr (.inl rfl)

theorem unpackMessage_error {e : ErrKind} (h : (unpackMessage s).2 = some e) :
    e = .truncated ∨ e = .badLength ∨ e = .trailingBits := by
  unfold unpackMessage at h
  cases hr : unpackRun s with
  | ok t => rw [hr] at h; cases h
  | error e' => rw [hr] at h; cases h; exact unpackRun_error hr

end

/-! ### How REPACK ends -/

section
variable {s t : State}

theorem exec_repack_noMessage (h : s.tag = .noMessage) : exec .repack s = .next (s.raiseError .badCommand) := by
  simp only [exec, execRepack, h]

theorem exec_repack_ok (htag : s.tag ≠ .noMessage) (h : repackRun s = .ok t) :
    exec .repack s = .next (t.succeed 0) := by
  simp only [exec, execRepack]
  split
  · contradiction
  all_goals rw [h]

theorem exec_repack_error {e : ErrKind} (htag : s.tag ≠ .noMessage) (h : repackRun s = .error e) :
    exec .repack s = .next ((dropOutput s).raiseError e) := by
  simp only [exec, execRepack]
  split
  · contradiction
  all_goals rw [h]

end

/-! ### What each command can do -/

/-- From `s` the command `i` leaves `u` before its response, which carries the error `e` if there is one and `x`. -/
inductive Ends (s : State) : Instr → State → Option ErrKind → Word → Prop where
  | nop : Ends s .nop s none 0
  | rd (space idx) (x : Word) : Ends s (.rd space idx) s none x
  | rdRefused (space idx) : Ends s (.rd space idx) s (some .badCommand) 0
  | wr (space idx data) (en : Entry) (hen : entryAt space idx = some en) (hv : legalValue data en = true) :
      Ends s (.wr space idx data) (writeEntry s en data) none 0
  | wrRefused (space idx data) : Ends s (.wr space idx data) s (some .badCommand) 0
  | cread (sgn width) (x : Int) (t : State) (h : curRead s width.toNat sgn = .ok (x, t)) :
      Ends s (.cread sgn width) t none (BitVec.ofInt 32 x)
  | creadTruncated (sgn width) : Ends s (.cread sgn width) s (some .truncated) 0
  | creadRefused (sgn width) : Ends s (.cread sgn width) s (some .badCommand) 0
  | cwrite (sgn width data) (t : State) (h : curWrite s (dataValue sgn data) width.toNat sgn = .ok t) :
      Ends s (.cwrite sgn width data) t none 0
  | cwriteError (sgn width data) (e : ErrKind) (he : writeErrors e) : Ends s (.cwrite sgn width data) s (some e) 0
  | cwriteRefused (sgn width data) : Ends s (.cwrite sgn width data) s (some .badCommand) 0
  | pmatch (widx) (x : Word) : Ends s (.pmatch widx) s none x
  | pmatchRefused (widx) : Ends s (.pmatch widx) s (some .badCommand) 0
  | lcheck (mtype count) (x : Word) : Ends s (.lcheck mtype count) s none x
  | strip : Ends s .strip (stripWords s) none 0
  | unpack : Ends s .unpack (unpackMessage s).1 (unpackMessage s).2 0
  | sealRaw : Ends s .sealRaw (sealWords s s.nw.toNat) none 0
  | repack (t : State) (htag : s.tag ≠ .noMessage) (h : repackRun s = .ok t) : Ends s .repack t none 0
  | repackError (e : ErrKind) (htag : s.tag ≠ .noMessage) (h : repackRun s = .error e) :
      Ends s .repack (dropOutput s) (some e) 0
  | repackRefused (htag : s.tag = .noMessage) : Ends s .repack s (some .badCommand) 0
  | decodeIncomplete : Ends s .decode s none 0
  | decodeResync : Ends s .decode (noMessage s) (some .preambleMismatch) 3
  | decodeBadLength : Ends s .decode (noMessage s) (some .badLength) 2
  | decodeUnpack : Ends s .decode (unpackMessage s).1 (unpackMessage s).2 (statusCode (unpackStatus (unpackMessage s).2))
  | reset : Ends s .reset s.clear none 0

/-- What `exec` answers is one of the ways its command ends, and the response. -/
theorem exec_ends (i : Instr) (s : State) :
    ∃ u e x, Ends s i u e x ∧ exec i s = .next (u.respond (errCode e) x) := by
  cases i with
  | nop => exact ⟨_, _, _, .nop, rfl⟩
  | rd space idx =>
    cases h : entryAt space idx with
    | none => exact ⟨_, _, _, .rdRefused space idx, exec_rd_none h⟩
    | some en => exact ⟨_, _, _, .rd space idx _, exec_rd_entry h⟩
  | wr space idx data =>
    cases h : entryAt space idx with
    | none => exact ⟨_, _, _, .wrRefused space idx data, exec_wr_none h⟩
    | some en =>
      cases hv : legalValue data en with
      | false => exact ⟨_, _, _, .wrRefused space idx data, exec_wr_illegalValue h hv⟩
      | true => exact ⟨_, _, _, .wr space idx data en h hv, exec_wr_entry h hv⟩
  | cread sgn width =>
    by_cases hw : width.toNat = 0 ∨ 24 < width.toNat
    · exact ⟨_, _, _, .creadRefused sgn width, exec_cread_illegalWidth hw⟩
    · cases h : curRead s width.toNat sgn with
      | ok r => exact ⟨_, _, _, .cread sgn width r.1 r.2 h, exec_cread_ok (by omega) (by omega) h⟩
      | error e =>
        obtain ⟨_, rfl⟩ := (curRead_error_iff s _ sgn e).1 h
        exact ⟨_, _, _, .creadTruncated sgn width, exec_cread_error (by omega) (by omega) h⟩
  | cwrite sgn width data =>
    by_cases hw : width.toNat = 0 ∨ 24 < width.toNat
    · exact ⟨_, _, _, .cwriteRefused sgn width data, exec_cwrite_illegalWidth hw⟩
    · cases h : curWrite s (dataValue sgn data) width.toNat sgn with
      | ok t => exact ⟨_, _, _, .cwrite sgn width data t h, exec_cwrite_ok (by omega) (by omega) h⟩
      | error e =>
        exact ⟨_, _, _, .cwriteError sgn width data e (curWrite_error h), exec_cwrite_error (by omega) (by omega) h⟩
  | pmatch widx =>
    by_cases hw : 32 < widx.toNat
    · exact ⟨_, _, _, .pmatchRefused widx, exec_pmatch_badIndex hw⟩
    · exact ⟨_, _, _, .pmatch widx _, exec_pmatch_entry hw⟩
  | lcheck mtype count => exact ⟨_, _, _, .lcheck mtype count _, exec_lcheck s mtype count⟩
  | strip => exact ⟨_, _, _, .strip, rfl⟩
  | unpack => exact ⟨_, _, _, .unpack, exec_unpack s⟩
  | sealRaw => exact ⟨_, _, _, .sealRaw, rfl⟩
  | repack =>
    cases htag : s.tag with
    | noMessage => exact ⟨_, _, _, .repackRefused htag, exec_repack_noMessage htag⟩
    | typed | opaqueRaw =>
      have hne : s.tag ≠ .noMessage := by rw [htag]; decide
      cases h : repackRun s with
      | ok t => exact ⟨_, _, _, .repack t hne h, exec_repack_ok hne h⟩
      | error e => exact ⟨_, _, _, .repackError e hne h, exec_repack_error hne h⟩
  | decode =>
    rw [exec_decode, decodeSequence_eq]
    split_ifs
    · exact ⟨_, _, _, .decodeIncomplete, rfl⟩
    · exact ⟨_, _, _, .decodeResync, rfl⟩
    · exact ⟨_, _, _, .decodeIncomplete, rfl⟩
    · exact ⟨_, _, _, .decodeBadLength, rfl⟩
    · exact ⟨_, _, _, .decodeIncomplete, rfl⟩
    · exact ⟨_, _, _, .decodeUnpack, rfl⟩
  | reset => exact ⟨_, _, _, .reset, rfl⟩

/-- Every next state is one of the ways the command ends, and the response. -/
theorem ends_of_exec {i : Instr} {s t : State} (h : exec i s = .next t) :
    ∃ u e x, Ends s i u e x ∧ t = u.respond (errCode e) x := by
  obtain ⟨u, e, x, hends, hexec⟩ := exec_ends i s
  rw [h] at hexec
  exact ⟨u, e, x, hends, Host.Outcome.next.inj hexec⟩

/-! ### What every command keeps -/

theorem writeCtl_keeps (s : State) (r : CtlReg) (x : Word) :
    (writeCtl s r x).cfg = s.cfg ∧ (writeCtl s r x).cmds = s.cmds ∧ (writeCtl s r x).resps = s.resps := by
  cases r <;> exact ⟨rfl, rfl, rfl⟩

theorem writeEntry_keeps (s : State) (en : Entry) (x : Word) :
    (writeEntry s en x).cfg = s.cfg ∧ (writeEntry s en x).cmds = s.cmds ∧ (writeEntry s en x).resps = s.resps := by
  cases en with
  | ctl r => exact writeCtl_keeps s r x
  | rw | dw | v | opq => exact ⟨rfl, rfl, rfl⟩

theorem Ends.keeps {s u : State} {i : Instr} {e : Option ErrKind} {x : Word} (h : Ends s i u e x) :
    u.cfg = s.cfg ∧ u.cmds = s.cmds ∧ u.resps = s.resps := by
  cases h with
  | wr space idx data en hen hv => exact writeEntry_keeps s en data
  | cread sgn width x t h =>
    obtain ⟨_, _, rfl⟩ := (curRead_ok_iff _ _ _ _ _).1 h
    exact ⟨rfl, rfl, rfl⟩
  | cwrite sgn width data t h =>
    rw [onlyDataMoved_curWrite h]
    exact ⟨rfl, rfl, rfl⟩
  | repack t htag h =>
    rw [repackRun_keeps h]
    exact ⟨rfl, rfl, rfl⟩
  | unpack | decodeUnpack =>
    rw [unpackMessage_frame]
    exact ⟨rfl, rfl, rfl⟩
  | _ => exact ⟨rfl, rfl, rfl⟩

/-- What every next state keeps, and the one response it has more. -/
theorem exec_keeps {i : Instr} {s t : State} (h : exec i s = .next t) :
    t.cfg = s.cfg ∧ t.cmds = s.cmds ∧ ∃ e x, t.resps = s.resps ++ [⟨errCode e, x⟩] := by
  obtain ⟨u, e, x, hends, rfl⟩ := ends_of_exec h
  obtain ⟨hcfg, hcmds, hresps⟩ := hends.keeps
  exact ⟨hcfg, hcmds, e, x, by rw [State.respond_resps, hresps]⟩

theorem errCode_le (e : Option ErrKind) : (errCode e).toNat ≤ 7 := by
  rcases e with _ | e
  · decide
  · cases e <;> decide

/-- Settles O8: a command that decodes ends as `Ends` says, and a word that does not decode is refused. -/
theorem everyCommandAnsweredOnce : Obligations.EveryCommandAnsweredOnce := by
  unfold Obligations.EveryCommandAnsweredOnce
  intro s c rest h
  cases hd : decode c with
  | error e =>
    exact ⟨_, ⟨7#4, 0#32⟩, step_of_decode_error h hd, congrArg List.tail h, rfl, by decide, rfl⟩
  | ok i =>
    obtain ⟨u, e, x, _, hexec⟩ := exec_ends i s.dropCommand
    obtain ⟨hcfg, hcmds, e', x', hresps⟩ := exec_keeps hexec
    exact ⟨_, ⟨errCode e', x'⟩, (step_of_decode h hd).trans hexec, hcmds.trans (congrArg List.tail h), hresps,
      errCode_le e', hcfg⟩

/-! ### The codes -/

theorem errCode_eq_badCommand_iff (e : Option ErrKind) : errCode e = 7#4 ↔ e = some .badCommand := by
  rcases e with _ | e
  · decide
  · cases e <;> decide

/-- BadCommand is always a refusal of the whole command (R227). -/
theorem Ends.eq_of_badCommand {s u : State} {i : Instr} {e : Option ErrKind} {x : Word} (h : Ends s i u e x)
    (he : e = some .badCommand) : u = s ∧ x = 0 := by
  cases h with
  | rdRefused | wrRefused | creadRefused | cwriteRefused | pmatchRefused | repackRefused => exact ⟨rfl, rfl⟩
  | cwriteError sgn width data e he' => rcases he' with rfl | rfl <;> cases he
  | unpack | decodeUnpack => rcases unpackMessage_error he with h | h | h <;> cases h
  | repackError e htag h => exact absurd (Option.some.inj he) (repackRun_error h)
  | _ => cases he

/-- The code of the response tells which error ended the command. -/
theorem ends_of_response {i : Instr} {s t : State} {code : BitVec 4} {dout : Word} (h : exec i s = .next t)
    (hr : t.resps = s.resps ++ [⟨code, dout⟩]) :
    ∃ u e, Ends s i u e dout ∧ t = u.respond code dout ∧ code = errCode e := by
  obtain ⟨u, e, x, hends, rfl⟩ := ends_of_exec h
  rw [State.respond_resps, hends.keeps.2.2, List.append_cancel_left_eq] at hr
  injection hr with hr
  injection hr with hcode hdout
  subst hcode hdout
  exact ⟨u, e, hends, rfl, rfl⟩

/-- Settles O44: a command that ends with BadCommand ended in the state it began in. -/
theorem badCommandChangesNothing : Obligations.BadCommandChangesNothing := by
  unfold Obligations.BadCommandChangesNothing
  intro i s t dout h hr
  obtain ⟨u, e, hends, rfl, he⟩ := ends_of_response h hr
  obtain ⟨rfl, rfl⟩ := hends.eq_of_badCommand ((errCode_eq_badCommand_iff e).1 he.symm)
  exact State.respond_eq u 7#4 0

/-- REPACK of a legal state meets only the errors R186 names. -/
theorem repackRun_error_of_legal {s : State} {e : ErrKind} (hs : s.legal) (h : repackRun s = .error e) :
    e = .unsupportedType ∨ e = .badLength ∨ e = .fieldOverflow := by
  rw [repackRun, bind_error_iff] at h
  rcases h with h | ⟨u, _, h⟩
  · split at h
    · rcases repackTyped_cases s hs.2.2 with ⟨_, he⟩ | ⟨d, ks, h1, h2, h3, h4, h5, h6⟩ | ⟨d, e', _, he, h'⟩
      · rw [he] at h; cases h; exact .inl rfl
      · obtain ⟨v, hv, _⟩ := repackTyped_ok s d ks h1 h2 h3 h4 h5 h6
        rw [hv] at h
        cases h
      · rw [he] at h; cases h; exact .inr h'
    · obtain ⟨v, _, hv⟩ := repackOpaque_ok s
      rw [hv] at h
      cases h
  · cases h

/-- The errors DECODE takes over from UNPACK, and UNPACK's own. -/
theorem errCode_unpackMessage (s : State) : errCode (unpackMessage s).2 ∈ [0#4, 1#4, 3#4, 4#4] := by
  cases he : (unpackMessage s).2 with
  | none => decide
  | some e => rcases unpackMessage_error he with rfl | rfl | rfl <;> decide

/-- Settles O45: the errors of each way a command ends. -/
theorem errorCodesOfEachCommand : Obligations.ErrorCodesOfEachCommand := by
  unfold Obligations.ErrorCodesOfEachCommand
  intro i s t ⟨code, dout⟩ hs hexec hr
  obtain ⟨u, e, hends, _, rfl⟩ := ends_of_response hexec hr
  cases hends with
  | cwriteError sgn width data e he => rcases he with rfl | rfl <;> simp [errCode, errKindCode]
  | unpack => exact errCode_unpackMessage s
  | decodeUnpack =>
    have hcode := errCode_unpackMessage s
    simp only [List.mem_cons, List.not_mem_nil, or_false] at hcode ⊢
    tauto
  | repackError e htag h =>
    rcases repackRun_error_of_legal hs h with rfl | rfl | rfl <;> simp [errCode, errKindCode]
  | _ => simp [errCode, errKindCode]

/-! ### Which fields a command writes -/

/-- The index of a CTL register (R20). -/
def ctlIndex : CtlReg → BitVec 10
  | .nw => 0
  | .off => 1
  | .lim => 2
  | .ctx0 => 3
  | .tag => 4
  | .mtype => 5
  | .stid => 6
  | .zcnt => 7
  | .seq => 8
  | .len => 9
  | .health => 10
  | .nv => 11

theorem eq_ctlIndex {idx : BitVec 10} {r : CtlReg} (h : ctlRegAt idx.toNat = some r) : idx = ctlIndex r := by
  apply BitVec.eq_of_toNat_eq
  have hi : idx.toNat < 12 := by
    by_contra hge
    rw [(ctlRegAt_isNone_iff _).2 (by omega)] at h
    cases h
  revert h
  generalize idx.toNat = i at *
  interval_cases i <;> rintro ⟨⟩ <;> rfl

/-- The spaces and indices that name an entry. -/
theorem entryAt_inv {space : BitVec 4} {idx : BitVec 10} {en : Entry} (h : entryAt space idx = some en) :
    (∃ r, space = 0 ∧ idx = ctlIndex r ∧ en = .ctl r) ∨ (space = 1 ∧ idx.toNat < 33 ∧ en = .rw idx.toNat) ∨
      (space = 2 ∧ idx.toNat < 33 ∧ en = .dw idx.toNat) ∨ (space = 3 ∧ idx.toNat < 744 ∧ en = .v idx.toNat) ∨
      (space = 4 ∧ idx.toNat < 31 ∧ en = .opq idx.toNat) := by
  have hspace (n : BitVec 4) (hn : space.toNat = n.toNat) : space = n := BitVec.eq_of_toNat_eq hn
  unfold entryAt at h
  split at h
  case h_1 hn =>
    obtain ⟨r, hr, rfl⟩ := Option.map_eq_some_iff.1 h
    exact .inl ⟨r, hspace 0 hn, eq_ctlIndex hr, rfl⟩
  case h_2 hn =>
    obtain ⟨hi, he⟩ := Option.ite_none_right_eq_some.1 h
    exact .inr (.inl ⟨hspace 1 hn, hi, (Option.some.inj he).symm⟩)
  case h_3 hn =>
    obtain ⟨hi, he⟩ := Option.ite_none_right_eq_some.1 h
    exact .inr (.inr (.inl ⟨hspace 2 hn, hi, (Option.some.inj he).symm⟩))
  case h_4 hn =>
    obtain ⟨hi, he⟩ := Option.ite_none_right_eq_some.1 h
    exact .inr (.inr (.inr (.inl ⟨hspace 3 hn, hi, (Option.some.inj he).symm⟩)))
  case h_5 hn =>
    obtain ⟨hi, he⟩ := Option.ite_none_right_eq_some.1 h
    exact .inr (.inr (.inr (.inr ⟨hspace 4 hn, hi, (Option.some.inj he).symm⟩)))
  case h_6 => cases h

/-- Settles O43: by the way the command ended, every field a clause is about is kept, or the command is one it names. -/
theorem onlyNamedCommandsWrite : Obligations.OnlyNamedCommandsWrite := by
  unfold Obligations.OnlyNamedCommandsWrite
  intro i s t hexec wrAt wrCtl unpacks
  obtain ⟨u, e, x, hends, rfl⟩ := ends_of_exec hexec
  refine ⟨hends.keeps.1, hends.keeps.2.1, ?_⟩
  cases hends with
  | wr space idx data en hen hv =>
    rcases entryAt_inv hen with ⟨r, rfl, rfl, rfl⟩ | ⟨rfl, _, rfl⟩ | ⟨rfl, _, rfl⟩ | ⟨rfl, _, rfl⟩ | ⟨rfl, _, rfl⟩
    · cases r <;> simp [writeEntry, writeCtl, ctlIndex, wrCtl]
    all_goals simp [writeEntry, wrAt]
  | cread sgn width x t h =>
    obtain ⟨_, _, rfl⟩ := (curRead_ok_iff _ _ _ _ _).1 h
    simp
  | cwrite sgn width data t h =>
    rw [onlyDataMoved_curWrite h]
    simp
  | repack t htag h =>
    rw [repackRun_keeps h]
    simp
  | repackError e htag h => simp [dropOutput]
  | unpack =>
    rw [unpackMessage_frame]
    simp [unpacks]
  | decodeUnpack =>
    rw [unpackMessage_frame]
    simp [unpacks]
  | strip => simp [stripWords]
  | sealRaw => simp [sealWords]
  | decodeResync | decodeBadLength => simp [noMessage, unpacks]
  | _ => simp

end Sys2Proof.Machine
end

section
/-! Inverses of the small operations: MemWrite and MemRead (spec/20_memory.md R63, R64), `cur_write` and `cur_read`
(spec/40_bit_cursor.md R124), SEAL and STRIP (spec/44_repacker.md R180); the exact fits of the length check
(spec/42_length_validator.md R152) and the default parity equations (spec/30_encoding.md R83). -/

namespace Sys2Proof.Machine

open Sys2Proof.Claims

/-! ### The bit space -/

theorem memRead_eq_foldl (dw : Memory 24) (o n : Nat) :
    memRead dw o n = (List.range n).foldl (fun x k => 2 * x + (bitAt dw (o + k)).toNat) 0 := by
  induction n with
  | zero => rfl
  | succ n ih => rw [List.range_succ, List.foldl_append, ← ih]; rfl

theorem memRead_memWrite (dw : Memory 24) (o n u : Nat) (hu : u < 2 ^ n) : memRead (memWrite dw o n u) o n = u :=
  memRead_of_bits _ o n u hu fun a ha ha' => by rw [bitAt_memWrite, if_pos ⟨ha, ha'⟩]

/-- Settles O16: MemWrite sets the bits of its field, which are what MemRead gives. -/
theorem memWriteThenMemRead : Obligations.MemWriteThenMemRead := by
  unfold Obligations.MemWriteThenMemRead
  intro dw o n u _ _ _ hu
  exact ⟨bitAt_memWrite dw o n u, memRead_memWrite dw o n u hu, memRead_eq_foldl dw o n⟩

/-- Writing the bits that are there changes nothing. -/
theorem memWrite_memRead (dw : Memory 24) (o n : Nat) (hdw : Memory.wf 33 dw) (hn : o + n ≤ 792) :
    memWrite dw o n (memRead dw o n) = dw := by
  refine Memory.eq_of_read_eq _ _ (wf_memWrite dw o n _ hdw hn) hdw fun i => read_eq_of_bitAt _ _ i fun a _ _ => ?_
  rw [bitAt_memWrite]
  split
  · rw [testBit_memRead, show o + (n - 1 - (n - 1 - (a - o))) = a by omega, decide_eq_true (by omega), Bool.true_and]
  · rfl

theorem allocate_of_inside (s : State) (need : Nat) (h : need ≤ s.nw.toNat) : allocate s need = s :=
  if_neg (Nat.not_lt_of_le h)

/-- A read at the place of a write gives the value written (R124). -/
theorem curRead_after_curWrite {s t : State} {x : Int} {w : Nat} {sgn : Bool} {lim : BitVec 10} (hw : 1 ≤ w)
    (h : curWrite s x w sgn = .ok t) (hlim : s.off.toNat + w ≤ lim.toNat) :
    curRead { t with off := s.off, lim := lim } w sgn =
      .ok (x, { t with lim := lim, off := BitVec.ofNat 10 (s.off.toNat + w) }) := by
  have hfits := ((curWrite_ok_iff s x w sgn t).1 h).1
  have hbits := (curWrite_spec s x w sgn t h).2
  have hread : memRead t.dw s.off.toNat w = (x % (2 : Int) ^ w).toNat :=
    memRead_of_bits _ _ _ _ (emod_toNat_lt x w) fun a ha ha' => by rw [hbits, if_pos ⟨ha, ha'⟩]
  refine (curRead_ok_iff _ w sgn _ _).2 ⟨hlim, ?_, rfl⟩
  show x = patternValue w sgn (memRead t.dw s.off.toNat w)
  rw [hread, patternValue_of_fits w sgn x hw hfits]

/-- A write of the value read, at the same place and within the sequence, changes nothing but `OFF` (R124). -/
theorem curWrite_after_curRead {s t : State} {x : Int} {w : Nat} {sgn : Bool} (hdw : Memory.wf 33 s.dw)
    (hnw : s.nw.toNat ≤ 33) (hw : 1 ≤ w) (h : curRead s w sgn = .ok (x, t)) (hin : s.off.toNat + w ≤ 24 * s.nw.toNat) :
    curWrite { t with off := s.off } x w sgn = .ok t := by
  obtain ⟨_, rfl, rfl⟩ := (curRead_ok_iff s w sgn x t).1 h
  have hlt := memRead_lt s.dw s.off.toNat w
  have hneed : wordsNeeded s.off.toNat w ≤ s.nw.toNat := by unfold wordsNeeded; omega
  refine (curWrite_ok_iff s _ w sgn _).2 ⟨fitsField_patternValue w sgn _ hw hlt, by omega, ?_⟩
  rw [allocate_of_inside s _ hneed, patternValue_emod w sgn _ hlt, memWrite_memRead s.dw _ w hdw (by omega)]

/-- Settles O19: each operation undoes the other at the same place. -/
theorem cursorWriteReadInverse : Obligations.CursorWriteReadInverse := by
  unfold Obligations.CursorWriteReadInverse
  intro s t w sgn x hs hw _
  obtain ⟨⟨hnw, _⟩, ⟨_, hdw, _⟩, _⟩ := hs
  exact ⟨fun h lim hlim => curRead_after_curWrite hw h hlim, fun h hin => curWrite_after_curRead hdw hnw hw h hin⟩

/-! ### SEAL, then STRIP -/

/-- Settles O25: STRIP of the sealed words gives the data they were made of, and writes no other entry. -/
theorem stripAfterSealRestores : Obligations.StripAfterSealRestores := by
  unfold Obligations.StripAfterSealRestores
  intro s
  refine ⟨_, _, exec_sealRaw_eq s, exec_strip_eq _, fun i => ?_⟩
  simp only [read_stripWords_trueData]
  split
  · next hi => exact ((sealedFrom_sealedRw s.cfg s.ctx0 s.dw s.rw s.nw.toNat i hi).2).1
  · rfl

/-! ### Exact fits of the length check -/

theorem fixedLayout_tail {it : Item} {items : List Item} (h : fixedLayout (it :: items)) : fixedLayout items :=
  fun it' hit => h it' (List.mem_cons_of_mem it hit)

/-- A fixed layout has no variable group, and adds none to what comes behind it. -/
theorem varGroups_fixed_append (d pre items : List Item) (h : fixedLayout pre) :
    varGroups d (pre ++ items) = varGroups d items ∧ fixedBits (pre ++ items) = fixedBits pre + fixedBits items := by
  induction pre with
  | nil => exact ⟨rfl, (Nat.zero_add _).symm⟩
  | cons it pre ih =>
    obtain ⟨hvar, hfixed⟩ := ih (fixedLayout_tail h)
    cases it with
    | field fd => exact ⟨hvar, by simp only [List.cons_append, fixedBits, hfixed, Nat.add_assoc]⟩
    | group src fds =>
      obtain ⟨n, rfl⟩ := h _ (List.mem_cons_self ..) src fds rfl
      exact ⟨hvar, by simp only [List.cons_append, fixedBits, hfixed, Nat.add_assoc]⟩

theorem lcheck_fixed {cfg : Config} {t : BitVec 6} {d : Descriptor} (c : BitVec 5) (hd : descOf cfg t = some d)
    (h : fixedLayout d) : lcheck cfg c t = true ↔ 24 * c.toNat = fixedBits d := by
  have hvar : varGroups d d = [] := by
    have := (varGroups_fixed_append d d [] h).1
    rwa [List.append_nil] at this
  unfold lcheck
  simp only [hd, hvar, countsFill, Bool.and_eq_true, decide_eq_true_eq, beq_iff_eq]
  omega

/-- One unbounded group takes exactly the multiples of its element size. -/
theorem countsFill_remaining_iff (e bits : Nat) : countsFill [(e, none)] bits = true ↔ bits % e = 0 := by
  rw [countsFill_iff, ← Nat.dvd_iff_mod_eq_zero]
  constructor
  · rintro ⟨ks, hks, hbits⟩
    cases ks with
    | nil => exact hks.elim
    | cons k ks =>
      obtain ⟨_, rfl⟩ := hks
      exact ⟨k, by rw [← hbits, Nat.mul_comm]; rfl⟩
  · rintro ⟨k, rfl⟩
    exact ⟨[k], ⟨nofun, rfl⟩, Nat.mul_comm k e⟩

theorem lcheck_remaining {cfg : Config} {t : BitVec 6} {pre : List Item} {fds : List FieldDesc} (c : BitVec 5)
    (hd : descOf cfg t = some (pre ++ [.group .remaining fds])) (h : fixedLayout pre) :
    lcheck cfg c t = true ↔ fixedBits pre ≤ 24 * c.toNat ∧ (24 * c.toNat - fixedBits pre) % elemBits fds = 0 := by
  obtain ⟨hvar, hfixed⟩ := varGroups_fixed_append (pre ++ [.group .remaining fds]) pre [.group .remaining fds] h
  unfold lcheck
  simp only [hd, hvar, hfixed, varGroups, fixedBits, Nat.add_zero, Bool.and_eq_true, decide_eq_true_eq,
    countsFill_remaining_iff]

/-- LCHECK of a state whose length check is a known condition. -/
theorem exec_lcheck_of_iff (s : State) {mtype : BitVec 6} {count : BitVec 5} {p : Prop} [Decidable p]
    (h : lcheck s.cfg count mtype = true ↔ p) :
    exec (.lcheck mtype count) s = .next { s with resps := s.resps ++ [⟨0#4, if p then 1#32 else 0#32⟩] } := by
  rw [exec_lcheck, State.succeed_eq, boolResult, if_congr h rfl rfl]

/-- Settles O22: with no variable group only the fixed size fits; with one, every multiple of its element size beyond it. -/
theorem lcheckExactFit : Obligations.LcheckExactFit := by
  unfold Obligations.LcheckExactFit
  intro s mtype count d hd
  constructor
  · intro hfix c0 hc0
    refine exec_lcheck_of_iff s ((lcheck_fixed count hd hfix).trans ?_)
    rw [hc0, ← BitVec.toNat_inj]
    omega
  · rintro pre fds hpre rfl
    exact exec_lcheck_of_iff s (lcheck_remaining count hd hpre)

/-! ### The default parity equations -/

theorem getLsbD_parityBit (x mask : Word) : (parityBit x mask).getLsbD 0 = oddBits (x &&& mask) 32 := by
  unfold parityBit
  cases oddBits (x &&& mask) 32 <;> rfl

/-- The six bits of the parity equations, `D30` least significant. -/
theorem getLsbD_parityEquations (m : ParityMasks) (p29 p30 : BitVec 1) (d : DataWord) :
    let x : Word := p29 ++ p30 ++ d ++ 0#6
    let p := parityEquations m p29 p30 d
    p.getLsbD 5 = oddBits (x &&& m.d25) 32 ∧ p.getLsbD 4 = oddBits (x &&& m.d26) 32 ∧
      p.getLsbD 3 = oddBits (x &&& m.d27) 32 ∧ p.getLsbD 2 = oddBits (x &&& m.d28) 32 ∧
      p.getLsbD 1 = oddBits (x &&& m.d29) 32 ∧ p.getLsbD 0 = oddBits (x &&& m.d30) 32 := by
  simp only [← getLsbD_parityBit, parityEquations, BitVec.getLsbD_append]
  simp

/-- The exclusive-or of the bits `f k` for `k` in a list. -/
def xorOver (f : Nat → Bool) (ks : List Nat) : Bool := ks.foldl (fun b k => Bool.xor b (f k)) false

theorem foldl_xor_init (f : Nat → Bool) (ks : List Nat) (b : Bool) :
    ks.foldl (fun b k => Bool.xor b (f k)) b = Bool.xor b (xorOver f ks) := by
  induction ks generalizing b with
  | nil => exact (Bool.xor_false b).symm
  | cons k ks ih => rw [xorOver, List.foldl_cons, List.foldl_cons, ih, ih, Bool.false_xor, Bool.xor_assoc]

theorem xorOver_perm (f : Nat → Bool) {ks ks' : List Nat} (h : ks.Perm ks') : xorOver f ks = xorOver f ks' :=
  h.foldl_eq' (fun k _ k' _ b => Bool.xor_right_comm b (f k) (f k')) false

theorem xorOver_map (f : Nat → Bool) (g : Nat → Nat) (ks : List Nat) :
    xorOver f (ks.map g) = xorOver (fun k => f (g k)) ks :=
  List.foldl_map

theorem xorOver_congr {f g : Nat → Bool} {ks : List Nat} (h : ∀ k ∈ ks, f k = g k) : xorOver f ks = xorOver g ks :=
  List.foldl_ext _ _ _ fun b k hk => by rw [h k hk]

/-- The parity of a masked word is over the positions the mask selects. -/
theorem oddBits_and (x mask : Word) (n : Nat) :
    oddBits (x &&& mask) n = xorOver x.getLsbD ((List.range n).filter mask.getLsbD) := by
  induction n with
  | zero => rfl
  | succ n ih =>
    rw [oddBits, ih, List.range_succ, List.filter_append, xorOver, xorOver, List.foldl_append, BitVec.getLsbD_and]
    cases hm : mask.getLsbD n <;> simp [hm]

/-- A mask of R83: one context bit, 31 for `D29*` and 30 for `D30*`, and the data bits `d_k` at position `30 - k`. -/
theorem oddBits_equation (p29 p30 : BitVec 1) (d : DataWord) (mask : Word) (ctx : Nat) (ks : List Nat)
    (hperm : ((List.range 32).filter mask.getLsbD).Perm (ctx :: ks.map (30 - ·))) (hks : ∀ k ∈ ks, 1 ≤ k ∧ k ≤ 24) :
    oddBits ((p29 ++ p30 ++ d ++ 0#6) &&& mask) 32 =
      Bool.xor ((p29 ++ p30 ++ d ++ 0#6).getLsbD ctx) (xorOver (fun k => d.getLsbD (24 - k)) ks) := by
  have hdata : ∀ k ∈ ks, (p29 ++ p30 ++ d ++ 0#6).getLsbD (30 - k) = d.getLsbD (24 - k) := by
    intro k hk
    obtain ⟨h1, h24⟩ := hks k hk
    rw [BitVec.getLsbD_append, BitVec.getLsbD_append, if_neg (by omega), if_pos (by omega),
      show 30 - k - 6 = 24 - k by omega]
  rw [oddBits_and, xorOver_perm _ hperm, xorOver, List.foldl_cons, foldl_xor_init, Bool.false_xor, xorOver_map,
    xorOver_congr hdata]

theorem getLsbD_context (p29 p30 : BitVec 1) (d : DataWord) :
    (p29 ++ p30 ++ d ++ 0#6).getLsbD 31 = p29.getLsbD 0 ∧ (p29 ++ p30 ++ d ++ 0#6).getLsbD 30 = p30.getLsbD 0 := by
  constructor <;> simp only [BitVec.getLsbD_append] <;> simp

/-- Settles O26: the positions each mask selects are those of its equation. -/
theorem defaultParityEquations : Obligations.DefaultParityEquations := by
  unfold Obligations.DefaultParityEquations
  intro p29 p30 d dk p
  obtain ⟨h25, h26, h27, h28, h29, h30⟩ := getLsbD_parityEquations ParityMasks.gps p29 p30 d
  obtain ⟨c29, c30⟩ := getLsbD_context p29 p30 d
  rw [← c29, ← c30]
  exact ⟨h25.trans (oddBits_equation p29 p30 d _ 31 _ (by decide) (by decide)),
    h26.trans (oddBits_equation p29 p30 d _ 30 _ (by decide) (by decide)),
    h27.trans (oddBits_equation p29 p30 d _ 31 _ (by decide) (by decide)),
    h28.trans (oddBits_equation p29 p30 d _ 30 _ (by decide) (by decide)),
    h29.trans (oddBits_equation p29 p30 d _ 30 _ (by decide) (by decide)),
    h30.trans (oddBits_equation p29 p30 d _ 31 _ (by decide) (by decide))⟩

end Sys2Proof.Machine
end

section
/-! UNPACK (spec/43_unpacker.md R162 to R169): how it ends by the words of the sequence, and what it leaves. -/

namespace Sys2Proof.Machine

open Sys2Proof.Claims

/-! ### How UNPACK ends -/

section
variable {s t : State} {e : ErrKind}

theorem exec_unpack_error (h : unpackRun s = .error e) :
    exec .unpack s = .next ((discardMessage s).raiseError e) := by
  rw [exec_unpack, unpackMessage, h]
  rfl

theorem unpackRun_ok_resps (h : unpackRun s = .ok t) : t.resps = s.resps := by
  have hresps := unpackMessage_resps s
  rwa [unpackMessage, h] at hresps

theorem succeed_resps_of_unpackRun (h : unpackRun s = .ok t) : (t.succeed 0).resps = s.resps ++ [⟨0#4, 0#32⟩] :=
  congrArg (· ++ [(⟨0#4, 0#32⟩ : Response)]) (unpackRun_ok_resps h)

/-- The two ways UNPACK ends, told apart by its code. -/
theorem exec_unpack_inv {code : BitVec 4} {x : Word} (h : exec .unpack s = .next t)
    (hr : t.resps = s.resps ++ [⟨code, x⟩]) :
    (∃ u, unpackRun s = .ok u ∧ t = u.succeed 0 ∧ code = 0#4) ∨
      ∃ e, unpackRun s = .error e ∧ t = (discardMessage s).raiseError e ∧ code = errKindCode e := by
  obtain ⟨_, e, hends, rfl, hcode⟩ := ends_of_response h hr
  cases hends
  cases hrun : unpackRun s with
  | ok u =>
    have hm : unpackMessage s = (u, none) := by rw [unpackMessage, hrun]
    rw [hm] at hcode ⊢
    exact .inl ⟨u, rfl, congrArg (State.respond u · 0) hcode, hcode⟩
  | error e =>
    have hm : unpackMessage s = (discardMessage s, some e) := by rw [unpackMessage, hrun]
    rw [hm] at hcode ⊢
    exact .inr ⟨e, rfl, congrArg (State.respond (discardMessage s) · 0) hcode, hcode⟩

/-! ### By the words of the sequence -/

theorem unpackRun_headerMissing (h : s.nw.toNat < 2) : unpackRun s = .error .truncated := by
  rw [unpackRun_eq, if_pos h]

theorem unpackRun_wordsMissing (h : s.nw.toNat < 2 + declaredCount s) : unpackRun s = .error .truncated := by
  rw [declaredCount_eq] at h
  rw [unpackRun_eq, if_pos h, ite_self]

theorem unpackRun_wordsOver (h : 2 + declaredCount s < s.nw.toNat) : unpackRun s = .error .trailingBits := by
  rw [declaredCount_eq] at h
  rw [unpackRun_eq, if_neg (by omega), if_neg (by omega), if_pos h]

/-- With exactly the declared words of a known type: the length check, then the bits of the fields the walk lays out. -/
theorem unpackRun_knownType {d : Descriptor} (hnw : s.nw.toNat = 2 + declaredCount s)
    (hd : descOf s.cfg (declaredType s) = some d) :
    unpackRun s =
      if lcheck s.cfg (BitVec.ofNat 5 (declaredCount s)) (declaredType s) then
        if 24 * declaredCount s < elemBits (foundFields s d) then .error .truncated
        else if elemBits (foundFields s d) < 24 * declaredCount s then .error .trailingBits
        else .ok (typedState s (foundFields s d))
      else .error .badLength := by
  have hlt : (24 * (2 + declaredCount s) < 48 + elemBits (foundFields s d)) =
      (24 * declaredCount s < elemBits (foundFields s d)) := by apply propext; omega
  have hgt : (48 + elemBits (foundFields s d) < 24 * (2 + declaredCount s)) =
      (elemBits (foundFields s d) < 24 * declaredCount s) := by apply propext; omega
  rw [unpackRun_eq, headerCount_eq, ← declaredType_eq, hd, BitVec.toNat_ofNat,
    Nat.mod_eq_of_lt (by rw [declaredCount_eq]; exact (headerCount _).isLt)]
  rw [if_neg (by omega), if_neg (by omega), if_neg (by omega)]
  simp only [hlt, hgt]

/-- UNPACK succeeds only with exactly the declared words: of an unknown type, or of a known one that they fit (R162 to
R167). -/
theorem unpackRun_ok_inv (h : unpackRun s = .ok t) :
    2 ≤ s.nw.toNat ∧ s.nw.toNat = 2 + declaredCount s ∧
      (descOf s.cfg (declaredType s) = none ∧ t = unpackOpaque (headerRead s) ∨
        ∃ d, descOf s.cfg (declaredType s) = some d ∧
          lcheck s.cfg (BitVec.ofNat 5 (declaredCount s)) (declaredType s) = true ∧
          elemBits (foundFields s d) = 24 * declaredCount s ∧ t = typedState s (foundFields s d)) := by
  have h2 : ¬ s.nw.toNat < 2 := fun hc => by rw [unpackRun_headerMissing hc] at h; cases h
  have hmissing : ¬ s.nw.toNat < 2 + declaredCount s := fun hc => by rw [unpackRun_wordsMissing hc] at h; cases h
  have hover : ¬ 2 + declaredCount s < s.nw.toNat := fun hc => by rw [unpackRun_wordsOver hc] at h; cases h
  have hnw : s.nw.toNat = 2 + declaredCount s := by omega
  refine ⟨by omega, hnw, ?_⟩
  cases hd : descOf s.cfg (declaredType s) with
  | none =>
    rw [unpackRun_unknownType (by omega) hnw hd] at h
    exact .inl ⟨rfl, (Except.ok.inj h).symm⟩
  | some d =>
    rw [unpackRun_knownType hnw hd] at h
    split at h
    · next hl =>
      split at h
      · cases h
      split at h
      · cases h
      · exact .inr ⟨d, rfl, hl, by omega, (Except.ok.inj h).symm⟩
    · cases h

end

/-! ### What the TYPED path leaves -/

theorem declaredCount_lt (s : State) : declaredCount s < 32 := by
  rw [declaredCount_eq]
  exact (headerCount _).isLt

section
variable {s : State} {fds : List FieldDesc}

theorem typedState_eq (hnw : s.nw.toNat = 2 + declaredCount s) (hb : elemBits fds = 24 * declaredCount s) :
    typedState s fds =
      { s with
        mtype := (headerRead s).mtype, stid := (headerRead s).stid, zcnt := (headerRead s).zcnt,
        seq := (headerRead s).seq, len := (headerRead s).len, health := (headerRead s).health,
        dw := (stripWords s).dw, v := (typedState s fds).v, tag := .typed, nv := BitVec.ofNat 10 fds.length,
        off := BitVec.ofNat 10 (24 * s.nw.toNat), lim := BitVec.ofNat 10 (24 * s.nw.toNat) } := by
  rw [hnw, declaredCount_eq]
  rw [declaredCount_eq] at hb
  unfold typedState storeValues
  rw [hb, show 48 + 24 * (headerCount (s.rw.read 1)).toNat = 24 * (2 + (headerCount (s.rw.read 1)).toNat) by omega]
  rfl

theorem typedState_v_read (j : Nat) :
    (typedState s fds).v.read j =
      if j < fds.length then BitVec.ofInt 32 ((fieldValues (stripWords s).dw fds 48).getD j 0) else s.v.read j := by
  show (s.v.fill 0 (fieldValues (stripWords s).dw fds 48).length _).read j = _
  rw [Memory.read_fill_zero, length_fieldValues]

/-- Entry `j` holds the value of field `j` (R166), a 32-bit signed value by R89 (2). -/
theorem payloadValue_typedState (hwf : ∀ fd ∈ fds, fieldWellFormed fd = true) (j : Nat) (hj : j < fds.length) :
    payloadValue (typedState s fds) j = (fieldValues (stripWords s).dw fds 48).getD j 0 := by
  rw [payloadValue, typedState_v_read, if_pos hj, List.getD_eq_getElem?_getD, getElem?_fieldValues,
    List.getElem?_eq_getElem hj]
  exact toInt_ofInt_fieldValue _ _ _ (hwf _ (List.getElem_mem hj))

theorem carries_typedState (hwf : ∀ fd ∈ fds, fieldWellFormed fd = true) :
    carries (stripWords s).dw fds (payloadValue (typedState s fds)) = true :=
  (carries_iff _ _ _).2 fun j hj => (payloadValue_typedState hwf j hj).symm

/-- The fields of the declared words number at most 744 (R93). -/
theorem length_le_declared (hwf : ∀ fd ∈ fds, fieldWellFormed fd = true) (hb : elemBits fds = 24 * declaredCount s) :
    fds.length ≤ 744 := by
  have hlen := length_le_elemBits fds fun fd hfd => (fieldWellFormed_width fd (hwf fd hfd)).1
  have hcount := declaredCount_lt s
  omega

theorem typedState_nv (hwf : ∀ fd ∈ fds, fieldWellFormed fd = true) (hb : elemBits fds = 24 * declaredCount s) :
    (typedState s fds).nv.toNat = fds.length := by
  have hlen := length_le_declared hwf hb
  show (BitVec.ofNat 10 fds.length).toNat = fds.length
  rw [BitVec.toNat_ofNat, Nat.mod_eq_of_lt (by omega)]

end

/-! ### The fields the walk finds -/

section
variable {s : State} {d : Descriptor}

/-- The counts the walk finds in the true data of the sequence. -/
def foundCounts (s : State) (d : Descriptor) : List Nat :=
  walkCounts (stripWords s).dw (24 * (2 + declaredCount s)) d [] 48

theorem foundFields_eq (s : State) (d : Descriptor) : foundFields s d = expandItems d (foundCounts s d) := by
  rw [foundCounts, declaredCount_eq]
  rfl

theorem foundFields_wellFormed (hwf : itemsWellFormed d 0 d = true) :
    ∀ fd ∈ foundFields s d, fieldWellFormed fd = true := by
  rw [foundFields_eq]
  exact expandItems_wellFormed d 0 d _ hwf

/-- Data words that are the true data of the sequence have its bits. -/
theorem bitAt_eq_stripWords {dw : Memory 24} (hnw : s.nw.toNat = 2 + declaredCount s)
    (hdw : ∀ i, i < s.nw.toNat → dw.read i = trueData (s.rw.read i)) (a : Nat) (ha : a < 24 * (2 + declaredCount s)) :
    bitAt dw a = bitAt (stripWords s).dw a := by
  have hi : a / 24 < s.nw.toNat := by omega
  exact bitAt_of_read_eq _ _ a (by rw [hdw _ hi, read_stripWords_trueData, if_pos hi])

/-- The counts of a payload that the data words carry, a `Remaining` group's by R166, are found by the walk: their fields
need more bits than the declared words have where the walk's do, and are the walk's where they do not. -/
theorem foundFields_of_walkFinds {ks : List Nat} {val : Nat → Int} {dw : Memory 24} (hwf : itemsWellFormed d 0 d = true)
    (hnw : s.nw.toNat = 2 + declaredCount s) (h : walkFinds s d ks val dw) :
    (24 * declaredCount s < elemBits (expandItems d ks) ∧ 24 * declaredCount s < elemBits (foundFields s d)) ∨
      foundFields s d = expandItems d ks := by
  obtain ⟨hdw, hagree, hcarries, hfills⟩ := h
  have hks : walkCounts dw (24 * (2 + declaredCount s)) d [] 48 = ks :=
    walkCounts_of_fills dw _ d ks val hwf hcarries hagree
      (by rwa [show 24 * (2 + declaredCount s) - 48 = 24 * declaredCount s by omega])
  have hbits := bitAt_eq_stripWords hnw hdw
  rw [foundFields_eq, foundCounts]
  by_cases hfit : 48 + elemBits (expandItems d ks) ≤ 24 * (2 + declaredCount s)
  · right
    rw [← walkCounts_congr dw _ _ d [] 48 hbits (by rwa [hks]), hks]
  · left
    have hexceed := walkCounts_exceed_congr dw (stripWords s).dw _ d [] 48 hbits (by rw [hks]; omega)
    constructor <;> omega

/-- The walk always finds counts, values and data words (R166). -/
theorem walkFinds_foundCounts (hwf : itemsWellFormed d 0 d = true) :
    walkFinds s d (foundCounts s d) (payloadValue (typedState s (foundFields s d))) (stripWords s).dw := by
  have hcarries := carries_typedState (s := s) (foundFields_wellFormed (s := s) hwf)
  have hcarries' := hcarries
  rw [foundFields_eq s d] at hcarries' ⊢
  refine ⟨fun i hi => by rw [read_stripWords_trueData, if_pos hi], walkCounts_agree _ _ d _ hwf hcarries', hcarries', ?_⟩
  have hfills := remainingFills_walkCounts (stripWords s).dw (24 * (2 + declaredCount s)) d [] 48
  rwa [show 24 * (2 + declaredCount s) - 48 = 24 * declaredCount s by omega] at hfills

/-- Counts that agree with the data and fill the declared words exactly: the walk finds them, and UNPACK succeeds. -/
theorem unpackRun_typed_ok {ks : List Nat} {val : Nat → Int} {dw : Memory 24} (hc : configWellFormed s.cfg = true)
    (hnw : s.nw.toNat = 2 + declaredCount s) (hd : descOf s.cfg (declaredType s) = some d)
    (hdw : ∀ i, i < s.nw.toNat → dw.read i = trueData (s.rw.read i)) (hagree : countsAgree d ks val d ks = true)
    (hcarries : carries dw (expandItems d ks) val = true)
    (hfit : elemBits (expandItems d ks) = 24 * declaredCount s) :
    unpackRun s = .ok (typedState s (expandItems d ks)) := by
  have hwf := descriptorWellFormed_of_descOf _ _ _ hc hd
  have hks := countsAgree_length _ _ _ _ _ hagree
  have hfinds : walkFinds s d ks val dw := ⟨hdw, hagree, hcarries, remainingFills_of_fit d 0 d ks _ hwf hks hfit⟩
  have hfound : foundFields s d = expandItems d ks := by
    rcases foundFields_of_walkFinds hwf hnw hfinds with ⟨hbig, _⟩ | hfound
    · omega
    · exact hfound
  have hl : lcheck s.cfg (BitVec.ofNat 5 (declaredCount s)) (declaredType s) = true := by
    rw [lcheck_iff]
    intro d' hd'
    rw [hd] at hd'
    cases hd'
    refine ⟨ks, admissibleCounts_of_agree dw d ks val 0 d ks hwf hks hcarries hagree, ?_⟩
    rw [hfit, BitVec.toNat_ofNat, Nat.mod_eq_of_lt (declaredCount_lt s)]
  rw [unpackRun_knownType hnw hd, if_pos hl, hfound, if_neg (by omega), if_neg (by omega)]

/-- Data words that are the true data of the sequence carry the same values as the data view. -/
theorem fieldValues_eq_of_carries {val : Nat → Int} {dw : Memory 24} {fds : List FieldDesc}
    (hnw : s.nw.toNat = 2 + declaredCount s) (hdw : ∀ i, i < s.nw.toNat → dw.read i = trueData (s.rw.read i))
    (hcarries : carries dw fds val = true) (hfit : elemBits fds = 24 * declaredCount s) (j : Nat) (hj : j < fds.length) :
    (fieldValues (stripWords s).dw fds 48).getD j 0 = val j := by
  rw [← (carries_iff dw fds val).1 hcarries j hj]
  congr 1
  exact fieldValues_congr _ _ fds 48 fun a _ ha => (bitAt_eq_stripWords hnw hdw a (by omega)).symm

end

/-! ### The obligations -/

/-- Settles O27: the count of words decides, then the length check; after an error the message is gone. -/
theorem unpackRefusesWrongLength : Obligations.UnpackRefusesWrongLength := by
  unfold Obligations.UnpackRefusesWrongLength
  intro s _
  cases hrun : unpackRun s with
  | ok t =>
    obtain ⟨h2, hnw, hcases⟩ := unpackRun_ok_inv hrun
    refine ⟨_, 0#4, exec_unpack_ok hrun, succeed_resps_of_unpackRun hrun, by omega, by omega, by omega,
      fun _ _ hsome hl => ?_, fun h => absurd rfl h⟩
    rcases hcases with ⟨hnone, _⟩ | ⟨d, _, hl', _⟩
    · rw [hnone] at hsome
      cases hsome
    · rw [hl] at hl'
      cases hl'
  | error e =>
    have he (e' : ErrKind) (h : unpackRun s = .error e') : e = e' := by rw [hrun] at h; cases h; rfl
    refine ⟨_, errKindCode e, exec_unpack_error hrun, rfl, fun h2 => ?_, fun _ hnw => ?_, fun _ hnw => ?_,
      fun _ hnw hsome hl => ?_, fun _ => ⟨rfl, rfl⟩⟩
    · rw [he _ (unpackRun_headerMissing h2)]; rfl
    · rw [he _ (unpackRun_wordsMissing hnw)]; rfl
    · rw [he _ (unpackRun_wordsOver hnw)]; rfl
    · obtain ⟨d, hd⟩ := Option.isSome_iff_exists.1 hsome
      rw [he .badLength (by rw [unpackRun_knownType hnw hd, hl, if_neg (by decide)])]
      rfl

theorem ofNat_mod_legal (n : Nat) : (BitVec.ofNat 10 (n % 793)).toNat ≤ 792 := by
  rw [BitVec.toNat_ofNat]
  omega

theorem read_discardMessage_dw (s : State) (i : Nat) :
    (discardMessage s).dw.read i =
      if 2 ≤ s.nw.toNat ∧ i < s.nw.toNat then trueData (s.rw.read i) else s.dw.read i := by
  show (if s.nw.toNat < 2 then s.dw else (stripWords s).dw).read i = _
  by_cases h2 : s.nw.toNat < 2
  · rw [if_pos h2, if_neg (by omega)]
  · rw [if_neg h2, read_stripWords_trueData]
    by_cases hi : i < s.nw.toNat
    · rw [if_pos hi, if_pos ⟨by omega, hi⟩]
    · rw [if_neg hi, if_neg (by omega)]

theorem wf_discardMessage_v (s : State) : Memory.wf 744 (discardMessage s).v := by
  have hv : (discardMessage s).v = Memory.fill [] 0 744 (fun j => Config.freeWord s.draws (.v j)) := rfl
  rw [hv]
  exact Memory.wf_fill 744 [] 0 744 _ (Memory.wf_nil 744) (Nat.le_refl _)

/-- Settles O28: an error leaves `discardMessage`, whose free values are within their ranges. -/
theorem unpackFailureDiscardsMessage : Obligations.UnpackFailureDiscardsMessage := by
  unfold Obligations.UnpackFailureDiscardsMessage
  intro s t code _ h hr hcode
  rcases exec_unpack_inv h hr with ⟨_, _, _, rfl⟩ | ⟨e, _, rfl, _⟩
  · exact absurd rfl hcode
  · exact ⟨rfl, rfl, rfl, rfl, rfl, rfl, rfl, rfl, read_discardMessage_dw s, ofNat_mod_legal _, ofNat_mod_legal _,
      wf_discardMessage_v s⟩

/-- Settles O30: the walk finds the counts given, and each clause is read off the state the TYPED path leaves. -/
theorem unpackDecodesTypedPayload : Obligations.UnpackDecodesTypedPayload := by
  unfold Obligations.UnpackDecodesTypedPayload
  intro s d ks val dw hs _ hnw hd hdw hagree hcarries hfit
  have hwf := expandItems_wellFormed d 0 d ks (descriptorWellFormed_of_descOf _ _ _ hs.2.2 hd)
  have hrun := unpackRun_typed_ok hs.2.2 hnw hd hdw hagree hcarries hfit
  have hnv := typedState_nv hwf hfit
  refine ⟨_, exec_unpack_ok hrun, ?_, headerOf_headerRead s, read_stripWords_trueData s, hnv, fun j hj => ?_,
    fun j hj => ?_⟩
  · rw [State.succeed_eq, typedState_eq hnw hfit]
    rfl
  · have hj : j < (expandItems d ks).length := hnv ▸ hj
    exact (payloadValue_typedState hwf j hj).trans (fieldValues_eq_of_carries hnw hdw hcarries hfit j hj)
  · have hj : (expandItems d ks).length ≤ j := hnv ▸ hj
    exact (typedState_v_read j).trans (if_neg (Nat.not_lt_of_le hj))

/-- A TYPED message UNPACK leaves is the one the walk found. -/
theorem unpackRun_typed_inv {s t : State} (hc : configWellFormed s.cfg = true) (h : unpackRun s = .ok t)
    (htag : t.tag = .typed) :
    ∃ d ks, descOf s.cfg (declaredType s) = some d ∧ t = typedState s (expandItems d ks) ∧
      countsAgree d ks (payloadValue t) d ks = true ∧ elemBits (expandItems d ks) = 24 * declaredCount s := by
  obtain ⟨_, _, ⟨_, rfl⟩ | ⟨d, hd, _, hfit, rfl⟩⟩ := unpackRun_ok_inv h
  · cases htag
  · have hwf := descriptorWellFormed_of_descOf _ _ _ hc hd
    obtain ⟨_, hagree, _, _⟩ := walkFinds_foundCounts (s := s) hwf
    exact ⟨d, foundCounts s d, hd, by rw [foundFields_eq], hagree, by rw [← foundFields_eq, hfit]⟩

theorem unpackRun_ctx0 {s t : State} (h : unpackRun s = .ok t) : t.ctx0 = s.ctx0 := by
  obtain ⟨_, _, ⟨_, rfl⟩ | ⟨d, _, _, _, rfl⟩⟩ := unpackRun_ok_inv h <;> rfl

theorem unpackRun_opaque_inv {s t : State} (h : unpackRun s = .ok t) (htag : t.tag = .opaqueRaw) :
    t = unpackOpaque (headerRead s) := by
  obtain ⟨_, _, ⟨_, rfl⟩ | ⟨d, _, _, _, rfl⟩⟩ := unpackRun_ok_inv h
  · rfl
  · cases htag

/-- A successful UNPACK leaves a message. -/
theorem unpackRun_tag {s t : State} (h : unpackRun s = .ok t) : t.tag ≠ .noMessage := by
  obtain ⟨_, _, ⟨_, rfl⟩ | ⟨d, _, _, _, rfl⟩⟩ := unpackRun_ok_inv h <;> nofun

/-- Settles O31: the counts the walk found agree with the entries it stored, and the data view carries them. -/
theorem unpackTypedIsWellShaped : Obligations.UnpackTypedIsWellShaped := by
  unfold Obligations.UnpackTypedIsWellShaped
  intro s t hs h htag
  obtain ⟨_, _, e, x, hr⟩ := exec_keeps h
  rcases exec_unpack_inv h hr with ⟨u, hrun, rfl, _⟩ | ⟨e, _, rfl, _⟩
  · obtain ⟨d, ks, hd, rfl, hagree, hfit⟩ := unpackRun_typed_inv hs.2.2 hrun htag
    have hwf := expandItems_wellFormed d 0 d ks (descriptorWellFormed_of_descOf _ _ _ hs.2.2 hd)
    have hlen : (headerRead s).len.toNat = declaredCount s := (declaredCount_eq s).symm
    obtain ⟨_, hnw, _⟩ := unpackRun_ok_inv hrun
    rw [declaredType_eq] at hd
    exact ⟨d, ks, hd, hagree, (typedState_nv hwf hfit).symm, hfit.trans (by rw [← hlen]; rfl),
      carries_typedState hwf, hnw.trans (by rw [← hlen]; rfl)⟩
  · cases htag

/-- Settles O32: `k` tuples fill the words, so they are what the walk finds. -/
theorem unpackYieldsEveryTuple : Obligations.UnpackYieldsEveryTuple := by
  unfold Obligations.UnpackYieldsEveryTuple
  intro s fds k hs h2 hnw hd hk
  have hfit : elemBits (expandItems [.group .remaining fds] [k]) = 24 * declaredCount s := by
    rw [expandItems_group, expandItems_nil, List.append_nil, elemBits_flatten_replicate, hk]
  have hlen : (expandItems [.group .remaining fds] [k]).length = k * fds.length := by
    rw [expandItems_group, expandItems_nil, List.append_nil, length_flatten_replicate]
  have hwf := expandItems_wellFormed _ 0 _ [k] (descriptorWellFormed_of_descOf _ _ _ hs.2.2 hd)
  have hrun := unpackRun_typed_ok hs.2.2 hnw hd (fun i hi => by rw [read_stripWords_trueData, if_pos hi]) rfl
    (carries_typedState hwf) hfit
  exact ⟨_, exec_unpack_ok hrun, succeed_resps_of_unpackRun hrun, rfl, (typedState_nv hwf hfit).trans hlen⟩

/-- Settles O49: the walk finds its own counts; any that `walkFinds` allows need the same bits as far as the declared words
can tell. -/
theorem unpackCodeFollowsPayloadSize : Obligations.UnpackCodeFollowsPayloadSize := by
  unfold Obligations.UnpackCodeFollowsPayloadSize
  intro s d hs _ hnw hd hl
  have hwf := descriptorWellFormed_of_descOf _ _ _ hs.2.2 hd
  refine ⟨⟨_, _, _, walkFinds_foundCounts hwf⟩, fun ks val dw hfinds => ?_⟩
  have hrun := unpackRun_knownType hnw hd
  rw [if_pos hl] at hrun
  rcases foundFields_of_walkFinds hwf hnw hfinds with ⟨hbig, hbig'⟩ | hfound
  · rw [if_pos hbig'] at hrun
    exact ⟨_, exec_unpack_error hrun, by rw [if_pos hbig]; rfl⟩
  · rw [hfound] at hrun
    split_ifs at hrun ⊢
    · exact ⟨_, exec_unpack_error hrun, rfl⟩
    · exact ⟨_, exec_unpack_error hrun, rfl⟩
    · exact ⟨_, exec_unpack_ok hrun, succeed_resps_of_unpackRun hrun⟩

end Sys2Proof.Machine
end

section
/-! REPACK (spec/44_repacker.md R182 to R187): which messages it accepts, what it makes of them, and with which error it
refuses the others. -/

namespace Sys2Proof.Machine

open Sys2Proof.Claims

/-! ### The sequence REPACK makes -/

/-- A TYPED message that is well-shaped and in range for the descriptor `d` with the counts `ks` (R43, R182 to R185). -/
structure TypedFits (s : State) (d : Descriptor) (ks : List Nat) : Prop where
  desc : descOf s.cfg s.mtype = some d
  agree : countsAgree d ks (payloadValue s) d ks = true
  entries : (expandItems d ks).length = s.nv.toNat
  bits : elemBits (expandItems d ks) = 24 * s.len.toNat
  values : allRepresentable (expandItems d ks) (payloadValue s)

/-- What a successful REPACK keeps, the responses apart, and where it leaves the cursor (R186). -/
def repackFrame (s t : State) : Prop :=
  t = { s with nw := BitVec.ofNat 6 (2 + s.len.toNat), off := BitVec.ofNat 10 (24 * (2 + s.len.toNat)),
               lim := BitVec.ofNat 10 (24 * (2 + s.len.toNat)), rw := t.rw, dw := t.dw, resps := t.resps }

/-- `t` is what REPACK of the TYPED message of `s` with the fields `fds` leaves. -/
structure RepackedTyped (s : State) (fds : List FieldDesc) (t : State) : Prop where
  frame : repackFrame s t
  header : fieldValues t.dw headerFields 0 = headerValues s
  payload : fieldValues t.dw fds 48 = (List.range fds.length).map (payloadValue s)
  words : t.rw = sealedRw s.cfg s.ctx0 t.dw s.rw (2 + s.len.toNat)
  beyond : ∀ i, 2 + s.len.toNat ≤ i → t.dw.read i = s.dw.read i

/-- `t` is what REPACK of the OPAQUE message of `s` leaves. -/
structure RepackedOpaque (s t : State) : Prop where
  frame : repackFrame s t
  header : fieldValues t.dw headerFields 0 = headerValues s
  words : ∀ i, i < 2 → t.rw.read i = (sealedRw s.cfg s.ctx0 t.dw s.rw 2).read i
  stored : ∀ i, i < s.len.toNat → t.rw.read (2 + i) = s.opq.read i ∧ t.dw.read (2 + i) = trueData (s.opq.read i)
  beyond : ∀ i, 2 + s.len.toNat ≤ i → t.rw.read i = s.rw.read i ∧ t.dw.read i = s.dw.read i

/-- The word count of the sequence, in the 6 bits of `NW`. -/
theorem nw_of_len (len : BitVec 5) : (BitVec.ofNat 6 (2 + len.toNat)).toNat = 2 + len.toNat := by
  have := len.isLt
  rw [BitVec.toNat_ofNat, Nat.mod_eq_of_lt (by omega)]

theorem repackFrame.nw {s t : State} (h : repackFrame s t) : t.nw.toNat = 2 + s.len.toNat := by
  rw [h]
  exact nw_of_len s.len

theorem repackFrame.respond {s t : State} (h : repackFrame s t) (err : BitVec 4) (dout : Word) :
    repackFrame s (t.respond err dout) := by
  unfold repackFrame at h ⊢
  rw [State.respond_eq, h]

theorem RepackedTyped.respond {s t : State} {fds : List FieldDesc} (h : RepackedTyped s fds t) (err : BitVec 4)
    (dout : Word) : RepackedTyped s fds (t.respond err dout) :=
  ⟨h.frame.respond err dout, h.header, h.payload, h.words, h.beyond⟩

theorem RepackedOpaque.respond {s t : State} (h : RepackedOpaque s t) (err : BitVec 4) (dout : Word) :
    RepackedOpaque s (t.respond err dout) :=
  ⟨h.frame.respond err dout, h.header, h.words, h.stored, h.beyond⟩

section
variable {s u : State} {fds : List FieldDesc} {xs : List Int}

/-- Fields written into a fresh sequence leave the words behind them as they were. -/
theorem Written.read_beyond {n : Nat} (h : Written (emptied s) fds xs u) (hb : elemBits fds = 24 * n) (i : Nat)
    (hi : n ≤ i) : u.dw.read i = s.dw.read i := by
  refine read_eq_of_bitAt _ _ i fun a ha _ => ?_
  have ho : (emptied s).off.toNat = 0 := rfl
  have hw : wordsNeeded 0 (elemBits fds) = n := by unfold wordsNeeded; omega
  rw [h.frame a (by omega), ho, hw, if_neg (by omega)]
  rfl

/-- The word count after whole words of fields in a fresh sequence. -/
theorem Written.nw_of_words {n : Nat} (h : Written (emptied s) fds xs u) (hb : elemBits fds = 24 * n) (hn : n ≤ 33) :
    u.nw.toNat = n := by
  have ho : (emptied s).off.toNat = 0 := rfl
  have hz : (emptied s).nw.toNat = 0 := rfl
  have hw : wordsNeeded 0 (elemBits fds) = n := by unfold wordsNeeded; omega
  rw [h.nw (cursorInside_emptied s) (by omega), ho, hz, hw, Nat.zero_max]

end

theorem length_headerValues (s : State) : (headerValues s).length = headerFields.length := rfl

section
variable {s t : State} {d : Descriptor} {ks : List Nat}

/-- REPACK accepts a well-shaped TYPED message in range (R182 to R186). -/
theorem repackRun_typed_ok (htag : s.tag = .typed) (hc : configWellFormed s.cfg = true) (h : TypedFits s d ks) :
    ∃ t, repackRun s = .ok t ∧ RepackedTyped s (expandItems d ks) t := by
  have hwf := descriptorWellFormed_of_descOf _ _ _ hc h.desc
  obtain ⟨u, hu, hw⟩ := repackTyped_ok s d ks h.desc hwf h.agree h.entries h.bits h.values
  have hlen := s.len.isLt
  have hbits : elemBits (headerFields ++ expandItems d ks) = 24 * (2 + s.len.toNat) := by
    rw [elemBits_append, elemBits_headerFields, h.bits]; omega
  have hnw := hw.nw_of_words hbits (by omega)
  obtain ⟨hheader, hpayload⟩ := List.append_inj ((fieldValues_append u.dw headerFields _ _).symm.trans hw.values)
    (by rw [length_fieldValues, length_headerValues])
  refine ⟨seekEnd (sealWords u (2 + s.len.toNat)), ?_, ?_, hheader, hpayload, ?_, fun i hi => hw.read_beyond hbits i hi⟩
  · rw [repackRun, if_pos htag, hu, ok_bind]
  · have hu' : u = { s with nw := BitVec.ofNat 6 (2 + s.len.toNat), off := u.off, dw := u.dw } := by
      have hnw' : u.nw = BitVec.ofNat 6 (2 + s.len.toNat) := BitVec.eq_of_toNat_eq (by rw [hnw, nw_of_len])
      rw [← hnw', hw.state]
      rfl
    unfold repackFrame seekEnd
    rw [show (sealWords u (2 + s.len.toNat)).nw.toNat = 2 + s.len.toNat from hnw, hu']
    rfl
  · show sealedRw u.cfg u.ctx0 u.dw u.rw _ = sealedRw s.cfg s.ctx0 u.dw s.rw _
    rw [show u.cfg = s.cfg by rw [hw.state]; rfl, show u.ctx0 = s.ctx0 by rw [hw.state]; rfl,
      show u.rw = s.rw by rw [hw.state]; rfl]

/-- REPACK accepts every OPAQUE message (R186). -/
theorem repackRun_opaque_ok (htag : s.tag = .opaqueRaw) : ∃ t, repackRun s = .ok t ∧ RepackedOpaque s t := by
  obtain ⟨u, hw, hu⟩ := repackOpaque_ok s
  have hbits : elemBits headerFields = 24 * 2 := rfl
  have hcfg : u.cfg = s.cfg := by rw [hw.state]; rfl
  have hctx : u.ctx0 = s.ctx0 := by rw [hw.state]; rfl
  have hrw : u.rw = s.rw := by rw [hw.state]; rfl
  have hfill {w : Nat} (m : Memory w) (f : Nat → BitVec w) (i : Nat) (hi : i < 2) :
      (m.fill 2 s.len.toNat f).read i = m.read i := by rw [Memory.read_fill, if_neg (by omega)]
  refine ⟨_, by rw [repackRun, if_neg (by rw [htag]; decide), hu, ok_bind], ?frame, ?header, ?words, ?stored, ?beyond⟩
  case frame =>
    unfold repackFrame seekEnd
    simp only [nw_of_len]
    rw [hw.state]
    rfl
  case header =>
    refine Eq.trans (fieldValues_congr _ _ headerFields 0 fun a _ ha => ?_) hw.values
    exact bitAt_of_read_eq _ _ a (hfill u.dw _ _ (by rw [hbits] at ha; omega))
  case words =>
    intro i hi
    show ((sealedRw u.cfg u.ctx0 u.dw u.rw 2).fill 2 s.len.toNat _).read i = _
    rw [hfill _ _ i hi, hcfg, hctx]
    exact read_sealedRw_congr _ _ _ _ _ _ 2 2 i hi hi fun k hk => (hfill u.dw _ k (by omega)).symm
  case stored =>
    intro i hi
    show ((sealWords u 2).rw.fill 2 s.len.toNat _).read (2 + i) = _ ∧ (u.dw.fill 2 s.len.toNat _).read (2 + i) = _
    rw [Memory.read_fill, Memory.read_fill, if_pos (by omega), if_pos (by omega), Nat.add_sub_cancel_left,
      trueData_eq_stripWord]
    exact ⟨rfl, rfl⟩
  case beyond =>
    intro i hi
    show ((sealedRw u.cfg u.ctx0 u.dw u.rw 2).fill 2 s.len.toNat _).read i = _ ∧ (u.dw.fill 2 s.len.toNat _).read i = _
    rw [Memory.read_fill, Memory.read_fill, if_neg (by omega), if_neg (by omega),
      read_sealedRw_ge _ _ _ _ _ _ (by omega), hrw]
    exact ⟨rfl, hw.read_beyond hbits i (by omega)⟩

/-- REPACK accepts no other message, and makes of each what the two paths make (R186). -/
theorem repackRun_ok_inv (hc : configWellFormed s.cfg = true) (htag : s.tag ≠ .noMessage) (h : repackRun s = .ok t) :
    (s.tag = .typed ∧ ∃ d ks, TypedFits s d ks ∧ RepackedTyped s (expandItems d ks) t) ∨
      (s.tag = .opaqueRaw ∧ RepackedOpaque s t) := by
  cases ht : s.tag with
  | noMessage => exact absurd ht htag
  | opaqueRaw =>
    obtain ⟨t', ht', hmade⟩ := repackRun_opaque_ok ht
    rw [h] at ht'
    cases ht'
    exact .inr ⟨rfl, hmade⟩
  | typed =>
    rcases repackTyped_cases s hc with ⟨_, he⟩ | ⟨d, ks, hd, _, hagree, hn, hb, hr⟩ | ⟨_, _, _, he, _⟩
    · rw [repackRun, if_pos ht, he] at h
      cases h
    · have hfits : TypedFits s d ks := ⟨hd, hagree, hn, hb, hr⟩
      obtain ⟨t', ht', hmade⟩ := repackRun_typed_ok ht hc hfits
      rw [h] at ht'
      cases ht'
      exact .inl ⟨rfl, d, ks, hfits, hmade⟩
    · rw [repackRun, if_pos ht, he] at h
      cases h

/-! ### What the sequence says -/

theorem headerOf_of_header {dw : Memory 24} (h : fieldValues dw headerFields 0 = headerValues s) :
    headerOf s (dw.read 0) (dw.read 1) ∧ (dw.read 0).extractLsb' 16 8 = s.cfg.preamble := by
  obtain ⟨hpre, hmtype, hstid, hzcnt, hseq, hlen, hhealth⟩ := header_words dw s h
  exact ⟨⟨hmtype.symm, hstid.symm, hzcnt.symm, hseq.symm, hlen.symm, hhealth.symm⟩, hpre⟩

/-- Whether words obey `seal` depends on those words only. -/
theorem sealedFrom_congr {cfg : Config} {ctx0 : BitVec 2} {dw dw' : Memory 24} {rw rw' : Memory 32} {n : Nat}
    (hdw : ∀ i, i < n → dw.read i = dw'.read i) (hrw : ∀ i, i < n → rw.read i = rw'.read i)
    (h : sealedFrom cfg ctx0 dw rw n) : sealedFrom cfg ctx0 dw' rw' n := by
  intro i hi
  obtain ⟨hctx, hdata, hpar⟩ := h i hi
  rw [← hrw i hi, ← hdw i hi, ← hrw (i - 1) (by omega)]
  exact ⟨hctx, hdata, hpar⟩

theorem RepackedTyped.sealed {fds : List FieldDesc} (h : RepackedTyped s fds t) :
    sealedFrom s.cfg s.ctx0 t.dw t.rw (2 + s.len.toNat) := by
  rw [h.words]
  exact sealedFrom_sealedRw s.cfg s.ctx0 t.dw s.rw (2 + s.len.toNat)

theorem RepackedTyped.carries {fds : List FieldDesc} (h : RepackedTyped s fds t) :
    carries t.dw fds (payloadValue s) = true := by
  rw [carries_iff, h.payload]
  intro j hj
  rw [List.getD_eq_getElem?_getD, List.getElem?_map, List.getElem?_range hj]
  rfl

theorem RepackedOpaque.sealed (h : RepackedOpaque s t) : sealedFrom s.cfg s.ctx0 t.dw t.rw 2 :=
  sealedFrom_congr (fun _ _ => rfl) (fun i hi => (h.words i hi).symm) (sealedFrom_sealedRw s.cfg s.ctx0 t.dw s.rw 2)

/-- The header words of every sequence REPACK makes: true data that carry the header of the message. -/
theorem repacked_header (hc : configWellFormed s.cfg = true) (htag : s.tag ≠ .noMessage) (h : repackRun s = .ok t) :
    repackFrame s t ∧ fieldValues t.dw headerFields 0 = headerValues s ∧
      ∀ i, i < 2 → trueData (t.rw.read i) = t.dw.read i := by
  rcases repackRun_ok_inv hc htag h with ⟨_, d, ks, _, hmade⟩ | ⟨_, hmade⟩
  · exact ⟨hmade.frame, hmade.header, fun i hi => (hmade.sealed i (by omega)).2.1⟩
  · exact ⟨hmade.frame, hmade.header, fun i hi => (hmade.sealed i hi).2.1⟩

/-! ### How the command ends -/

theorem exec_repack_ok_eq (htag : s.tag ≠ .noMessage) (h : repackRun s = .ok t) :
    exec .repack s = .next { t with resps := s.resps ++ [⟨0#4, 0#32⟩] } := by
  have hresps : t.resps = s.resps := by rw [repackRun_keeps h]
  rw [exec_repack_ok htag h, State.succeed_eq, hresps]
  rfl

/-- A REPACK that answered OK ran to its end on a message. -/
theorem exec_repack_ok_inv (h : exec .repack s = .next t) (hr : t.resps = s.resps ++ [⟨0#4, 0#32⟩]) :
    s.tag ≠ .noMessage ∧ ∃ u, repackRun s = .ok u ∧ t = u.succeed 0 := by
  obtain ⟨u, e, hends, rfl, he⟩ := ends_of_response h hr
  obtain rfl := (errCode_eq_zero_iff e).1 he.symm
  cases hends with
  | repack u htag hrun => exact ⟨htag, u, hrun, rfl⟩

theorem exec_repack_typed_error {e : ErrKind} (htag : s.tag = .typed) (h : repackTyped s = .error e) :
    exec .repack s = .next ((dropOutput s).raiseError e) :=
  exec_repack_error (by rw [htag]; decide) (by rw [repackRun, if_pos htag, h, error_bind])

/-- REPACK always answers, with DOUT 0. -/
theorem exec_repack_answers (s : State) :
    ∃ t code, exec .repack s = .next t ∧ t.resps = s.resps ++ [⟨code, 0#32⟩] := by
  obtain ⟨u, e, x, hends, hexec⟩ := exec_ends .repack s
  have hresps := hends.keeps.2.2
  have hx : x = 0#32 := by cases hends <;> rfl
  exact ⟨_, _, hexec, by rw [State.respond_resps, hresps, hx]⟩

/-! ### The errors of the TYPED path -/

theorem repackTyped_layout_error {e : ErrKind} (hd : descOf s.cfg s.mtype = some d) (h : layout s d = .error e) :
    repackTyped s = .error e := by
  simp only [repackTyped, hd, h, error_bind]

theorem repackTyped_wrongLen {bits : Nat} (hd : descOf s.cfg s.mtype = some d) (h : layout s d = .ok bits)
    (hb : bits ≠ 24 * s.len.toNat) : repackTyped s = .error .badLength := by
  simp only [repackTyped, hd, h, ok_bind, checkLen, if_pos hb, error_bind]

end

/-! ### The obligations -/

/-- Settles O33: the first test of REPACK. -/
theorem repackWithoutMessageRefused : Obligations.RepackWithoutMessageRefused := by
  unfold Obligations.RepackWithoutMessageRefused
  intro s htag
  rw [exec_repack_noMessage htag, State.raiseError_eq]
  rfl

/-- Settles O34: the TYPED path looks the descriptor up first. -/
theorem repackUnknownTypedUnsupported : Obligations.RepackUnknownTypedUnsupported := by
  unfold Obligations.RepackUnknownTypedUnsupported
  intro s htag hd
  have hrun : repackTyped s = .error .unsupportedType := by simp only [repackTyped, hd]
  exact ⟨_, exec_repack_typed_error htag hrun, rfl, rfl⟩

theorem wf_dropOutput (s : State) : Memory.wf 33 (dropOutput s).rw ∧ Memory.wf 33 (dropOutput s).dw := by
  have hrw : (dropOutput s).rw = Memory.fill [] 0 33 (fun i => Config.freeWord s.draws (.rw i)) := rfl
  have hdw : (dropOutput s).dw = Memory.fill [] 0 33 (fun i => (Config.freeWord s.draws (.dw i)).setWidth 24) := rfl
  rw [hrw, hdw]
  exact ⟨Memory.wf_fill 33 [] 0 33 _ (Memory.wf_nil 33) (Nat.le_refl _),
    Memory.wf_fill 33 [] 0 33 _ (Memory.wf_nil 33) (Nat.le_refl _)⟩

/-- Settles O35: an error leaves `dropOutput`, whose free values are within their ranges. -/
theorem repackFailureKeepsMessage : Obligations.RepackFailureKeepsMessage := by
  unfold Obligations.RepackFailureKeepsMessage
  intro s t code _ h hr h0 h7
  obtain ⟨u, e, hends, rfl, rfl⟩ := ends_of_response h hr
  cases hends with
  | repack => exact absurd rfl h0
  | repackRefused => exact absurd rfl h7
  | repackError e htag hrun =>
    obtain ⟨hrw, hdw⟩ := wf_dropOutput s
    exact ⟨rfl, ofNat_mod_legal _, ofNat_mod_legal _, hrw, hdw⟩

/-- Settles O36: what the OPAQUE path makes. -/
theorem repackOpaqueVerbatim : Obligations.RepackOpaqueVerbatim := by
  unfold Obligations.RepackOpaqueVerbatim
  intro s _ htag
  obtain ⟨t, hrun, hmade⟩ := repackRun_opaque_ok htag
  obtain ⟨hheader, hpre⟩ := headerOf_of_header hmade.header
  refine ⟨_, exec_repack_ok_eq (by rw [htag]; decide) hrun, ?_, hmade.sealed, hheader, hpre, hmade.stored, hmade.beyond⟩
  rw [hmade.frame]

/-- Settles O37: what the TYPED path makes of a message that fits. -/
theorem repackEncodesTypedPayload : Obligations.RepackEncodesTypedPayload := by
  unfold Obligations.RepackEncodesTypedPayload
  intro s d ks hs htag hd hagree hn hb hvalues
  obtain ⟨t, hrun, hmade⟩ := repackRun_typed_ok htag hs.2.2 ⟨hd, hagree, hn, hb, hvalues⟩
  obtain ⟨hheader, hpre⟩ := headerOf_of_header hmade.header
  refine ⟨_, exec_repack_ok_eq (by rw [htag]; decide) hrun, ?_, hmade.sealed, hheader, hpre, hmade.carries,
    fun i hi => ⟨?_, hmade.beyond i hi⟩⟩
  · rw [hmade.frame]
  · exact (congrArg (Memory.read · i) hmade.words).trans (read_sealedRw_ge _ _ _ _ _ _ hi)

/-- Settles O38: the TYPED path ends without error only for a message that fits. -/
theorem repackAcceptsOnlyWellShaped : Obligations.RepackAcceptsOnlyWellShaped := by
  unfold Obligations.RepackAcceptsOnlyWellShaped
  intro s t hs htag h hr
  obtain ⟨hne, u, hrun, rfl⟩ := exec_repack_ok_inv h hr
  rcases repackRun_ok_inv hs.2.2 hne hrun with ⟨_, d, ks, hfits, _⟩ | ⟨hopq, _⟩
  · exact ⟨d, ks, hfits.desc, hfits.agree, hfits.entries, hfits.bits, hfits.values⟩
  · rw [htag] at hopq
    cases hopq

/-- Settles O39: the true data of word 0 begins with PREAMBLE, whatever its polarity. -/
theorem repackedPreambleMatches : Obligations.RepackedPreambleMatches := by
  unfold Obligations.RepackedPreambleMatches
  intro s t hs h hr
  obtain ⟨hne, u, hrun, rfl⟩ := exec_repack_ok_inv h hr
  obtain ⟨hframe, hheader, hdata⟩ := repacked_header hs.2.2 hne hrun
  have hcfg : u.cfg = s.cfg := by rw [hframe]
  have hmatch : pmatch u.cfg (u.rw.read 0) = true := by
    rw [pmatch, decide_eq_true_iff, ← trueData_eq_stripWord, hdata 0 (by decide), hcfg]
    exact (headerOf_of_header hheader).2
  have hanswer : pmatch (u.succeed 0).cfg ((u.succeed 0).rw.read (0 : BitVec 6).toNat) = true := hmatch
  rw [exec_pmatch_entry (by decide), hanswer, State.succeed_eq]
  rfl

/-- Settles O51: the layout gives the bits of the fields; a wrong LEN is refused before any value is looked at. -/
theorem repackCodeFollowsLengthThenValues : Obligations.RepackCodeFollowsLengthThenValues := by
  unfold Obligations.RepackCodeFollowsLengthThenValues
  intro s d ks hs htag hd hagree hadm hn
  have hwf := descriptorWellFormed_of_descOf _ _ _ hs.2.2 hd
  have hlay := (layout_ok_iff s d _ hwf).2 ⟨ks, hagree, hadm, hn, rfl⟩
  by_cases hb : elemBits (expandItems d ks) = 24 * s.len.toNat
  · by_cases hvalues : allRepresentable (expandItems d ks) (payloadValue s)
    · obtain ⟨t, hrun, _⟩ := repackRun_typed_ok htag hs.2.2 ⟨hd, hagree, hn, hb, hvalues⟩
      refine ⟨_, 0#4, exec_repack_ok_eq (by rw [htag]; decide) hrun, rfl, fun h => absurd hb h, fun _ => ?_, fun _ _ => rfl⟩
      rintro ⟨j, fd, hj, hbad⟩
      rw [hvalues j fd hj] at hbad
      cases hbad
    · have hrun := repackTyped_overflow s d ks hd hwf hagree hadm hn hb hvalues
      exact ⟨_, 2#4, exec_repack_typed_error htag hrun, rfl, fun h => absurd hb h, fun _ _ => rfl,
        fun _ h => absurd h hvalues⟩
  · have hrun := repackTyped_wrongLen hd hlay hb
    exact ⟨_, 3#4, exec_repack_typed_error htag hrun, rfl, fun _ => rfl, fun h => absurd h hb, fun h => absurd h hb⟩

/-- Settles O52: the one count of `k` tuples is `k`, so O51 decides; on success NW counts the words. -/
theorem repackOfTuplesNeedsExactLen : Obligations.RepackOfTuplesNeedsExactLen := by
  unfold Obligations.RepackOfTuplesNeedsExactLen
  intro s fds k hs htag hd hk
  have hfields : expandItems [.group .remaining fds] [k] = (List.replicate k fds).flatten := by
    rw [expandItems_group, expandItems_nil, List.append_nil]
  have hn : (expandItems [.group .remaining fds] [k]).length = s.nv.toNat := by
    rw [hfields, length_flatten_replicate, hk]
  have hbits : elemBits (expandItems [.group .remaining fds] [k]) = k * elemBits fds := by
    rw [hfields, elemBits_flatten_replicate]
  obtain ⟨t, code, hexec, hresps, hlen, _, hok⟩ :=
    repackCodeFollowsLengthThenValues s _ [k] hs htag hd rfl (And.intro trivial rfl) hn
  rw [hbits, hfields] at hok
  rw [hbits] at hlen
  refine ⟨t, code, hexec, hresps, hlen, fun hb hvalues => ?_⟩
  obtain rfl := hok hb hvalues
  obtain ⟨hne, u, hrun, rfl⟩ := exec_repack_ok_inv hexec hresps
  have hnw := (repacked_header hs.2.2 hne hrun).1.nw
  refine ⟨rfl, ?_⟩
  show 24 * u.nw.toNat = _
  omega

/-- What R89 says of an item behind others. -/
theorem itemWellFormed_of_append {d : Descriptor} {p : Nat} {pre rest : List Item} {it : Item}
    (h : itemsWellFormed d p (pre ++ it :: rest) = true) :
    itemWellFormed d (p + pre.length) rest.isEmpty it = true := by
  induction pre generalizing p with
  | nil => exact ((itemsWellFormed_cons d p it rest).1 h).1
  | cons it' pre ih =>
    have hrest := ih ((itemsWellFormed_cons d p it' (pre ++ it :: rest)).1 h).2
    rwa [show p + 1 + pre.length = p + (it' :: pre).length by rw [List.length_cons]; omega] at hrest

/-- Settles O50: the layout pass goes over the items `pre` and on to the next, or stops at the one that needs more entries
than there are. -/
theorem repackRefusesImpossibleLayout : Obligations.RepackRefusesImpossibleLayout := by
  unfold Obligations.RepackRefusesImpossibleLayout
  intro s d pre rest ks hs htag hd hsplit hreach used
  obtain ⟨hrem, hagree, hadm⟩ := hreach
  have hwf : itemsWellFormed d 0 (pre ++ rest) = true := hsplit ▸ descriptorWellFormed_of_descOf _ _ _ hs.2.2 hd
  obtain ⟨hshort, hlong⟩ := layoutItems_prefix s d [] pre rest [] ks [] 0 0 hsplit hwf rfl rfl
    (Nat.zero_le _) (valsMatch_nil _) hrem hagree hadm
  rw [Nat.zero_add, ← hsplit] at hshort hlong
  obtain ⟨t, code, hexec, hresps⟩ := exec_repack_answers s
  have hcode (e : ErrKind) (h : layout s d = .error e) : code = errKindCode e := by
    have hexec' := exec_repack_typed_error htag (repackTyped_layout_error hd h)
    rw [hexec] at hexec'
    cases hexec'
    injection List.append_cancel_left hresps with hr
    injection hr with hr
    exact hr.symm
  refine ⟨t, code, hexec, hresps, fun h => hcode .badLength (hshort h), fun h hrest => ?tooMany,
    fun h fds after hrest hmod => ?partTuple, fun h q fds after hrest hrange => ?badCount⟩
  case tooMany =>
    obtain ⟨vals, _, heq⟩ := hlong (Nat.le_of_lt h)
    subst hrest
    exact hcode .badLength (heq.trans (if_pos (Nat.ne_of_lt h)))
  case partTuple =>
    obtain ⟨vals, _, heq⟩ := hlong h
    subst hrest
    exact hcode .badLength (by rw [layout, heq, layoutItems, layoutGroupCount, if_pos hmod, error_bind])
  case badCount =>
    obtain ⟨vals, hvals, heq⟩ := hlong h
    subst hrest
    obtain ⟨_, _, hsrc, _⟩ := itemWellFormed_group d _ _ _ fds (itemWellFormed_of_append hwf)
    obtain ⟨fd, hq, hlt, _, _⟩ := hsrc q rfl
    have hval := valsMatch_source pre _ ks [] vals _ q fd (by omega) (hsplit ▸ hq) (countsAgree_length _ _ _ _ _ hagree)
      hvals
    rw [← hsplit, List.append_nil] at hval
    rw [← hval] at hrange
    exact hcode .fieldOverflow (by rw [layout, heq, layoutItems, layoutGroupCount, if_pos hrange, error_bind])

end Sys2Proof.Machine
end

section
/-! The invariant (spec/10_state.md R41): every way a command ends leaves a legal state. -/

namespace Sys2Proof.Machine

open Sys2Proof.Claims

section
variable {s t : State}

/-! ### WR -/

theorem legal_writeCtl {r : CtlReg} {x : Word} (hs : s.legal) (hx : x.toNat ≤ ctlMax r) : (writeCtl s r x).legal := by
  obtain ⟨⟨hnw, hoff, hlim, hnv⟩, harrays, hcfg⟩ := hs
  have hsmall (w : Nat) : (x.setWidth w).toNat ≤ x.toNat := by
    rw [BitVec.toNat_setWidth]
    exact Nat.mod_le _ _
  cases r with
  | nw => exact ⟨⟨Nat.le_trans (hsmall 6) hx, hoff, hlim, hnv⟩, harrays, hcfg⟩
  | off => exact ⟨⟨hnw, Nat.le_trans (hsmall 10) hx, hlim, hnv⟩, harrays, hcfg⟩
  | lim => exact ⟨⟨hnw, hoff, Nat.le_trans (hsmall 10) hx, hnv⟩, harrays, hcfg⟩
  | nv => exact ⟨⟨hnw, hoff, hlim, Nat.le_trans (hsmall 10) hx⟩, harrays, hcfg⟩
  | ctx0 | tag | mtype | stid | zcnt | seq | len | health => exact ⟨⟨hnw, hoff, hlim, hnv⟩, harrays, hcfg⟩

theorem legal_writeEntry {space : BitVec 4} {idx : BitVec 10} {en : Entry} {x : Word} (hs : s.legal)
    (hen : entryAt space idx = some en) (hx : legalValue x en = true) : (writeEntry s en x).legal := by
  have hs' := hs
  obtain ⟨hregs, ⟨hrw, hdw, hv, hopq⟩, hcfg⟩ := hs'
  rcases entryAt_inv hen with ⟨r, _, _, rfl⟩ | ⟨_, hi, rfl⟩ | ⟨_, hi, rfl⟩ | ⟨_, hi, rfl⟩ | ⟨_, hi, rfl⟩
  · exact legal_writeCtl hs (decide_eq_true_iff.1 hx)
  · exact ⟨hregs, ⟨Memory.wf_write 33 _ _ _ hrw hi, hdw, hv, hopq⟩, hcfg⟩
  · exact ⟨hregs, ⟨hrw, Memory.wf_write 33 _ _ _ hdw hi, hv, hopq⟩, hcfg⟩
  · exact ⟨hregs, ⟨hrw, hdw, Memory.wf_write 744 _ _ _ hv hi, hopq⟩, hcfg⟩
  · exact ⟨hregs, ⟨hrw, hdw, hv, Memory.wf_write 31 _ _ _ hopq hi⟩, hcfg⟩

/-! ### The Bit Cursor -/

theorem ofNat_off_le {n : Nat} (h : n ≤ 792) : (BitVec.ofNat 10 n).toNat ≤ 792 := by
  rw [BitVec.toNat_ofNat]
  exact Nat.le_trans (Nat.mod_le _ _) h

theorem legal_curRead {w : Nat} {sgn : Bool} {x : Int} (hs : s.legal) (h : curRead s w sgn = .ok (x, t)) : t.legal := by
  obtain ⟨⟨hnw, hoff, hlim, hnv⟩, harrays, hcfg⟩ := hs
  obtain ⟨hbudget, _, rfl⟩ := (curRead_ok_iff s w sgn x t).1 h
  exact ⟨⟨hnw, ofNat_off_le (by omega), hlim, hnv⟩, harrays, hcfg⟩

theorem legal_curWrite {w : Nat} {sgn : Bool} {x : Int} (hs : s.legal) (h : curWrite s x w sgn = .ok t) : t.legal := by
  obtain ⟨⟨hnw, hoff, hlim, hnv⟩, ⟨hrw, hdw, hv, hopq⟩, hcfg⟩ := hs
  have hwf := wf_curWrite s x w sgn t h hdw
  have hcap := ((curWrite_ok_iff s x w sgn t).1 h).2.1
  have hneed : wordsNeeded s.off.toNat w ≤ 33 := by unfold wordsNeeded; omega
  have hnw' : (BitVec.ofNat 6 (max s.nw.toNat (wordsNeeded s.off.toNat w))).toNat ≤ 33 := by
    rw [BitVec.toNat_ofNat]
    exact Nat.le_trans (Nat.mod_le _ _) (Nat.max_le.2 ⟨hnw, hneed⟩)
  rw [(curWrite_spec s x w sgn t h).1]
  exact ⟨⟨hnw', ofNat_off_le hcap, hlim, hnv⟩, ⟨hrw, hwf, hv, hopq⟩, hcfg⟩

/-! ### UNPACK -/

theorem legal_discardMessage (hs : s.legal) : (discardMessage s).legal := by
  obtain ⟨⟨hnw, hoff, hlim, hnv⟩, ⟨hrw, hdw, hv, hopq⟩, hcfg⟩ := hs
  have hview : Memory.wf 33 (discardMessage s).dw := by
    show Memory.wf 33 (if s.nw.toNat < 2 then s.dw else (stripWords s).dw)
    split
    · exact hdw
    · exact wf_stripWords s hdw hnw
  exact ⟨⟨hnw, ofNat_mod_legal _, ofNat_mod_legal _, Nat.zero_le _⟩, ⟨hrw, hview, wf_discardMessage_v s, hopq⟩, hcfg⟩

theorem wf_typedState_v {fds : List FieldDesc} (hv : Memory.wf 744 s.v) (hn : fds.length ≤ 744) :
    Memory.wf 744 (typedState s fds).v :=
  Memory.wf_fill 744 s.v 0 _ _ hv (by rw [length_fieldValues]; omega)

theorem legal_unpackRun (hs : s.legal) (h : unpackRun s = .ok t) : t.legal := by
  obtain ⟨_, hnw, hcases⟩ := unpackRun_ok_inv h
  obtain ⟨⟨hnw33, hoff, hlim, hnv⟩, ⟨hrw, hdw, hv, hopq⟩, hcfg⟩ := hs
  have hview := wf_stripWords s hdw hnw33
  have hend : (BitVec.ofNat 10 (24 * s.nw.toNat)).toNat ≤ 792 := ofNat_off_le (by omega)
  rcases hcases with ⟨_, rfl⟩ | ⟨d, hd, _, hfit, rfl⟩
  · rw [unpackOpaque_headerRead hnw]
    have hopq' : Memory.wf 31 (s.opq.fill 0 (declaredCount s) (fun i => s.rw.read (2 + i))) :=
      Memory.wf_fill 31 _ _ _ _ hopq (by have := declaredCount_lt s; omega)
    exact ⟨⟨hnw33, hend, hend, Nat.zero_le _⟩, ⟨hrw, hview, hv, hopq'⟩, hcfg⟩
  · have hwf := foundFields_wellFormed (s := s) (descriptorWellFormed_of_descOf _ _ _ hcfg hd)
    have hlen := length_le_declared hwf hfit
    have hnv' := typedState_nv hwf hfit
    rw [typedState_eq hnw hfit] at hnv' ⊢
    exact ⟨⟨hnw33, hend, hend, Nat.le_trans (Nat.le_of_eq hnv') hlen⟩, ⟨hrw, hview, wf_typedState_v hv hlen, hopq⟩, hcfg⟩

theorem legal_unpackMessage (hs : s.legal) : (unpackMessage s).1.legal := by
  unfold unpackMessage
  cases h : unpackRun s with
  | ok t => exact legal_unpackRun hs h
  | error e => exact legal_discardMessage hs

/-! ### REPACK -/

theorem wf_repackRun (hs : s.legal) (h : repackRun s = .ok t) : Memory.wf 33 t.rw ∧ Memory.wf 33 t.dw := by
  have hs' := hs
  obtain ⟨_, ⟨hrw, hdw, _, _⟩, hc⟩ := hs'
  have hlen := s.len.isLt
  rw [repackRun, bind_ok_iff] at h
  obtain ⟨u, hu, h⟩ := h
  cases h
  show Memory.wf 33 u.rw ∧ Memory.wf 33 u.dw
  split at hu
  · rcases repackTyped_cases s hc with ⟨_, he⟩ | ⟨d, ks, hd, hwf, hagree, hn, hb, hr⟩ | ⟨_, _, _, he, _⟩
    · rw [he] at hu; cases hu
    · -- the sequence is sealed over `2 + LEN` words, and its data view is the write passes'
      obtain ⟨v, hv, hw⟩ := repackTyped_ok s d ks hd hwf hagree hn hb hr
      have hdw' : Memory.wf 33 u.dw := by
        simp only [repackTyped, hd, bind_ok_iff] at hu
        obtain ⟨_, _, _, _, a, ha, b, hb, hu⟩ := hu
        have hwritten : Memory.wf 33 b.dw := wf_writeItems _ _ _ _ _ hb (wf_writeHeader _ _ ha hdw)
        cases hu
        exact hwritten
      rw [hu] at hv
      cases hv
      exact ⟨wf_sealedRw _ _ _ _ _ (by omega) (by rw [hw.state]; exact hrw), hdw'⟩
    · rw [he] at hu; cases hu
  · simp only [repackOpaque, bind_ok_iff] at hu
    obtain ⟨v, hv, hu⟩ := hu
    have hlen' : v.len = s.len := by rw [onlyDataMoved_writeHeader hv]
    have hrw' : v.rw = s.rw := by rw [onlyDataMoved_writeHeader hv]
    cases hu
    have hdw' : Memory.wf 33 (sealWords v 2).dw := wf_writeHeader s v hv hdw
    have hsealed : Memory.wf 33 (sealWords v 2).rw := wf_sealedRw _ _ _ _ 2 (by decide) (hrw' ▸ hrw)
    have hbound : 2 + (sealWords v 2).len.toNat ≤ 33 := by
      show 2 + v.len.toNat ≤ 33
      rw [hlen']
      omega
    exact ⟨Memory.wf_fill 33 _ _ _ _ hsealed hbound, Memory.wf_fill 33 _ _ _ _ hdw' hbound⟩

theorem legal_repackRun (hs : s.legal) (htag : s.tag ≠ .noMessage) (h : repackRun s = .ok t) : t.legal := by
  obtain ⟨hrw, hdw⟩ := wf_repackRun hs h
  obtain ⟨hframe, _, _⟩ := repacked_header hs.2.2 htag h
  obtain ⟨⟨_, _, _, hnv⟩, ⟨_, _, hv, hopq⟩, hcfg⟩ := hs
  have hlen := s.len.isLt
  have hend : (BitVec.ofNat 10 (24 * (2 + s.len.toNat))).toNat ≤ 792 := ofNat_off_le (by omega)
  have hnw : (BitVec.ofNat 6 (2 + s.len.toNat)).toNat ≤ 33 := by
    rw [nw_of_len]
    omega
  rw [hframe]
  exact ⟨⟨hnw, hend, hend, hnv⟩, ⟨hrw, hdw, hv, hopq⟩, hcfg⟩

theorem legal_dropOutput (hs : s.legal) : (dropOutput s).legal := by
  obtain ⟨⟨_, _, _, hnv⟩, ⟨_, _, hv, hopq⟩, hcfg⟩ := hs
  obtain ⟨hrw, hdw⟩ := wf_dropOutput s
  exact ⟨⟨Nat.zero_le _, ofNat_mod_legal _, ofNat_mod_legal _, hnv⟩, ⟨hrw, hdw, hv, hopq⟩, hcfg⟩

theorem legal_noMessage (hs : s.legal) : (noMessage s).legal := by
  obtain ⟨⟨hnw, hoff, hlim, _⟩, harrays, hcfg⟩ := hs
  exact ⟨⟨hnw, hoff, hlim, Nat.zero_le _⟩, harrays, hcfg⟩

/-! ### Every command -/

theorem Ends.legal {u : State} {i : Instr} {e : Option ErrKind} {x : Word} (hs : s.legal) (h : Ends s i u e x) :
    u.legal := by
  cases h with
  | wr space idx data en hen hv => exact legal_writeEntry hs hen hv
  | cread sgn width x t h => exact legal_curRead hs h
  | cwrite sgn width data t h => exact legal_curWrite hs h
  | strip =>
    obtain ⟨hregs, ⟨hrw, hdw, hv, hopq⟩, hcfg⟩ := hs
    exact ⟨hregs, ⟨hrw, wf_stripWords s hdw hregs.1, hv, hopq⟩, hcfg⟩
  | unpack => exact legal_unpackMessage hs
  | sealRaw =>
    obtain ⟨hregs, ⟨hrw, hdw, hv, hopq⟩, hcfg⟩ := hs
    exact ⟨hregs, ⟨wf_sealedRw _ _ _ _ _ hregs.1 hrw, hdw, hv, hopq⟩, hcfg⟩
  | repack t htag h => exact legal_repackRun hs htag h
  | repackError e htag h => exact legal_dropOutput hs
  | decodeResync | decodeBadLength => exact legal_noMessage hs
  | decodeUnpack => exact legal_unpackMessage hs
  | reset =>
    obtain ⟨hregs, harrays, _⟩ := resetStateLegal
    exact ⟨hregs, harrays, hs.2.2⟩
  | nop | rd | rdRefused | wrRefused | creadTruncated | creadRefused | cwriteError | cwriteRefused | pmatch | pmatchRefused
  | lcheck | repackRefused | decodeIncomplete => exact hs

theorem exec_keeps_legal {i : Instr} (hs : s.legal) (h : exec i s = .next t) : t.legal := by
  obtain ⟨u, e, x, hends, rfl⟩ := ends_of_exec h
  have hu : u.legal := hends.legal hs
  exact hu

end

/-- Settles O9: the idle step keeps the state, a refused word changes only the ports, and a command ends in a legal
state. -/
theorem stepKeepsLegal : Obligations.StepKeepsLegal := by
  unfold Obligations.StepKeepsLegal
  intro s t hs h
  have hdrop : s.dropCommand.legal := hs
  cases hcmds : s.cmds with
  | nil =>
    rw [step_idle hcmds] at h
    cases h
    exact hs
  | cons c rest =>
    cases hd : decode c with
    | error e =>
      rw [step_of_decode_error hcmds hd] at h
      cases h
      exact hdrop
    | ok i =>
      rw [step_of_decode hcmds hd] at h
      exact exec_keeps_legal hdrop h

end Sys2Proof.Machine
end

section
/-! The codec's round trips (spec/44_repacker.md R187): UNPACK after REPACK gives the message back, REPACK after UNPACK the
words. The key fact is that the values of the fields determine the bits they were read from. -/

namespace Sys2Proof.Machine

open Sys2Proof.Claims

/-! ### The values of fields determine their bits -/

/-- Equal values of a field come from equal bits: the pattern is the value modulo `2 ^ width` (R124), scaled. -/
theorem memRead_eq_of_fieldValue_eq {dw dw' : Memory 24} {fd : FieldDesc} {o : Nat} (hmul : 1 ≤ fd.mul)
    (h : fieldValue dw fd o = fieldValue dw' fd o) : memRead dw o fd.width = memRead dw' o fd.width := by
  have hpattern := mul_right_cancel₀ (by omega : (fd.mul : Int) ≠ 0) h
  rw [← patternValue_emod fd.width fd.signed _ (memRead_lt dw o fd.width), hpattern,
    patternValue_emod fd.width fd.signed _ (memRead_lt dw' o fd.width)]

theorem bitAt_eq_of_memRead_eq {dw dw' : Memory 24} {o n : Nat} (h : memRead dw o n = memRead dw' o n) (a : Nat)
    (ha : o ≤ a) (ha' : a < o + n) : bitAt dw a = bitAt dw' a := by
  have hbit := congrArg (Nat.testBit · (n - 1 - (a - o))) h
  simp only [testBit_memRead, show n - 1 - (a - o) < n by omega, decide_true, Bool.true_and,
    show o + (n - 1 - (n - 1 - (a - o))) = a by omega] at hbit
  exact hbit

theorem bitAt_eq_of_fieldValues_eq {dw dw' : Memory 24} (fds : List FieldDesc) (o : Nat)
    (hmul : ∀ fd ∈ fds, 1 ≤ fd.mul) (h : fieldValues dw fds o = fieldValues dw' fds o) (a : Nat) (ha : o ≤ a)
    (ha' : a < o + elemBits fds) : bitAt dw a = bitAt dw' a := by
  induction fds generalizing o with
  | nil => rw [elemBits_nil] at ha'; omega
  | cons fd fds ih =>
    rw [elemBits_cons] at ha'
    obtain ⟨hhead, htail⟩ := List.cons.inj h
    by_cases hin : a < o + fd.width
    · exact bitAt_eq_of_memRead_eq (memRead_eq_of_fieldValue_eq (hmul fd (List.mem_cons_self ..)) hhead) a ha hin
    · exact ih (o + fd.width) (fun f hf => hmul f (List.mem_cons_of_mem fd hf)) htail (by omega) (by omega)

/-- Two data views with the same header and payload values have the same words. -/
theorem read_eq_of_fieldValues_eq {dw dw' : Memory 24} {fds : List FieldDesc} {n : Nat}
    (hwf : ∀ fd ∈ fds, fieldWellFormed fd = true) (hb : elemBits fds = 24 * n)
    (hheader : fieldValues dw headerFields 0 = fieldValues dw' headerFields 0)
    (hpayload : fieldValues dw fds 48 = fieldValues dw' fds 48) (i : Nat) (hi : i < 2 + n) :
    dw.read i = dw'.read i := by
  refine read_eq_of_bitAt _ _ i fun a ha ha' => ?_
  by_cases h48 : a < 48
  · exact bitAt_eq_of_fieldValues_eq headerFields 0 (by decide) hheader a (Nat.zero_le a) (by simpa using h48)
  · exact bitAt_eq_of_fieldValues_eq fds 48 (fun fd hfd => (fieldWellFormed_width fd (hwf fd hfd)).2.2) hpayload a
      (by omega) (by omega)

/-! ### The header, both ways -/

theorem sameHeader_of_headerOf {s t : State} {w0 w1 : DataWord} (hs : headerOf s w0 w1) (ht : headerOf t w0 w1) :
    sameHeader s t := by
  obtain ⟨s1, s2, s3, s4, s5, s6⟩ := hs
  obtain ⟨t1, t2, t3, t4, t5, t6⟩ := ht
  exact ⟨s1.trans t1.symm, s2.trans t2.symm, s3.trans t3.symm, s4.trans t4.symm, s5.trans t5.symm, s6.trans t6.symm⟩

/-- Data words with the preamble and the header registers in their slices carry the header fields (R84). -/
theorem header_of_words {dw : Memory 24} {s : State} (hpre : (dw.read 0).extractLsb' 16 8 = s.cfg.preamble)
    (h : headerOf s (dw.read 0) (dw.read 1)) : fieldValues dw headerFields 0 = headerValues s := by
  obtain ⟨hmtype, hstid, hzcnt, hseq, hlen, hhealth⟩ := h
  have m0 : memRead dw 0 8 = s.cfg.preamble.toNat := hpre ▸ memRead_in_word dw 0 0 8 (by omega)
  have m1 : memRead dw 8 6 = s.mtype.toNat := hmtype ▸ memRead_in_word dw 0 8 6 (by omega)
  have m2 : memRead dw 14 10 = s.stid.toNat := hstid ▸ memRead_in_word dw 0 14 10 (by omega)
  have m3 : memRead dw 24 13 = s.zcnt.toNat := hzcnt ▸ memRead_in_word dw 1 0 13 (by omega)
  have m4 : memRead dw 37 3 = s.seq.toNat := hseq ▸ memRead_in_word dw 1 13 3 (by omega)
  have m5 : memRead dw 40 5 = s.len.toNat := hlen ▸ memRead_in_word dw 1 16 5 (by omega)
  have m6 : memRead dw 45 3 = s.health.toNat := hhealth ▸ memRead_in_word dw 1 21 3 (by omega)
  simp only [headerFields, headerValues, fieldValues, fieldValue, patternValue, Bool.false_and, Bool.false_eq_true,
    if_false, Nat.cast_one, mul_one, Nat.zero_add, Nat.reduceAdd, m0, m1, m2, m3, m4, m5, m6]

/-! ### UNPACK after REPACK -/

section
variable {s t : State}

/-- The header of a repacked sequence declares the message it was made of. -/
theorem declared_of_repacked (hheader : fieldValues t.dw headerFields 0 = headerValues s)
    (hdata : ∀ i, i < 2 → trueData (t.rw.read i) = t.dw.read i) :
    declaredType t = s.mtype ∧ declaredCount t = s.len.toNat := by
  obtain ⟨⟨hmtype, _, _, _, hlen, _⟩, _⟩ := headerOf_of_header hheader
  rw [declaredType, declaredCount, hdata 0 (by decide), hdata 1 (by decide), ← hmtype, ← hlen]
  exact ⟨rfl, rfl⟩

theorem sameHeader_of_repacked (hheader : fieldValues t.dw headerFields 0 = headerValues s)
    (hdata : ∀ i, i < 2 → trueData (t.rw.read i) = t.dw.read i) : sameHeader s (headerRead t) := by
  have hread := headerOf_headerRead t
  rw [hdata 0 (by decide), hdata 1 (by decide)] at hread
  exact sameHeader_of_headerOf (headerOf_of_header hheader).1 hread

/-- UNPACK of the sequence made of a TYPED message gives it back: the data words carry it, so the walk finds it. -/
theorem unpackRun_repackedTyped {d : Descriptor} {ks : List Nat} (hc : configWellFormed s.cfg = true)
    (htag : s.tag = .typed) (hfits : TypedFits s d ks) (hmade : RepackedTyped s (expandItems d ks) t) :
    ∃ u, unpackRun t = .ok u ∧ sameMessage s u := by
  have hwf := expandItems_wellFormed d 0 d ks (descriptorWellFormed_of_descOf _ _ _ hc hfits.desc)
  have hcfg : t.cfg = s.cfg := by rw [hmade.frame]
  have hnw := hmade.frame.nw
  have hdata : ∀ i, i < 2 → trueData (t.rw.read i) = t.dw.read i := fun i hi => (hmade.sealed i (by omega)).2.1
  obtain ⟨htype, hcount⟩ := declared_of_repacked hmade.header hdata
  have hdw : ∀ i, i < t.nw.toNat → t.dw.read i = trueData (t.rw.read i) :=
    fun i hi => ((hmade.sealed i (hnw ▸ hi)).2.1).symm
  have hnw' : t.nw.toNat = 2 + declaredCount t := by rw [hnw, hcount]
  have hfit : elemBits (expandItems d ks) = 24 * declaredCount t := by rw [hcount, hfits.bits]
  have hrun := unpackRun_typed_ok (s := t) (hcfg ▸ hc) hnw' (by rw [hcfg, htype, hfits.desc]) hdw hfits.agree
    hmade.carries hfit
  have hnv := typedState_nv (s := t) hwf hfit
  refine ⟨_, hrun, htag, sameHeader_of_repacked hmade.header hdata, fun _ => ⟨?nv, fun j hj => ?entry⟩, fun hopq => ?_⟩
  case nv => exact BitVec.eq_of_toNat_eq (hfits.entries.symm.trans hnv.symm)
  case entry =>
    have hj' : j < (expandItems d ks).length := hfits.entries ▸ hj
    apply BitVec.eq_of_toInt_eq
    exact ((payloadValue_typedState hwf j hj').trans
      (fieldValues_eq_of_carries hnw' hdw hmade.carries hfit j hj')).symm
  · rw [htag] at hopq
    cases hopq

/-- UNPACK of the sequence made of an OPAQUE message of unknown type gives it back. -/
theorem unpackRun_repackedOpaque (htag : s.tag = .opaqueRaw) (hd : descOf s.cfg s.mtype = none)
    (hmade : RepackedOpaque s t) : ∃ u, unpackRun t = .ok u ∧ sameMessage s u := by
  have hcfg : t.cfg = s.cfg := by rw [hmade.frame]
  have hnw := hmade.frame.nw
  have hdata : ∀ i, i < 2 → trueData (t.rw.read i) = t.dw.read i := fun i hi => (hmade.sealed i hi).2.1
  obtain ⟨htype, hcount⟩ := declared_of_repacked hmade.header hdata
  have hnw' : t.nw.toNat = 2 + declaredCount t := by rw [hnw, hcount]
  have hrun := unpackRun_unknownType (by omega) hnw' (by rw [hcfg, htype, hd])
  refine ⟨_, hrun, htag, sameHeader_of_repacked hmade.header hdata, fun htyped => ?_, fun _ i hi => ?_⟩
  · rw [htag] at htyped
    cases htyped
  · rw [unpackOpaque_headerRead hnw']
    rw [Memory.read_fill_zero, if_pos (hcount ▸ hi), (hmade.stored i hi).1]

end

/-- Settles O40: the sequence REPACK made declares and carries the message, so UNPACK finds it. -/
theorem unpackAfterRepackRestoresMessage : Obligations.UnpackAfterRepackRestoresMessage := by
  unfold Obligations.UnpackAfterRepackRestoresMessage
  intro s t hs h hr hopq
  obtain ⟨hne, u, hrun, rfl⟩ := exec_repack_ok_inv h hr
  have hunpack : ∃ v, unpackRun (u.succeed 0) = .ok v ∧ sameMessage s v := by
    rcases repackRun_ok_inv hs.2.2 hne hrun with ⟨htag, d, ks, hfits, hmade⟩ | ⟨htag, hmade⟩
    · exact unpackRun_repackedTyped hs.2.2 htag hfits (hmade.respond _ _)
    · exact unpackRun_repackedOpaque htag (hopq htag) (hmade.respond _ _)
  obtain ⟨v, hv, hsame⟩ := hunpack
  exact ⟨_, exec_unpack_ok hv, succeed_resps_of_unpackRun hv, hsame⟩

/-! ### REPACK after UNPACK -/

/-- The value read from a field is representable in it (R90, R91). -/
theorem representable_fieldValue {fd : FieldDesc} (dw : Memory 24) (o : Nat) (hwf : fieldWellFormed fd = true) :
    representable fd (fieldValue dw fd o) = true := by
  obtain ⟨hw, _, hmul⟩ := fieldWellFormed_width fd hwf
  rw [representable_iff, fieldValue]
  refine ⟨Int.mul_emod_left _ _, ?_⟩
  rw [Int.mul_ediv_cancel _ (by omega)]
  exact fitsField_patternValue _ _ _ hw (memRead_lt dw o fd.width)

section
variable {s : State} {d : Descriptor} {ks : List Nat} {fds : List FieldDesc}

theorem headerRead_len (s : State) : (headerRead s).len.toNat = declaredCount s := (declaredCount_eq s).symm

theorem fieldValues_eq_payload (hwf : ∀ fd ∈ fds, fieldWellFormed fd = true) :
    fieldValues (stripWords s).dw fds 48 = (List.range fds.length).map (payloadValue (typedState s fds)) := by
  apply List.ext_getElem
  · simp
  · intro j hj hj'
    rw [length_fieldValues] at hj
    rw [List.getElem_map, List.getElem_range, payloadValue_typedState hwf j hj, List.getD_eq_getElem?_getD,
      List.getElem?_eq_getElem (by rwa [length_fieldValues]), Option.getD_some]

/-- A TYPED message that UNPACK left fits its descriptor, whatever `CTX0` is. -/
theorem typedFits_typedState (ctx0 : BitVec 2) (hwf : ∀ fd ∈ expandItems d ks, fieldWellFormed fd = true)
    (hd : descOf s.cfg (declaredType s) = some d)
    (hagree : countsAgree d ks (payloadValue (typedState s (expandItems d ks))) d ks = true)
    (hfit : elemBits (expandItems d ks) = 24 * declaredCount s) :
    TypedFits { (typedState s (expandItems d ks)).succeed 0 with ctx0 := ctx0 } d ks where
  desc := by
    rw [declaredType_eq] at hd
    exact hd
  agree := hagree
  entries := (typedState_nv hwf hfit).symm
  bits := hfit.trans (by rw [← headerRead_len]; rfl)
  values := by
    intro j fd hj
    have hlt : j < (expandItems d ks).length := (List.getElem?_eq_some_iff.1 hj).1
    show representable fd (payloadValue (typedState s (expandItems d ks)) j) = true
    rw [payloadValue_typedState hwf j hlt, List.getD_eq_getElem?_getD, getElem?_fieldValues, hj]
    exact representable_fieldValue _ _ (hwf fd (List.mem_of_getElem? hj))

/-- The data view of a sequence with the preamble in its first field carries the header fields of what UNPACK reads. -/
theorem header_stripWords {r : State} (h2 : 2 ≤ s.nw.toNat) (hcfg : r.cfg = s.cfg) (hr : sameHeader (headerRead s) r)
    (hpre : (trueData (s.rw.read 0)).extractLsb' 16 8 = s.cfg.preamble) :
    fieldValues (stripWords s).dw headerFields 0 = headerValues r := by
  have h0 : (stripWords s).dw.read 0 = trueData (s.rw.read 0) := by rw [read_stripWords_trueData, if_pos (by omega)]
  have h1 : (stripWords s).dw.read 1 = trueData (s.rw.read 1) := by rw [read_stripWords_trueData, if_pos (by omega)]
  obtain ⟨m, st, z, sq, l, hl⟩ := headerOf_headerRead s
  obtain ⟨rm, rst, rz, rsq, rl, rhl⟩ := hr
  refine header_of_words (by rw [h0, hcfg, hpre]) ?_
  rw [h0, h1]
  exact ⟨rm ▸ m, rst ▸ st, rz ▸ z, rsq ▸ sq, rl ▸ l, rhl ▸ hl⟩

/-- REPACK of the TYPED message UNPACK left: the values it writes are those of the data view, so the words are too. -/
theorem repackRun_after_typed (ctx0 : BitVec 2) (hc : configWellFormed s.cfg = true) (hnw : s.nw.toNat = 2 + declaredCount s)
    (hd : descOf s.cfg (declaredType s) = some d)
    (hagree : countsAgree d ks (payloadValue (typedState s (expandItems d ks))) d ks = true)
    (hfit : elemBits (expandItems d ks) = 24 * declaredCount s)
    (hpre : (trueData (s.rw.read 0)).extractLsb' 16 8 = s.cfg.preamble) :
    ∃ w, repackRun { (typedState s (expandItems d ks)).succeed 0 with ctx0 := ctx0 } = .ok w ∧ w.nw = s.nw ∧
      (∀ i, i < s.nw.toNat → w.dw.read i = trueData (s.rw.read i)) ∧ sealedFrom s.cfg ctx0 w.dw w.rw s.nw.toNat := by
  have hwf := expandItems_wellFormed d 0 d ks (descriptorWellFormed_of_descOf _ _ _ hc hd)
  obtain ⟨w, hw, hmade⟩ :=
    repackRun_typed_ok (s := { (typedState s (expandItems d ks)).succeed 0 with ctx0 := ctx0 }) rfl hc
      (typedFits_typedState ctx0 hwf hd hagree hfit)
  have hlen := headerRead_len s
  have hnw' : w.nw.toNat = 2 + (headerRead s).len.toNat := hmade.frame.nw
  have hheader := header_stripWords (s := s) (r := { (typedState s (expandItems d ks)).succeed 0 with ctx0 := ctx0 })
    (by omega) rfl ⟨rfl, rfl, rfl, rfl, rfl, rfl⟩ hpre
  have hpayload : fieldValues w.dw (expandItems d ks) 48 = fieldValues (stripWords s).dw (expandItems d ks) 48 :=
    hmade.payload.trans (fieldValues_eq_payload hwf).symm
  have hsealed : sealedFrom s.cfg ctx0 w.dw w.rw (2 + (headerRead s).len.toNat) := hmade.sealed
  refine ⟨w, hw, BitVec.eq_of_toNat_eq (by omega), fun i hi => ?_, by rwa [hnw, ← hlen]⟩
  rw [read_eq_of_fieldValues_eq hwf hfit (hmade.header.trans hheader.symm) hpayload i (by omega),
    read_stripWords_trueData, if_pos hi]

/-- REPACK of the OPAQUE message UNPACK left: the header from its registers, the other words as they were stored. -/
theorem repackRun_after_opaque (ctx0 : BitVec 2) (h2 : 2 ≤ s.nw.toNat) (hnw : s.nw.toNat = 2 + declaredCount s)
    (hpre : (trueData (s.rw.read 0)).extractLsb' 16 8 = s.cfg.preamble) :
    ∃ w, repackRun { (unpackOpaque (headerRead s)).succeed 0 with ctx0 := ctx0 } = .ok w ∧ w.nw = s.nw ∧
      (∀ i, i < s.nw.toNat → w.dw.read i = trueData (s.rw.read i)) ∧ sealedFrom s.cfg ctx0 w.dw w.rw 2 ∧
      ∀ i, 2 ≤ i → i < s.nw.toNat → w.rw.read i = s.rw.read i := by
  obtain ⟨w, hw, hmade⟩ :=
    repackRun_opaque_ok (s := { (unpackOpaque (headerRead s)).succeed 0 with ctx0 := ctx0 }) rfl
  have hlen := headerRead_len s
  have hnw' : w.nw.toNat = 2 + (headerRead s).len.toNat := hmade.frame.nw
  have hheader := header_stripWords (s := s) (r := { (unpackOpaque (headerRead s)).succeed 0 with ctx0 := ctx0 })
    h2 rfl ⟨rfl, rfl, rfl, rfl, rfl, rfl⟩ hpre
  have hstored : ∀ i, i < declaredCount s →
      w.rw.read (2 + i) = s.rw.read (2 + i) ∧ w.dw.read (2 + i) = trueData (s.rw.read (2 + i)) := by
    intro i hi
    have hopq : (unpackOpaque (headerRead s)).opq.read i = s.rw.read (2 + i) := by
      rw [unpackOpaque_headerRead hnw, Memory.read_fill_zero, if_pos hi]
    have hword := hmade.stored i (show i < (headerRead s).len.toNat by omega)
    rw [← hopq]
    exact hword
  have hsplit (i : Nat) (h2 : 2 ≤ i) (hi : i < s.nw.toNat) : ∃ k, i = 2 + k ∧ k < declaredCount s :=
    ⟨i - 2, by omega, by omega⟩
  refine ⟨w, hw, BitVec.eq_of_toNat_eq (by omega), fun i hi => ?_, hmade.sealed, fun i h2 hi => ?_⟩
  · by_cases h2 : i < 2
    · rw [read_eq_of_fieldValues_eq (fds := []) (n := 0) (by simp) rfl (hmade.header.trans hheader.symm) rfl i (by omega),
        read_stripWords_trueData, if_pos hi]
    · obtain ⟨k, rfl, hk⟩ := hsplit i (by omega) hi
      exact (hstored k hk).2
  · obtain ⟨k, rfl, hk⟩ := hsplit i h2 hi
    exact (hstored k hk).1

end

/-- Settles O53: UNPACK left a TYPED message that fits its descriptor, or an OPAQUE one; REPACK accepts either. -/
theorem repackAfterUnpackRestoresData : Obligations.RepackAfterUnpackRestoresData := by
  unfold Obligations.RepackAfterUnpackRestoresData
  intro s t ctx0 hs h hr hpre
  rcases exec_unpack_inv h hr with ⟨u, hrun, rfl, _⟩ | ⟨e, _, _, he⟩
  swap
  · exact absurd he (by cases e <;> decide)
  obtain ⟨h2, hnw, _⟩ := unpackRun_ok_inv hrun
  cases htag : u.tag with
  | typed =>
    obtain ⟨d, ks, hd, rfl, hagree, hfit⟩ := unpackRun_typed_inv hs.2.2 hrun htag
    obtain ⟨w, hw, hwnw, hdw, hsealed⟩ := repackRun_after_typed ctx0 hs.2.2 hnw hd hagree hfit hpre
    refine ⟨_, exec_repack_ok_eq nofun hw, rfl, hwnw, fun i hi => ⟨hdw i hi, ?_⟩, fun _ => hsealed, nofun⟩
    exact (hsealed i hi).2.1.trans (hdw i hi)
  | opaqueRaw =>
    obtain rfl := unpackRun_opaque_inv hrun htag
    obtain ⟨w, hw, hwnw, hdw, hsealed, hrest⟩ := repackRun_after_opaque ctx0 h2 hnw hpre
    refine ⟨_, exec_repack_ok_eq nofun hw, rfl, hwnw, fun i hi => ⟨hdw i hi, ?_⟩, nofun,
      fun _ => ⟨hsealed, hrest⟩⟩
    by_cases hi2 : i < 2
    · exact (hsealed i hi2).2.1.trans (hdw i hi)
    · exact congrArg trueData (hrest i (by omega) hi)
  | noMessage => exact absurd htag (unpackRun_tag hrun)

/-- The containers that obey `seal` over the same data words from the same context are the same. -/
theorem read_eq_of_sealedFrom {cfg : Config} {ctx0 : BitVec 2} {dw dw' : Memory 24} {rw rw' : Memory 32} {n : Nat}
    (h : sealedFrom cfg ctx0 dw rw n) (h' : sealedFrom cfg ctx0 dw' rw' n)
    (hdw : ∀ i, i < n → dw.read i = dw'.read i) (i : Nat) (hi : i < n) : rw.read i = rw'.read i := by
  have hword {dw : Memory 24} {rw : Memory 32} (h : sealedFrom cfg ctx0 dw rw n) (i : Nat) (hi : i < n) :
      rw.read i = sealWord cfg (if i = 0 then ctx0 else (rw.read (i - 1)).extractLsb' 0 2) (dw.read i) := by
    obtain ⟨hctx, hdata, hpar⟩ := h i hi
    rw [trueData_eq_stripWord] at hdata
    rw [← hctx, ← hdata]
    exact eq_sealWord cfg _ (by rw [hdata]; exact hpar)
  induction i with
  | zero => rw [hword h 0 hi, hword h' 0 hi, if_pos rfl, if_pos rfl, hdw 0 hi]
  | succ i ih =>
    rw [hword h (i + 1) hi, hword h' (i + 1) hi, if_neg (by omega), if_neg (by omega), Nat.add_sub_cancel,
      ih (by omega), hdw (i + 1) hi]

/-- Settles O41: by O53 the data words are restored, and the context and parity bits of both sequences obey `seal` from the
same `CTX0`, which leaves one sequence only. -/
theorem repackAfterUnpackRestoresWords : Obligations.RepackAfterUnpackRestoresWords := by
  unfold Obligations.RepackAfterUnpackRestoresWords
  intro s t hs h hr hpre hsealed
  rcases exec_unpack_inv h hr with ⟨v, hrun, rfl, _⟩ | ⟨e, _, _, he⟩
  swap
  · exact absurd he (by cases e <;> decide)
  obtain ⟨u, hu, hresps, hnw, hdata, htyped, hopq⟩ := repackAfterUnpackRestoresData s _ (v.succeed 0).ctx0 hs h hr hpre
  have hctx : v.ctx0 = s.ctx0 := unpackRun_ctx0 hrun
  rw [show (v.succeed 0).ctx0 = s.ctx0 from hctx] at htyped hopq
  have hdw : ∀ i, i < s.nw.toNat → u.dw.read i = (v.succeed 0).dw.read i :=
    fun i hi => (hdata i hi).1.trans (hsealed i hi).2.1
  refine ⟨u, hu, hresps, hnw, fun i hi => ?_⟩
  cases htag : v.tag with
  | typed => exact read_eq_of_sealedFrom (htyped htag) hsealed hdw i hi
  | opaqueRaw =>
    obtain ⟨hsealed2, hrest⟩ := hopq htag
    obtain ⟨h2, _, _⟩ := unpackRun_ok_inv hrun
    by_cases hi2 : i < 2
    · have hsealed' : sealedFrom s.cfg s.ctx0 (v.succeed 0).dw s.rw 2 := fun k hk => hsealed k (by omega)
      exact read_eq_of_sealedFrom hsealed2 hsealed' (fun k hk => hdw k (by omega)) i hi2
    · exact hrest i (by omega) hi
  | noMessage => exact absurd htag (unpackRun_tag hrun)

end Sys2Proof.Machine
end

section
/-! What REPACK and UNPACK depend on (spec/10_state.md R39): the message, `CTX0` and the configuration; the words of the
sequence and the descriptors. -/

namespace Sys2Proof.Machine

open Sys2Proof.Claims

/-! ### Counts that agree with the values -/

/-- A scalar item is one of the payload's entries. -/
theorem length_expandItems_take_lt {items : List Item} {q : Nat} {fd : FieldDesc} (ks : List Nat)
    (hq : items[q]? = some (.field fd)) : (expandItems (items.take q) ks).length < (expandItems items ks).length := by
  induction items generalizing q ks with
  | nil => cases hq
  | cons it items ih =>
    cases q with
    | zero =>
      obtain rfl : it = .field fd := Option.some.inj hq
      exact Nat.zero_lt_succ _
    | succ q =>
      rw [List.take_succ_cons]
      cases it with
      | field fd' => exact Nat.succ_lt_succ (ih ks hq)
      | group src fds =>
        cases ks with
        | nil => exact ih [] hq
        | cons k ks =>
          rw [expandItems_group, expandItems_group, List.length_append, List.length_append]
          exact Nat.add_lt_add_left (ih ks hq) _

/-- Whether counts agree depends on the values of the payload's own entries only. -/
theorem countsAgree_congr {d : Descriptor} {counts : List Nat} {val val' : Nat → Int} {p : Nat} {items : List Item}
    {ks : List Nat} (hwf : itemsWellFormed d p items = true)
    (hval : ∀ j, j < (expandItems d counts).length → val j = val' j) :
    countsAgree d counts val items ks = countsAgree d counts val' items ks := by
  induction items generalizing p ks with
  | nil => rfl
  | cons it items ih =>
    obtain ⟨hit, hrest⟩ := (itemsWellFormed_cons d p it items).1 hwf
    cases it with
    | field fd => exact ih hrest
    | group src fds =>
      cases ks with
      | nil => rfl
      | cons k ks =>
        cases src with
        | const n | remaining => simp only [countsAgree, ih hrest]
        | field q =>
          obtain ⟨_, _, hsrc, _⟩ := itemWellFormed_group d _ _ _ fds hit
          obtain ⟨fd, hq, _⟩ := hsrc q rfl
          simp only [countsAgree, ih hrest, entryOfItem, hval _ (length_expandItems_take_lt counts hq)]

/-! ### REPACK of equal messages -/

section
variable {s s' t t' : State} {d : Descriptor}

/-- The entries of `V` that belong to the message agree. -/
def sameEntries (s s' : State) : Prop := s.nv = s'.nv ∧ ∀ j, j < s.nv.toNat → s.v.read j = s'.v.read j

theorem sameEntries.payloadValue (h : sameEntries s s') {j : Nat} (hj : j < s.nv.toNat) :
    payloadValue s j = payloadValue s' j := congrArg BitVec.toInt (h.2 j hj)

theorem layoutGroupCount_congr (hnv : s.nv = s'.nv) (vals : List Int) (fds : List FieldDesc) (j : Nat)
    (src : CountSource) : layoutGroupCount s d vals fds j src = layoutGroupCount s' d vals fds j src := by
  cases src with
  | const n | field q => rfl
  | remaining => rw [layoutGroupCount, layoutGroupCount, hnv]

/-- The layout pass reads only the entries below NV (R182). -/
theorem layoutItems_congr (h : sameEntries s s') (items : List Item) (vals : List Int) (j bits : Nat) :
    layoutItems s d items vals j bits = layoutItems s' d items vals j bits := by
  induction items generalizing vals j bits with
  | nil => rw [layoutItems, layoutItems, h.1]
  | cons it items ih =>
    cases it with
    | field fd =>
      rw [layoutItems, layoutItems, ← h.1]
      by_cases hj : s.nv.toNat ≤ j
      · rw [if_pos hj, if_pos hj]
      · rw [if_neg hj, if_neg hj, h.payloadValue (by omega), ih]
    | group src fds => simp only [layoutItems, layoutGroupCount_congr h.1, h.1, ih]

/-- The inputs of REPACK agree: the message, `CTX0` and the configuration. -/
def sameRepackInputs (s s' : State) : Prop := sameMessage s s' ∧ s.ctx0 = s'.ctx0 ∧ s.cfg = s'.cfg

/-- Two sequences agree in their first `n` words and data words. -/
def sameWords (n : Nat) (t t' : State) : Prop :=
  ∀ i, i < n → t.rw.read i = t'.rw.read i ∧ t.dw.read i = t'.dw.read i

theorem sameRepackInputs.headerValues (h : sameRepackInputs s s') : headerValues s = headerValues s' := by
  obtain ⟨⟨_, ⟨hmtype, hstid, hzcnt, hseq, hlen, hhealth⟩, _⟩, _, hcfg⟩ := h
  rw [Machine.headerValues, hmtype, hstid, hzcnt, hseq, hlen, hhealth, hcfg]
  rfl

theorem sameRepackInputs.len (h : sameRepackInputs s s') : s.len = s'.len := by
  obtain ⟨⟨_, ⟨_, _, _, _, hlen, _⟩, _⟩, _⟩ := h
  exact hlen

theorem sameRepackInputs.desc (h : sameRepackInputs s s') : descOf s.cfg s.mtype = descOf s'.cfg s'.mtype := by
  obtain ⟨⟨_, ⟨hmtype, _⟩, _⟩, _, hcfg⟩ := h
  rw [hmtype, hcfg]

theorem sameRepackInputs.entries (h : sameRepackInputs s s') (htag : s.tag = .typed) : sameEntries s s' := by
  obtain ⟨⟨_, _, htyped, _⟩, _⟩ := h
  exact htyped htag

/-- What REPACK of a TYPED message makes of it: the words depend on the message, `CTX0` and the configuration. -/
theorem RepackedTyped.sameWords {fds : List FieldDesc} (h : sameRepackInputs s s') (htag : s.tag = .typed)
    (hwf : ∀ fd ∈ fds, fieldWellFormed fd = true) (hn : fds.length = s.nv.toNat) (hb : elemBits fds = 24 * s.len.toNat)
    (hmade : RepackedTyped s fds t) (hmade' : RepackedTyped s' fds t') : sameWords (2 + s.len.toNat) t t' := by
  have hpayload : (List.range fds.length).map (payloadValue s) = (List.range fds.length).map (payloadValue s') :=
    List.map_congr_left fun j hj => (h.entries htag).payloadValue (hn ▸ List.mem_range.1 hj)
  have hdw : ∀ i, i < 2 + s.len.toNat → t.dw.read i = t'.dw.read i :=
    read_eq_of_fieldValues_eq hwf hb (hmade.header.trans (h.headerValues.trans hmade'.header.symm))
      (hmade.payload.trans (hpayload.trans hmade'.payload.symm))
  have hlen := h.len
  obtain ⟨_, hctx, hcfg⟩ := h
  refine fun i hi => ⟨?_, hdw i hi⟩
  rw [hmade.words, hmade'.words, ← hctx, ← hcfg, ← hlen]
  exact read_sealedRw_congr _ _ _ _ _ _ _ _ i hi hi fun k hk => hdw k (by omega)

theorem RepackedOpaque.sameWords (h : sameRepackInputs s s') (htag : s.tag = .opaqueRaw) (hmade : RepackedOpaque s t)
    (hmade' : RepackedOpaque s' t') : sameWords (2 + s.len.toNat) t t' := by
  have hheader : ∀ i, i < 2 → t.dw.read i = t'.dw.read i := fun i hi =>
    read_eq_of_fieldValues_eq (fds := []) (n := 0) (by simp) rfl
      (hmade.header.trans (h.headerValues.trans hmade'.header.symm)) rfl i hi
  have hlen := h.len
  obtain ⟨⟨_, _, _, hopq⟩, hctx, hcfg⟩ := h
  intro i hi
  by_cases h2 : i < 2
  · refine ⟨?_, hheader i h2⟩
    rw [hmade.words i h2, hmade'.words i h2, ← hctx, ← hcfg]
    exact read_sealedRw_congr _ _ _ _ _ _ _ _ i h2 h2 fun k hk => hheader k (by omega)
  · obtain ⟨k, rfl⟩ : ∃ k, i = 2 + k := ⟨i - 2, by omega⟩
    have hk : k < s.len.toNat := by omega
    obtain ⟨hrw, hdw⟩ := hmade.stored k hk
    obtain ⟨hrw', hdw'⟩ := hmade'.stored k (hlen ▸ hk)
    rw [hrw, hdw, hrw', hdw', hopq htag k hk]
    exact ⟨rfl, rfl⟩

/-- Equal TYPED messages are refused with the same error, or fit the same descriptor with the same counts. -/
theorem repackTyped_same (h : sameRepackInputs s s') (htag : s.tag = .typed) (hc : configWellFormed s.cfg = true) :
    (∃ e, repackTyped s = .error e ∧ repackTyped s' = .error e) ∨ ∃ d ks, TypedFits s d ks ∧ TypedFits s' d ks := by
  have hv := h.entries htag
  cases hd : descOf s.cfg s.mtype with
  | none => exact .inl ⟨.unsupportedType, by rw [repackTyped, hd], by rw [repackTyped, ← h.desc, hd]⟩
  | some d =>
    have hd' : descOf s'.cfg s'.mtype = some d := h.desc ▸ hd
    have hwf := descriptorWellFormed_of_descOf _ _ _ hc hd
    have hlay' : layout s' d = layout s d := (layoutItems_congr hv d [] 0 0).symm
    cases hlay : layout s d with
    | error e =>
      exact .inl ⟨e, repackTyped_layout_error hd hlay, repackTyped_layout_error hd' (hlay'.trans hlay)⟩
    | ok bits =>
      by_cases hb : bits = 24 * s.len.toNat
      swap
      · exact .inl ⟨.badLength, repackTyped_wrongLen hd hlay hb,
          repackTyped_wrongLen hd' (hlay'.trans hlay) (h.len ▸ hb)⟩
      obtain ⟨ks, hagree, hadm, hn, rfl⟩ := (layout_ok_iff s d bits hwf).1 hlay
      have hval : ∀ j, j < (expandItems d ks).length → payloadValue s j = payloadValue s' j :=
        fun j hj => hv.payloadValue (hn ▸ hj)
      have hagree' : countsAgree d ks (payloadValue s') d ks = true := countsAgree_congr hwf hval ▸ hagree
      have hn' : (expandItems d ks).length = s'.nv.toNat := hv.1 ▸ hn
      have hb' : elemBits (expandItems d ks) = 24 * s'.len.toNat := h.len ▸ hb
      have hvalues : allRepresentable (expandItems d ks) (payloadValue s) ↔
          allRepresentable (expandItems d ks) (payloadValue s') := by
        refine forall_congr' fun j => forall_congr' fun fd => forall_congr' fun hj => ?_
        rw [hval j (List.getElem?_eq_some_iff.1 hj).1]
      by_cases hr : allRepresentable (expandItems d ks) (payloadValue s)
      · exact .inr ⟨d, ks, ⟨hd, hagree, hn, hb, hr⟩, ⟨hd', hagree', hn', hb', hvalues.1 hr⟩⟩
      · exact .inl ⟨.fieldOverflow, repackTyped_overflow s d ks hd hwf hagree hadm hn hb hr,
          repackTyped_overflow s' d ks hd' hwf hagree' hadm hn' hb' (fun hr' => hr (hvalues.2 hr'))⟩

/-- REPACK of equal messages is refused with the same error, or makes the same words. -/
theorem repackRun_same (h : sameRepackInputs s s') (htag : s.tag ≠ .noMessage) (hc : configWellFormed s.cfg = true) :
    (∃ e, repackRun s = .error e ∧ repackRun s' = .error e) ∨
      ∃ t t', repackRun s = .ok t ∧ repackRun s' = .ok t' ∧ repackFrame s t ∧ repackFrame s' t' ∧
        sameWords (2 + s.len.toNat) t t' := by
  have ⟨⟨htag', _, _⟩, _, hcfg⟩ := h
  cases ht : s.tag with
  | noMessage => exact absurd ht htag
  | opaqueRaw =>
    obtain ⟨t, hrun, hmade⟩ := repackRun_opaque_ok ht
    obtain ⟨t', hrun', hmade'⟩ := repackRun_opaque_ok (htag'.symm.trans ht)
    exact .inr ⟨t, t', hrun, hrun', hmade.frame, hmade'.frame, hmade.sameWords h ht hmade'⟩
  | typed =>
    have ht' : s'.tag = .typed := htag'.symm.trans ht
    rcases repackTyped_same h ht hc with ⟨e, he, he'⟩ | ⟨d, ks, hfits, hfits'⟩
    · exact .inl ⟨e, by rw [repackRun, if_pos ht, he, error_bind], by rw [repackRun, if_pos ht', he', error_bind]⟩
    · obtain ⟨t, hrun, hmade⟩ := repackRun_typed_ok ht hc hfits
      obtain ⟨t', hrun', hmade'⟩ := repackRun_typed_ok ht' (hcfg ▸ hc) hfits'
      have hwf := expandItems_wellFormed d 0 d ks (descriptorWellFormed_of_descOf _ _ _ hc hfits.desc)
      exact .inr ⟨t, t', hrun, hrun', hmade.frame, hmade'.frame,
        RepackedTyped.sameWords h ht hwf hfits.entries hfits.bits hmade hmade'⟩

end

/-- Settles O48: the same error leaves an empty sequence; the same words come with the same NW. -/
theorem repackDependsOnMessageOnly : Obligations.RepackDependsOnMessageOnly := by
  unfold Obligations.RepackDependsOnMessageOnly
  intro s s' t t' hs _ hmsg hctx hcfg htag h h'
  have hsame : sameRepackInputs s s' := ⟨hmsg, hctx, hcfg⟩
  have htag' : s'.tag ≠ .noMessage := fun hn => htag (hmsg.1.trans hn)
  rcases repackRun_same hsame htag hs.2.2 with ⟨e, he, he'⟩ | ⟨u, u', hrun, hrun', hframe, hframe', hwords⟩
  · rw [exec_repack_error htag he] at h
    rw [exec_repack_error htag' he'] at h'
    cases h
    cases h'
    exact ⟨⟨errKindCode e, 0#32⟩, rfl, rfl, rfl, fun i hi => absurd hi (Nat.not_lt_zero i)⟩
  · rw [exec_repack_ok_eq htag hrun] at h
    rw [exec_repack_ok_eq htag' hrun'] at h'
    cases h
    cases h'
    refine ⟨⟨0#4, 0#32⟩, rfl, rfl, BitVec.eq_of_toNat_eq ?_, fun i hi => hwords i (hframe.nw ▸ hi)⟩
    exact hframe.nw.trans ((congrArg (2 + ·.toNat) hsame.len).trans hframe'.nw.symm)

/-! ### UNPACK of equal sequences -/

section
variable {s s' : State}

/-- The inputs of UNPACK agree: the words of the sequence and the descriptors. -/
structure SameSequence (s s' : State) : Prop where
  nw : s.nw = s'.nw
  words : ∀ i, i < s.nw.toNat → s.rw.read i = s'.rw.read i
  desc : ∀ ty, descOf s.cfg ty = descOf s'.cfg ty

theorem SameSequence.sameType (h : SameSequence s s') (h1 : 1 ≤ s.nw.toNat) : declaredType s = declaredType s' := by
  rw [declaredType, declaredType, h.words 0 h1]

theorem SameSequence.sameCount (h : SameSequence s s') (h2 : 2 ≤ s.nw.toNat) : declaredCount s = declaredCount s' := by
  rw [declaredCount, declaredCount, h.words 1 h2]

theorem SameSequence.sameCheck (h : SameSequence s s') (c : BitVec 5) (ty : BitVec 6) :
    lcheck s.cfg c ty = lcheck s'.cfg c ty := by
  rw [lcheck, lcheck, h.desc]

theorem SameSequence.complete (h : SameSequence s s') (hnw : s.nw.toNat = 2 + declaredCount s) :
    s'.nw.toNat = 2 + declaredCount s' := by
  rw [← h.nw, ← h.sameCount (by omega), hnw]

theorem SameSequence.sameHeader (h : SameSequence s s') (h2 : 2 ≤ s.nw.toNat) :
    sameHeader (headerRead s) (headerRead s') := by
  have hread' := headerOf_headerRead s'
  rw [← h.words 0 (by omega), ← h.words 1 h2] at hread'
  exact sameHeader_of_headerOf (headerOf_headerRead s) hread'

theorem SameSequence.dataView (h : SameSequence s s') (i : Nat) (hi : i < s'.nw.toNat) :
    (stripWords s).dw.read i = trueData (s'.rw.read i) := by
  have hi' : i < s.nw.toNat := h.nw ▸ hi
  rw [read_stripWords_trueData, if_pos hi', h.words i hi']

theorem SameSequence.sameValues (h : SameSequence s s') (hnw : s.nw.toNat = 2 + declaredCount s) {fds : List FieldDesc}
    (hfit : elemBits fds = 24 * declaredCount s) :
    fieldValues (stripWords s).dw fds 48 = fieldValues (stripWords s').dw fds 48 := by
  have hcount := h.sameCount (by omega)
  exact fieldValues_congr _ _ fds 48 fun a _ ha => bitAt_eq_stripWords (h.complete hnw) h.dataView a (by omega)

/-- The walk finds the same fields, unless they need more bits than there are in both. -/
theorem SameSequence.sameFields (h : SameSequence s s') (hnw : s.nw.toNat = 2 + declaredCount s) {d : Descriptor}
    (hwf : itemsWellFormed d 0 d = true) :
    (24 * declaredCount s < elemBits (foundFields s d) ∧
        24 * declaredCount s < elemBits (foundFields s' d)) ∨ foundFields s' d = foundFields s d := by
  have hcount := h.sameCount (by omega)
  obtain ⟨_, hagree, hcarries, hfills⟩ := walkFinds_foundCounts (s := s) hwf
  rw [hcount] at hfills ⊢
  rw [foundFields_eq s d]
  exact foundFields_of_walkFinds hwf (h.complete hnw) ⟨h.dataView, hagree, hcarries, hfills⟩

/-- Two TYPED messages made of the same fields of the same sequence. -/
theorem SameSequence.sameTyped (h : SameSequence s s') (hnw : s.nw.toNat = 2 + declaredCount s) {fds : List FieldDesc}
    (hwf : ∀ fd ∈ fds, fieldWellFormed fd = true) (hfit : elemBits fds = 24 * declaredCount s) :
    sameMessage (typedState s fds) (typedState s' fds) := by
  refine ⟨rfl, h.sameHeader (by omega), fun _ => ⟨rfl, fun j hj => ?_⟩, nofun⟩
  have hj' : j < fds.length := typedState_nv hwf hfit ▸ hj
  rw [typedState_v_read, typedState_v_read, if_pos hj', if_pos hj', h.sameValues hnw hfit]

theorem SameSequence.sameOpaque (h : SameSequence s s') (hnw : s.nw.toNat = 2 + declaredCount s) :
    sameMessage (unpackOpaque (headerRead s)) (unpackOpaque (headerRead s')) := by
  have hcount := h.sameCount (by omega)
  refine ⟨rfl, h.sameHeader (by omega), nofun, fun _ i hi => ?_⟩
  have hi' : i < declaredCount s := (headerRead_len s) ▸ hi
  rw [unpackOpaque_headerRead hnw, unpackOpaque_headerRead (h.complete hnw), Memory.read_fill_zero, Memory.read_fill_zero,
    if_pos hi', if_pos (hcount ▸ hi'), h.words (2 + i) (by omega)]

/-- UNPACK of equal sequences meets the same error, or leaves equal messages. -/
theorem unpackRun_same (h : SameSequence s s') (hc : configWellFormed s.cfg = true) :
    (∃ e, unpackRun s = .error e ∧ unpackRun s' = .error e) ∨
      ∃ u u', unpackRun s = .ok u ∧ unpackRun s' = .ok u' ∧ u.nv = u'.nv ∧ sameMessage u u' := by
  by_cases h2 : s.nw.toNat < 2
  · exact .inl ⟨_, unpackRun_headerMissing h2, unpackRun_headerMissing (h.nw ▸ h2)⟩
  have hcount := h.sameCount (by omega)
  have htype := h.sameType (by omega)
  rcases Nat.lt_trichotomy s.nw.toNat (2 + declaredCount s) with hnw | hnw | hnw
  · exact .inl ⟨_, unpackRun_wordsMissing hnw, unpackRun_wordsMissing (by rwa [← h.nw, ← hcount])⟩
  swap
  · exact .inl ⟨_, unpackRun_wordsOver hnw, unpackRun_wordsOver (by rwa [← h.nw, ← hcount])⟩
  have hnw' := h.complete hnw
  cases hd : descOf s.cfg (declaredType s) with
  | none =>
    have hd' : descOf s'.cfg (declaredType s') = none := by rw [← h.desc, ← htype, hd]
    exact .inr ⟨_, _, unpackRun_unknownType (by omega) hnw hd, unpackRun_unknownType (by omega) hnw' hd', rfl,
      h.sameOpaque hnw⟩
  | some d =>
    have hd' : descOf s'.cfg (declaredType s') = some d := by rw [← h.desc, ← htype, hd]
    have hwf := descriptorWellFormed_of_descOf _ _ _ hc hd
    have hrun := unpackRun_knownType hnw hd
    have hrun' := unpackRun_knownType hnw' hd'
    rw [← h.sameCheck, ← htype, ← hcount] at hrun'
    rcases h.sameFields hnw hwf with ⟨hbig, hbig'⟩ | hfound
    · rw [if_pos hbig] at hrun
      rw [if_pos hbig'] at hrun'
      split_ifs at hrun hrun'
      · exact .inl ⟨_, hrun, hrun'⟩
      · exact .inl ⟨_, hrun, hrun'⟩
    · rw [hfound] at hrun'
      split_ifs at hrun hrun'
      · exact .inl ⟨_, hrun, hrun'⟩
      · exact .inl ⟨_, hrun, hrun'⟩
      · exact .inr ⟨_, _, hrun, hrun', rfl, h.sameTyped hnw (foundFields_wellFormed hwf) (by omega)⟩
      · exact .inl ⟨_, hrun, hrun'⟩

/-- How UNPACK of equal sequences ends before the response: the same error and no message, or equal messages. -/
def sameOutcome (m m' : State × Option ErrKind) : Prop :=
  m.2 = m'.2 ∧ m.1.tag = m'.1.tag ∧ m.1.nv = m'.1.nv ∧
    (m.2 = none → m.1.tag ≠ .noMessage ∧ sameMessage m.1 m'.1) ∧ (m.2 ≠ none → m.1.tag = .noMessage ∧ m.1.nv = 0#10)

theorem unpackMessage_same (h : SameSequence s s') (hc : configWellFormed s.cfg = true) :
    sameOutcome (unpackMessage s) (unpackMessage s') := by
  rcases unpackRun_same h hc with ⟨e, he, he'⟩ | ⟨u, u', hrun, hrun', hnv, hmsg⟩
  · rw [unpackMessage, unpackMessage, he, he']
    exact ⟨rfl, rfl, rfl, nofun, fun _ => ⟨rfl, rfl⟩⟩
  · rw [unpackMessage, unpackMessage, hrun, hrun']
    exact ⟨rfl, hmsg.1, hnv, fun _ => ⟨unpackRun_tag hrun, hmsg⟩, fun hne => absurd rfl hne⟩

/-- DECODE of equal sequences takes the same branch (R200). -/
theorem decodeSequence_same (h : SameSequence s s') (hpre : s.cfg.preamble = s'.cfg.preamble) :
    (decodeSequence s = (s, none, .incomplete) ∧ decodeSequence s' = (s', none, .incomplete)) ∨
      (∃ e st, (st = .invalid ∨ st = .resync) ∧ decodeSequence s = (noMessage s, some e, st) ∧
        decodeSequence s' = (noMessage s', some e, st)) ∨
      (decodeSequence s = ((unpackMessage s).1, (unpackMessage s).2, unpackStatus (unpackMessage s).2) ∧
        decodeSequence s' = ((unpackMessage s').1, (unpackMessage s').2, unpackStatus (unpackMessage s').2)) := by
  have hs := decodeSequence_eq s
  have hs' := decodeSequence_eq s'
  rw [← h.nw, ← hpre] at hs'
  by_cases h0 : s.nw = 0
  · rw [if_pos h0] at hs hs'
    exact .inl ⟨hs, hs'⟩
  have h1 : 1 ≤ s.nw.toNat := Nat.pos_of_ne_zero fun hz => h0 (BitVec.eq_of_toNat_eq hz)
  rw [if_neg h0] at hs hs'
  rw [← h.words 0 h1] at hs'
  by_cases hmatch : (trueData (s.rw.read 0)).extractLsb' 16 8 ≠ s.cfg.preamble
  · rw [if_pos hmatch] at hs hs'
    exact .inr (.inl ⟨_, _, .inr rfl, hs, hs'⟩)
  rw [if_neg hmatch] at hs hs'
  by_cases h2 : s.nw.toNat < 2
  · rw [if_pos h2] at hs hs'
    exact .inl ⟨hs, hs'⟩
  rw [if_neg h2] at hs hs'
  rw [← h.desc, ← h.sameCheck, ← h.sameType h1, ← h.sameCount (by omega)] at hs'
  by_cases hl : (descOf s.cfg (declaredType s)).isSome ∧
      lcheck s.cfg (BitVec.ofNat 5 (declaredCount s)) (declaredType s) = false
  · rw [if_pos hl] at hs hs'
    exact .inr (.inl ⟨_, _, .inl rfl, hs, hs'⟩)
  rw [if_neg hl] at hs hs'
  by_cases hnw : s.nw.toNat < 2 + declaredCount s
  · rw [if_pos hnw] at hs hs'
    exact .inl ⟨hs, hs'⟩
  rw [if_neg hnw] at hs hs'
  exact .inr (.inr ⟨hs, hs'⟩)

end

/-- Settles O47: UNPACK ends alike on both sides, and DECODE takes the same branch. -/
theorem unpackDependsOnSequenceOnly : Obligations.UnpackDependsOnSequenceOnly := by
  unfold Obligations.UnpackDependsOnSequenceOnly
  intro s s' t t' hs _ hnw hwords hdesc
  have hseq : SameSequence s s' := ⟨hnw, hwords, hdesc⟩
  obtain ⟨herr, htag, hnv, hok, hbad⟩ := unpackMessage_same hseq hs.2.2
  refine ⟨fun h h' => ?unpack, fun hpre h h' => ?decode⟩
  case unpack =>
    rw [exec_unpack] at h h'
    cases h
    cases h'
    refine ⟨⟨errCode (unpackMessage s).2, 0#32⟩, ?_, ?_, htag, hnv, fun h0 => (hok ((errCode_eq_zero_iff _).1 h0)).2⟩
    · rw [State.respond_resps, unpackMessage_resps]
    · rw [State.respond_resps, unpackMessage_resps, herr]
  case decode =>
    rw [exec_decode] at h h'
    cases h
    cases h'
    rcases decodeSequence_same hseq hpre with ⟨hd, hd'⟩ | ⟨e, st, hst, hd, hd'⟩ | ⟨hd, hd'⟩
    · rw [hd, hd']
      exact ⟨⟨0#4, 0#32⟩, rfl, rfl, fun _ => ⟨rfl, rfl⟩, nofun, fun h2 => absurd h2 (by decide), by decide⟩
    · rw [hd, hd']
      refine ⟨⟨errKindCode e, statusCode st⟩, rfl, rfl, ?_⟩
      rcases hst with rfl | rfl
      · exact ⟨nofun, nofun, fun _ => ⟨rfl, rfl, rfl, rfl⟩, (by decide : (statusCode .invalid).toNat ≤ 3)⟩
      · exact ⟨nofun, nofun, fun _ => ⟨rfl, rfl, rfl, rfl⟩, (by decide : (statusCode .resync).toNat ≤ 3)⟩
    · rw [hd, hd']
      refine ⟨⟨errCode (unpackMessage s).2, statusCode (unpackStatus (unpackMessage s).2)⟩, ?_, ?_, ?_⟩
      · rw [State.respond_resps, unpackMessage_resps]
      · rw [State.respond_resps, unpackMessage_resps, herr]
      cases he : (unpackMessage s).2 with
      | none =>
        obtain ⟨hmessage, hsame⟩ := hok he
        exact ⟨nofun, fun _ => ⟨hmessage, hnv, hsame⟩, fun h2 => absurd h2 (by decide),
          (by decide : (statusCode .message).toNat ≤ 3)⟩
      | some e =>
        obtain ⟨hnone, hzero⟩ := hbad (by rw [he]; nofun)
        exact ⟨nofun, nofun, fun _ => ⟨hnone, htag.symm.trans hnone, hzero, hnv.symm.trans hzero⟩,
          (by decide : (statusCode .invalid).toNat ≤ 3)⟩

end Sys2Proof.Machine
end

section
/-! The commands that give the same again when they are repeated (spec/20_memory.md R69): each writes what it has written
before, and an array in canonical form that is written with the entries it holds stays the same list. -/

namespace Sys2Proof.Machine

open Sys2Proof.Claims

section
variable {s t u : State} {err : BitVec 4} {dout : Word}

/-! ### Arrays written twice -/

theorem Memory.fill_fill {w size n : Nat} {m : Memory w} (f : Nat → BitVec w) (hm : Memory.wf size m) (hn : n ≤ size) :
    (m.fill 0 n f).fill 0 n f = m.fill 0 n f := by
  have hwf := Memory.wf_fill size m 0 n f hm (by omega)
  refine Memory.eq_of_read_eq _ _ (Memory.wf_fill size _ 0 n f hwf (by omega)) hwf fun a => ?_
  simp only [Memory.read_fill_zero]
  split <;> rfl

theorem sealedRw_sealedRw {rw : Memory 32} {n : Nat} (cfg : Config) (ctx0 : BitVec 2) (dw : Memory 24)
    (hrw : Memory.wf 33 rw) (hn : n ≤ 33) :
    sealedRw cfg ctx0 dw (sealedRw cfg ctx0 dw rw n) n = sealedRw cfg ctx0 dw rw n := by
  have hwf := wf_sealedRw cfg ctx0 dw rw n hn hrw
  refine Memory.eq_of_read_eq _ _ (wf_sealedRw cfg ctx0 dw _ n hn hwf) hwf fun i => ?_
  by_cases hi : i < n
  · exact read_sealedRw_congr cfg ctx0 dw dw _ _ n n i hi hi fun _ _ => rfl
  · exact read_sealedRw_ge cfg ctx0 dw _ n i (by omega)

/-! ### Each command after itself -/

/-- The data view of a sequence whose data view has been made is the one it has. -/
theorem stripWords_dw_again (hs : s.legal) (hrw : t.rw = s.rw) (hnw : t.nw = s.nw) (hdw : t.dw = (stripWords s).dw) :
    (stripWords t).dw = t.dw := by
  obtain ⟨⟨hnw33, _⟩, ⟨_, hwf, _⟩, _⟩ := hs
  show t.dw.fill 0 t.nw.toNat (fun i => stripWord (t.rw.read i)) = t.dw
  rw [hdw, hnw, hrw]
  exact Memory.fill_fill _ hwf hnw33

theorem strip_again (hs : s.legal) : stripWords ((stripWords s).respond err dout) = (stripWords s).respond err dout := by
  have hdw := stripWords_dw_again (t := (stripWords s).respond err dout) hs rfl rfl rfl
  rw [stripWords_eq, hdw]

theorem seal_again (hs : s.legal) :
    sealWords ((sealWords s s.nw.toNat).respond err dout) s.nw.toNat = (sealWords s s.nw.toNat).respond err dout := by
  obtain ⟨⟨hnw33, _⟩, ⟨hwf, _⟩, _⟩ := hs
  have hrw : (sealWords ((sealWords s s.nw.toNat).respond err dout) s.nw.toNat).rw = (sealWords s s.nw.toNat).rw :=
    sealedRw_sealedRw s.cfg s.ctx0 s.dw hwf hnw33
  rw [sealWords_eq, hrw]
  rfl

/-- UNPACK of an unknown type after itself: the message registers come from the same words. -/
theorem unpackRun_opaque_again (hs : s.legal) (hnw : s.nw.toNat = 2 + declaredCount s)
    (hd : descOf s.cfg (declaredType s) = none) (hu : u = (unpackOpaque (headerRead s)).respond err dout) :
    unpackRun u = .ok u := by
  have hdw : (stripWords u).dw = u.dw := stripWords_dw_again hs (by rw [hu]; rfl) (by rw [hu]; rfl) (by rw [hu]; rfl)
  have hopq : u.opq.fill 0 (declaredCount u) (fun i => u.rw.read (2 + i)) = u.opq := by
    obtain ⟨_, ⟨_, _, _, hwf⟩, _⟩ := hs
    have hcount := declaredCount_lt s
    rw [hu, unpackOpaque_headerRead hnw]
    exact Memory.fill_fill _ hwf (by omega)
  have hnw' : u.nw.toNat = 2 + declaredCount u := by rw [hu]; exact hnw
  rw [unpackRun_unknownType (by omega) hnw' (by rw [hu]; exact hd), unpackOpaque_headerRead hnw', hdw, hopq, hu,
    unpackOpaque_headerRead hnw]
  rfl

/-- UNPACK of a known type after itself: the data view carries the payload that the walk has found. -/
theorem unpackRun_typed_again {d : Descriptor} {ks : List Nat} (hs : s.legal) (hnw : s.nw.toNat = 2 + declaredCount s)
    (hd : descOf s.cfg (declaredType s) = some d)
    (hagree : countsAgree d ks (payloadValue (typedState s (expandItems d ks))) d ks = true)
    (hfit : elemBits (expandItems d ks) = 24 * declaredCount s)
    (hu : u = (typedState s (expandItems d ks)).respond err dout) : unpackRun u = .ok u := by
  have hwf := expandItems_wellFormed d 0 d ks (descriptorWellFormed_of_descOf _ _ _ hs.2.2 hd)
  have hdw : (stripWords u).dw = u.dw := stripWords_dw_again hs (by rw [hu]; rfl) (by rw [hu]; rfl) (by rw [hu]; rfl)
  have hview : u.dw = (stripWords s).dw := by rw [hu]; rfl
  have hv : (typedState u (expandItems d ks)).v = u.v := by
    obtain ⟨_, ⟨_, _, hvwf, _⟩, _⟩ := hs
    show u.v.fill 0 _ (fun j => BitVec.ofInt 32 ((fieldValues (stripWords u).dw (expandItems d ks) 48).getD j 0)) = u.v
    rw [hdw, hview, hu]
    exact Memory.fill_fill _ hvwf (by rw [length_fieldValues]; exact length_le_declared hwf hfit)
  have hnw' : u.nw.toNat = 2 + declaredCount u := by rw [hu]; exact hnw
  have hfit' : elemBits (expandItems d ks) = 24 * declaredCount u := by rw [hu]; exact hfit
  have hrun := unpackRun_typed_ok (s := u) (by rw [hu]; exact hs.2.2) hnw' (by rw [hu]; exact hd)
    (dw := (stripWords u).dw) (fun i hi => by rw [read_stripWords_trueData, if_pos hi]) hagree
    (by rw [hdw, hview]; exact carries_typedState hwf) hfit'
  rw [hrun, typedState_eq hnw' hfit', hdw, hv, hu, typedState_eq hnw hfit]
  rfl

theorem unpackRun_again (hs : s.legal) (h : unpackRun s = .ok t) (hu : u = t.respond err dout) : unpackRun u = .ok u := by
  obtain ⟨_, hnw, ⟨hd, rfl⟩ | ⟨d, hd, _, hfit, rfl⟩⟩ := unpackRun_ok_inv h
  · exact unpackRun_opaque_again hs hnw hd hu
  · obtain ⟨_, hagree, _, _⟩ := walkFinds_foundCounts (s := s) (descriptorWellFormed_of_descOf _ _ _ hs.2.2 hd)
    rw [foundFields_eq] at hfit hagree hu
    exact unpackRun_typed_again hs hnw hd hagree hfit hu

theorem repackRun_beyond (hc : configWellFormed s.cfg = true) (htag : s.tag ≠ .noMessage) (h : repackRun s = .ok t)
    (i : Nat) (hi : 2 + s.len.toNat ≤ i) : t.rw.read i = s.rw.read i ∧ t.dw.read i = s.dw.read i := by
  rcases repackRun_ok_inv hc htag h with ⟨_, d, ks, _, hmade⟩ | ⟨_, hmade⟩
  · rw [hmade.words]
    exact ⟨read_sealedRw_ge _ _ _ _ _ _ hi, hmade.beyond i hi⟩
  · exact hmade.beyond i hi

theorem repackFrame.again (h : repackFrame s t) (h' : repackFrame t u) (hrw : u.rw = t.rw) (hdw : u.dw = t.dw)
    (hresps : u.resps = t.resps) : u = t := by
  unfold repackFrame at h h'
  rw [h', hrw, hdw, hresps, h]

theorem repackFrame.sameRepackInputs (h : repackFrame s t) : sameRepackInputs s t := by
  rw [h]
  exact ⟨⟨rfl, ⟨rfl, rfl, rfl, rfl, rfl, rfl⟩, fun _ => ⟨rfl, fun _ _ => rfl⟩, fun _ _ _ => rfl⟩, rfl, rfl⟩

/-- REPACK of the message it was run on makes the same words again, and leaves the others alone. -/
theorem repackRun_again (hs : s.legal) (htag : s.tag ≠ .noMessage) (h : repackRun s = .ok t)
    (hu : u = t.respond err dout) : repackRun u = .ok u := by
  obtain ⟨hframe, _⟩ := repacked_header hs.2.2 htag h
  have hframe' : repackFrame s u := hu ▸ hframe.respond err dout
  have hsame := hframe'.sameRepackInputs
  have hlegal' : t.legal := legal_repackRun hs htag h
  have hlegal : u.legal := by rw [hu]; exact hlegal'
  have htag' : u.tag ≠ .noMessage := hsame.1.1 ▸ htag
  rcases repackRun_same hsame htag hs.2.2 with ⟨e, he, _⟩ | ⟨t', w, hrun, hw, _, hwframe, hwords⟩
  · rw [he] at h
    cases h
  rw [hrun] at h
  cases h
  have hread (i : Nat) : w.rw.read i = u.rw.read i ∧ w.dw.read i = u.dw.read i := by
    by_cases hi : i < 2 + s.len.toNat
    · obtain ⟨hrw, hdw⟩ := hwords i hi
      rw [hu]
      exact ⟨hrw.symm, hdw.symm⟩
    · exact repackRun_beyond hlegal.2.2 htag' hw i (by rw [← hsame.len]; omega)
  obtain ⟨hrww, hdww⟩ := wf_repackRun hlegal hw
  obtain ⟨_, ⟨hrwu, hdwu, _, _⟩, _⟩ := hlegal
  have hresps : w.resps = u.resps := by rw [repackRun_keeps hw]
  have heq : w = u := hframe'.again hwframe (Memory.eq_of_read_eq _ _ hrww hrwu fun i => (hread i).1)
    (Memory.eq_of_read_eq _ _ hdww hdwu fun i => (hread i).2) hresps
  rw [hw, heq]

end

/-- Settles O46: each command leaves a state on which it changes nothing more before its response. -/
theorem repeatedCommandIdempotent : Obligations.RepeatedCommandIdempotent := by
  unfold Obligations.RepeatedCommandIdempotent
  intro i s t hs hi h hr
  simp only [List.mem_cons, List.not_mem_nil, or_false] at hi
  rcases hi with rfl | rfl | rfl | rfl
  · obtain rfl : (stripWords s).succeed 0 = t := Host.Outcome.next.inj h
    exact congrArg (fun v : State => Host.Outcome.next (v.succeed 0)) (strip_again hs)
  · obtain rfl : (sealWords s s.nw.toNat).succeed 0 = t := Host.Outcome.next.inj h
    exact congrArg (fun v : State => Host.Outcome.next (v.succeed 0)) (seal_again hs)
  · rcases exec_unpack_inv h hr with ⟨u, hrun, rfl, _⟩ | ⟨e, _, _, he⟩
    · exact exec_unpack_ok (unpackRun_again hs hrun rfl)
    · exact absurd he (by cases e <;> decide)
  · obtain ⟨htag, u, hrun, rfl⟩ := exec_repack_ok_inv h hr
    have htag' : (u.succeed 0).tag ≠ .noMessage := by
      obtain ⟨hframe, _⟩ := repacked_header hs.2.2 htag hrun
      exact hframe.sameRepackInputs.1.1 ▸ htag
    exact exec_repack_ok htag' (repackRun_again hs htag hrun rfl)

end Sys2Proof.Machine
end
